-- ==== Sys2Proof/Word.lean ====
section
/-! DEFINITION. The word types of the core: 8-bit bytes of the internal byte strings, 32-bit bus words (cells and
registers), code points and texts (spec/00_scope.md R9 to R11, spec/40_codec.md R110). -/

namespace Sys2Proof

/-- One byte of an internal byte string, or one byte lane of a bus word. -/
abbrev Byte := BitVec 8

/-- One 32-bit bus word: the contents of a register or of a buffer cell (R20, R38 to R40). -/
abbrev Word := BitVec 32

/-- A finite sequence of bytes (R11, R110). -/
abbrev Bytes := List Byte

/-- A code point, a number; a character is one of 0 to `maxCodePoint` (R9). -/
abbrev CodePoint := Nat

/-- A finite sequence of code points (R9, R110). -/
abbrev Text := List CodePoint

/-- The largest code point (R9). -/
def maxCodePoint : Nat := 0x10FFFF

end Sys2Proof
end

