-- ==== Sys2Proof/Syntax.lean ====
section
/-! DEFINITION. The command words as syntax: the algorithms and operations of spec/30_encoding.md R91, R92, the raw fields
of a command word (R90) and the fourteen commands (R93), one constructor per row of spec/opcode_table.json. A command has
no operand fields (R96). -/

namespace Sys2Proof

/-- The seven algorithms (R2, R91). -/
inductive Alg where
  | shift
  | vigenere
  | oneTimePad
  | atbash
  | railFence
  | blockA
  | blockB
deriving DecidableEq, Repr

/-- The two operations (R92). -/
inductive Dir where
  | enc
  | dec
deriving DecidableEq, Repr

/-- The fields of any 32-bit command word, valid or not (R90). -/
structure CommandFields where
  /-- Bits [31:5], reserved. -/
  rsv : BitVec 27
  /-- Bit [4]. -/
  dir : BitVec 1
  /-- Bits [3:0]. -/
  alg : BitVec 4
deriving DecidableEq, Repr

/-- The fourteen commands (R93). -/
inductive Instr where
  | shiftEnc
  | shiftDec
  | vigEnc
  | vigDec
  | otpEnc
  | otpDec
  | atbashEnc
  | atbashDec
  | railEnc
  | railDec
  | blkaEnc
  | blkaDec
  | blkbEnc
  | blkbDec
deriving DecidableEq, Repr

/-- The ALG code of an algorithm (R91). -/
def Alg.code : Alg → BitVec 4
  | .shift => 1
  | .vigenere => 2
  | .oneTimePad => 3
  | .atbash => 4
  | .railFence => 5
  | .blockA => 6
  | .blockB => 7

/-- The DIR bit of an operation (R92). -/
def Dir.code : Dir → BitVec 1
  | .enc => 0
  | .dec => 1

/-- The algorithm a command selects (R93). -/
def Instr.alg : Instr → Alg
  | .shiftEnc | .shiftDec => .shift
  | .vigEnc | .vigDec => .vigenere
  | .otpEnc | .otpDec => .oneTimePad
  | .atbashEnc | .atbashDec => .atbash
  | .railEnc | .railDec => .railFence
  | .blkaEnc | .blkaDec => .blockA
  | .blkbEnc | .blkbDec => .blockB

/-- The operation a command performs (R93). -/
def Instr.dir : Instr → Dir
  | .shiftEnc | .vigEnc | .otpEnc | .atbashEnc | .railEnc | .blkaEnc | .blkbEnc => .enc
  | .shiftDec | .vigDec | .otpDec | .atbashDec | .railDec | .blkaDec | .blkbDec => .dec

/-- The command of an algorithm and an operation: the dispatch table of spec/43_dispatch.md R194. -/
def Instr.of : Alg → Dir → Instr
  | .shift, .enc => .shiftEnc
  | .shift, .dec => .shiftDec
  | .vigenere, .enc => .vigEnc
  | .vigenere, .dec => .vigDec
  | .oneTimePad, .enc => .otpEnc
  | .oneTimePad, .dec => .otpDec
  | .atbash, .enc => .atbashEnc
  | .atbash, .dec => .atbashDec
  | .railFence, .enc => .railEnc
  | .railFence, .dec => .railDec
  | .blockA, .enc => .blkaEnc
  | .blockA, .dec => .blkaDec
  | .blockB, .enc => .blkbEnc
  | .blockB, .dec => .blkbDec

/-- The fields of a command's word (R90, R93). -/
def Instr.fields (i : Instr) : CommandFields :=
  { rsv := 0, dir := i.dir.code, alg := i.alg.code }

end Sys2Proof
end

