-- ==== Sys2Proof/Config.lean ====
section
/-! DEFINITION. The fixed constants of the hardware (spec/00_scope.md R7, spec/10_state.md R20, R22,
spec/20_memory.md R60, R61) and its parameters (R8): plain data for the parameters that are numbers, and an uninterpreted
family for the digest and the two block primitives. -/

namespace Sys2Proof

namespace Config

/-- Block and key length of BlockCipherA (R7). -/
def blockLenA : Nat := 16
def keyLenA : Nat := 16

/-- Block and key length of BlockCipherB (R7). -/
def blockLenB : Nat := 8
def keyLenB : Nat := 24

/-- Letters of the shift and Vigenère alphabets (R7). -/
def alphabetSize : Nat := 26

/-- The Atbash constants (R7). -/
def atbashUpper : Nat := 155
def atbashLower : Nat := 219

/-- The ID register (R22). -/
def idValue : Word := 0x51434F52#32

/-- Size of the aperture in bytes (R60). -/
def apertureSize : Nat := 0x40000

/-- Offsets of the eleven registers (R20). -/
def offId : Nat := 0x00
def offCtrl : Nat := 0x04
def offCmd : Nat := 0x08
def offStatus : Nat := 0x0C
def offErrcode : Nat := 0x10
def offInLen : Nat := 0x14
def offKeyLen : Nat := 0x18
def offOutLen : Nat := 0x1C
def offInCap : Nat := 0x20
def offKeyCap : Nat := 0x24
def offOutCap : Nat := 0x28

/-- Offsets at which the IN, KEY and OUT windows begin (R61); each window is 0x10000 bytes. -/
def inBase : Nat := 0x10000
def keyBase : Nat := 0x20000
def outBase : Nat := 0x30000
def windowSize : Nat := 0x10000

/-- The largest legal capacity of a buffer (R8): one window of 32-bit cells. -/
def maxCap : Nat := 16384

/-- The digest of the `n`-th uninterpreted implementation (R119). Its output is the first 24 bytes and whatever bytes
follow, so its length is at least 24; nothing else is known of it. A free parameter (log 3). -/
opaque platformDigest : Nat → Bytes → Vector Byte 24 × Bytes

/-- BlockCipherA of the `n`-th uninterpreted implementation (R122): for each 16-byte key a permutation of the 16-byte
blocks. Encryption is the permutation and decryption its inverse, which is all that R122 lets a model assume (log 3). -/
opaque platformCipherA : Nat → Vector Byte 16 → Equiv.Perm (Vector Byte 16)

/-- BlockCipherB of the `n`-th uninterpreted implementation (R123), in the same form (log 3). -/
opaque platformCipherB : Nat → Vector Byte 24 → Equiv.Perm (Vector Byte 8)

end Config

/-- Which digest and block primitives an implementation has (R8 `Digest`, `E_A`, `D_A`, `E_B`, `D_B`). -/
inductive Primitives where
  /-- SHA-256, AES-128 and three-key TDEA: the reference configuration of R8. -/
  | reference
  /-- Some other choice: the `n`-th member of the uninterpreted family of `Config`. -/
  | platform (n : Nat)
deriving DecidableEq, Repr

/-- The parameters of R8 that a model takes as arguments. `IVDraw` is the `entropy` field of the state, and `Latency` is
not observable (R252). Which values are legal is `Params.Legal` (WellFormed). -/
structure Params where
  /-- `BASE` -/
  base : Nat
  /-- `IN_CAP` -/
  inCap : Nat
  /-- `KEY_CAP` -/
  keyCap : Nat
  /-- `OUT_CAP` -/
  outCap : Nat
  /-- `B_REJECT_DEGENERATE` -/
  rejectDegenerate : Bool
  /-- `Digest`, `E_A`, `D_A`, `E_B`, `D_B` -/
  primitives : Primitives
deriving DecidableEq, Repr

/-- The reference configuration of R8. `BASE` is OPEN there: DESIGN CHOICE 0 (log 1). -/
def Params.referenceConfig : Params :=
  { base := 0, inCap := 4096, keyCap := 1024, outCap := 8192, rejectDegenerate := false, primitives := .reference }

end Sys2Proof
end

