-- ==== Sys2Proof/WellFormed.lean ====
section
/-! DEFINITION. Which command words are valid (spec/30_encoding.md R90, R91, R93), which texts are texts
(spec/40_codec.md R110) and which parameters are legal (spec/00_scope.md R8). -/

namespace Sys2Proof

/-- RSV must be 0 in a valid command word (R90). -/
def CommandFields.rsvClear (f : CommandFields) : Bool := f.rsv == 0

/-- ALG is one of 1 to 7 (R91, R93). -/
def CommandFields.algAssigned (f : CommandFields) : Bool := decide (1 ≤ f.alg.toNat) && decide (f.alg.toNat ≤ 7)

/-- A valid command word (R93). -/
def CommandFields.wf (f : CommandFields) : Bool := f.rsvClear && f.algAssigned

/-- A command is well formed when its word is valid. A command has no operand that could be ill formed (R96). -/
def Instr.wf (i : Instr) : Bool := i.fields.wf

/-- Every element is a code point (R9, R110). -/
abbrev Text.Valid (t : Text) : Prop := ∀ c ∈ t, c ≤ maxCodePoint

/-- The legal parameters (R8): `BASE` a multiple of 0x40000, each capacity from 1 to 16384. -/
abbrev Params.Legal (p : Params) : Prop :=
  p.base % Config.apertureSize = 0 ∧
  (1 ≤ p.inCap ∧ p.inCap ≤ Config.maxCap) ∧
  (1 ≤ p.keyCap ∧ p.keyCap ≤ Config.maxCap) ∧
  (1 ≤ p.outCap ∧ p.outCap ≤ Config.maxCap)

end Sys2Proof
end

