-- ==== Sys2Proof/Decode.lean ====
section
/-! DEFINITION. The decoder of command words (spec/30_encoding.md R94), total on every 32-bit value and every byte string,
rejecting by name, and the encoder (R90, R93). Byte lanes are little-endian (spec/20_memory.md R65). -/

namespace Sys2Proof

/-- Why a command word, or a byte string, is no command. Both reasons about a whole word complete with
UnsupportedAlgorithm (R94, R211; log 18). -/
inductive DecodeError where
  /-- Some bit of [31:5] is set. -/
  | reservedBits
  /-- ALG is 0 or 8 to 15. -/
  | unassignedAlgorithm
  /-- Fewer than four bytes: no whole command word (R95). -/
  | truncated
deriving DecidableEq, Repr

/-- The 32-bit word whose bytes are `b0` (bits [7:0]) to `b3` (bits [31:24]) (R65). -/
def wordOfBytes (b0 b1 b2 b3 : Byte) : Word := b3 ++ b2 ++ b1 ++ b0

/-- Byte lane `k` of a word, lane 0 holding bits [7:0] (R65). -/
def byteLane (w : Word) (k : Nat) : Byte := w.extractLsb' (8 * k) 8

/-- The four byte lanes of a word, lowest address first (R65). -/
def bytesOfWord (w : Word) : Bytes := [byteLane w 0, byteLane w 1, byteLane w 2, byteLane w 3]

/-- The fields of a command word (R90). -/
def fieldsOf (w : Word) : CommandFields :=
  { rsv := w.extractLsb' 5 27, dir := w.extractLsb' 4 1, alg := w.extractLsb' 0 4 }

/-- The algorithm of an ALG code (R91). -/
def algOf (c : BitVec 4) : Option Alg :=
  match c.toNat with
  | 1 => some .shift
  | 2 => some .vigenere
  | 3 => some .oneTimePad
  | 4 => some .atbash
  | 5 => some .railFence
  | 6 => some .blockA
  | 7 => some .blockB
  | _ => none

/-- The operation of a DIR bit (R92). -/
def dirOf (d : BitVec 1) : Dir := if d = 0 then .enc else .dec

/-- `Decode` of R94. -/
def decode (w : Word) : Except DecodeError Instr :=
  let f := fieldsOf w
  if f.rsv ≠ 0 then .error .reservedBits
  else
    match algOf f.alg with
    | none => .error .unassignedAlgorithm
    | some a => .ok (Instr.of a (dirOf f.dir))

/-- The command in the first four bytes of a byte string, and the bytes after them. -/
def decodeBytes : Bytes → Except DecodeError (Instr × Bytes)
  | b0 :: b1 :: b2 :: b3 :: rest =>
    match decode (wordOfBytes b0 b1 b2 b3) with
    | .ok i => .ok (i, rest)
    | .error e => .error e
  | _ => .error .truncated

/-- The word with given fields (R90). -/
def wordOfFields (f : CommandFields) : Word := f.rsv ++ f.dir ++ f.alg

/-- The command word of a command (R93). -/
def encode (i : Instr) : Word := wordOfFields i.fields

/-- The bytes of a command word, lowest address first (R65, R95). -/
def encodeBytes (i : Instr) : Bytes := bytesOfWord (encode i)

/-- The 32-bit command word that the opcode table's number `w` of `nbits` bits stands for: bits at or above `nbits` are 0,
and a command word has no bits above 31 (R95). -/
def tableWord (nbits w : Nat) : Word := BitVec.ofNat 32 (w % 2 ^ nbits)

/-- What the decoder reads from the command word of a row of the opcode table. -/
def decodeTableWord (nbits w : Nat) : Option Instr :=
  match decodeBytes (bytesOfWord (tableWord nbits w)) with
  | .ok (i, _) => some i
  | .error _ => none

end Sys2Proof
end

