-- ==== Sys2Proof/Machine/State.lean ====
section
/-! DEFINITION. The state of the core (spec/10_state.md R20 to R45), the events that drive it (spec/20_memory.md R68), the
reasons a step can stop, and the state after reset (spec/70_reset_and_hazards.md R241). -/

namespace Sys2Proof.Machine

/-- The seven error kinds (spec/60_exceptions.md R210). -/
inductive ErrorKind where
  | unsupportedAlgorithm
  | invalidKey
  | keyTooShort
  | malformedCiphertext
  | paddingError
  | encodingError
  | capacityError
deriving DecidableEq, Repr

/-- One event of the sequence of R68. -/
inductive Event where
  /-- The host reads `size` bytes at byte address `addr` (R13). -/
  | read (addr size : Nat)
  /-- The host writes at byte address `addr`; for `size = 4` the value is `v`, for another size no value is looked at,
  because the access is refused (R64; log 15). -/
  | write (addr size : Nat) (v : Word)
  /-- The platform pulses the hardware reset input (R240 (a)). -/
  | hardwareReset
  /-- The entropy source has these bytes ready for coming draws (R15, R18; log 4). -/
  | entropy (bytes : Bytes)
  /-- The core's turn: the completion falls here if a command is in progress (R192; log 6). -/
  | core
deriving DecidableEq, Repr

/-- What the bus answers to the event of the last step. -/
inductive Response where
  /-- The event was no host access. -/
  | silent
  /-- An accepted read returns this word. -/
  | data (v : Word)
  /-- An accepted write, whether it stored, was ignored or was dropped. -/
  | ack
  /-- The error response of R64, R218. -/
  | busError
deriving DecidableEq, Repr

/-- Why the model stops although no instruction is unmodelled. -/
inductive Fault where
  /-- Raised by a step whose event is a host access to an address outside the aperture, which never reaches the core
  (spec/20_memory.md R60; log 10). Safe: the model stops where the core would see nothing. -/
  | outsideAperture (addr : Nat)
deriving DecidableEq, Repr

/-- Why an instruction has no meaning. -/
inductive Refusal where
  /-- Raised by `exec` for a command that has no meaning yet; no command is in that case. Safe: the model stops. -/
  | notModelled (mnemonic : String)
deriving DecidableEq, Repr

/-- The cells of the three buffers, as bytes keyed by their byte offset in the aperture, in the canonical form
`Memory.wf`; an offset that is not listed reads as 0, the reset value of every cell (R38 to R40, R241; log 9). -/
abbrev Memory := List Host.Cell

/-- The state of the core (R45), the parameters it was built with (R8), and the model's own fields. -/
structure State where
  /-- The parameters of R8; no step changes them (R37, R241). -/
  params : Params
  /-- CTRL.IRQEN (R25). -/
  irqen : Bool
  /-- CMD (R27). -/
  cmd : Word
  /-- STATUS.BUSY (R28). -/
  busy : Bool
  /-- STATUS.DONE (R29). -/
  done : Bool
  /-- STATUS.WLOST (R31). -/
  wlost : Bool
  /-- ERRCODE.CODE (R33). -/
  errcode : Fin 8
  /-- IN_LEN (R34). -/
  inLen : Word
  /-- KEY_LEN (R35). -/
  keyLen : Word
  /-- OUT_LEN (R36). -/
  outLen : Word
  /-- The IN, KEY and OUT cells (R38 to R40). -/
  mem : Memory
  /-- The model's own: the events still to come, the next first (R68; log 6). -/
  pending : List Event
  /-- The model's own: the bus response to the last step's event (R64, R66; log 7). -/
  response : Response
  /-- The model's own: the bytes ready for coming IV draws, a free value (R15, R127, R245; log 4). -/
  entropy : Bytes
deriving DecidableEq, Repr

/-- The state after reset (R241), in the reference configuration (R8; log 1), with no event to come (log 6), no response
(log 7) and an entropy source that is not ready (log 4). -/
def State.reset : State :=
  { params := Params.referenceConfig
    irqen := false
    cmd := 0
    busy := false
    done := false
    wlost := false
    errcode := 0
    inLen := 0
    keyLen := 0
    outLen := 0
    mem := []
    pending := []
    response := .silent
    entropy := [] }

end Sys2Proof.Machine
end

