-- ==== Sys2Proof/Machine/Ops.lean ====
section
/-! DEFINITION. The shared operations over the state: the cell memory, the accepted START (spec/43_dispatch.md R190), the
reset (spec/70_reset_and_hazards.md R241), the two forms of completion (spec/43_dispatch.md R197 to R199,
spec/60_exceptions.md R220), the IV draw (spec/40_codec.md R127) and the choice of the next event
(spec/20_memory.md R68). -/

namespace Sys2Proof.Machine

/-! ### Cell memory (R38 to R40, R65) -/

/-- The canonical form: offsets strictly rising, and no entry equal to what an unlisted offset reads as (log 9). -/
abbrev Memory.wf (m : Memory) : Prop :=
  m.Pairwise (fun p q => p.1 < q.1) ∧ ∀ p ∈ m, p.2 ≠ 0

/-- What an unlisted offset reads as: 0, the reset value of every cell (R241). -/
def Memory.unlisted : Byte := 0

/-- The byte at an offset of the aperture. -/
def Memory.readByte : Memory → Nat → Byte
  | [], _ => Memory.unlisted
  | (a, v) :: m, x => if x = a then v else Memory.readByte m x

/-- The cell whose lowest byte is at offset `a` (R65). -/
def Memory.readCell (m : Memory) (a : Nat) : Word :=
  wordOfBytes (m.readByte a) (m.readByte (a + 1)) (m.readByte (a + 2)) (m.readByte (a + 3))

/-- The entries of one cell, those equal to the unlisted value left out. -/
def Memory.entriesOf (a : Nat) (w : Word) : Memory :=
  [(a, byteLane w 0), (a + 1, byteLane w 1), (a + 2, byteLane w 2), (a + 3, byteLane w 3)].filter
    fun p => p.2 != Memory.unlisted

/-- The entries of consecutive cells from offset `a`. -/
def Memory.cells : Nat → List Word → Memory
  | _, [] => []
  | a, w :: ws => Memory.entriesOf a w ++ Memory.cells (a + 4) ws

/-- The one write to memory: the bytes from offset `lo` up to and without `hi` become the cells `ws` followed by zeros.
Every use has `lo + 4 * ws.length ≤ hi`. -/
def Memory.store (m : Memory) (lo hi : Nat) (ws : List Word) : Memory :=
  m.filter (fun p => p.1 < lo) ++ Memory.cells lo ws ++ m.filter (fun p => hi ≤ p.1)

/-- Byte `k` of consecutive cells followed by zeros: what `Memory.store` puts at offset `lo + k`. -/
def byteOfCells (ws : List Word) (k : Nat) : Byte := byteLane (ws.getD (k / 4) 0) (k % 4)

/-- Offsets of the cells (R61). -/
def inAddr (i : Nat) : Nat := Config.inBase + 4 * i
def keyAddr (i : Nat) : Nat := Config.keyBase + 4 * i
def outAddr (i : Nat) : Nat := Config.outBase + 4 * i

/-- The value stored in `IN[i]`, `KEY[i]` and `OUT[i]`. -/
def State.inCell (s : State) (i : Nat) : Word := s.mem.readCell (inAddr i)
def State.keyCell (s : State) (i : Nat) : Word := s.mem.readCell (keyAddr i)
def State.outCell (s : State) (i : Nat) : Word := s.mem.readCell (outAddr i)

/-- Writes one cell. -/
def State.writeCell (s : State) (a : Nat) (v : Word) : State :=
  { s with mem := s.mem.store a (a + 4) [v] }

/-- The OUT cells become the cells `ws` followed by zeros (R197, R198). -/
def State.writeOut (s : State) (ws : List Word) : State :=
  { s with mem := s.mem.store Config.outBase (outAddr s.params.outCap) ws }

/-- Every KEY cell and KEY_LEN become 0 (R199). -/
def State.zeroiseKey (s : State) : State :=
  { s with mem := s.mem.store Config.keyBase (keyAddr s.params.keyCap) [], keyLen := 0 }

/-! ### Reset and START -/

/-- `Reset()` of R241: every register and every cell at its reset value. The parameters are constant (R37), and the model's
own fields are no state of the core (log 11). -/
def State.doReset (s : State) : State :=
  { State.reset with
    params := s.params, pending := s.pending, response := s.response, entropy := s.entropy }

/-- An accepted START (R190), the IRQEN bit of the same write apart. -/
def State.acceptStart (s : State) : State :=
  { s with busy := true, done := false, errcode := 0, outLen := 0 }

/-- A host write that the core drops because a command is in progress (R191, R247). -/
def State.dropWrite (s : State) : State := { s with wlost := true }

/-! ### Completion -/

/-- The ERRCODE value of an error kind (spec/30_encoding.md R98). -/
def ErrorKind.code : ErrorKind → Fin 8
  | .unsupportedAlgorithm => 1
  | .invalidKey => 2
  | .keyTooShort => 3
  | .malformedCiphertext => 4
  | .paddingError => 5
  | .encodingError => 6
  | .capacityError => 7

/-- What every completion does, successful or not: the key is zeroed (R199), BUSY becomes 0 and DONE 1 (R192). -/
def State.finish (s : State) : State :=
  { s.zeroiseKey with busy := false, done := true }

/-- A text as cells (R98). -/
def cellsOfText (o : Text) : List Word := o.map (BitVec.ofNat 32)

/-- Successful completion with output text `o` (R197). -/
def State.completeOk (s : State) (o : Text) : State :=
  ({ s.writeOut (cellsOfText o) with outLen := BitVec.ofNat 32 o.length, errcode := 0 }).finish

/-- Completion with an error, the hardware's only trap (R198, R220). There is no return from it: the host clears DONE, or
starts the next command (R222). -/
def State.completeError (s : State) (e : ErrorKind) : State :=
  ({ s.writeOut [] with outLen := 0, errcode := e.code }).finish

/-- `Complete` of R192, given what `Exec` of R193 returned. -/
def State.complete (s : State) : Except ErrorKind Text → State
  | .ok o => s.completeOk o
  | .error e => s.completeError e

/-! ### Entropy, fetch and events -/

/-- `draw_IV(n)` (R127): the next `n` bytes the entropy source has ready, each used once (spec/42_block.md R176), or nothing
when it has fewer ready (R245). -/
def State.drawIv (s : State) (n : Nat) : Option (Bytes × State) :=
  if n ≤ s.entropy.length then some (s.entropy.take n, { s with entropy := s.entropy.drop n }) else none

/-- The command that CMD holds (R94, R193). -/
def State.fetch (s : State) : Except DecodeError Instr := decode s.cmd

/-- The next event of the sequence and the state without it. When no event is left to come it is the core's turn: a command
in progress completes (R192), and an idle core does nothing (R242; log 6, log 19). -/
def State.takeEvent (s : State) : Event × State :=
  match s.pending with
  | [] => (.core, { s with response := .silent })
  | e :: es => (e, { s with pending := es, response := .silent })

/-- The state in which the very next step completes the command word `w`: CMD holds it, its START has been accepted
(R190), and the core's turn comes next (log 8). -/
def State.placeCommand (s : State) (w : Word) : State :=
  { ({ s with cmd := w } : State).acceptStart with pending := .core :: s.pending }

end Sys2Proof.Machine
end

