-- ==== Sys2Proof/Machine/Flags.lean ====
section
/-! DEFINITION. Every flag and status value of the core: STATUS.ERR (spec/10_state.md R30), the words that reads of STATUS,
CTRL and ERRCODE return (R26, R32, R33), the write-1-to-clear rule (R29, R31) and the IRQ line (R43,
spec/60_exceptions.md R224). -/

namespace Sys2Proof.Machine

/-- STATUS.ERR (R30). -/
def State.err (s : State) : Bool := s.errcode != 0

/-- A flag as a number of 32 bits shifted to its bit. -/
def flagAt (b : Bool) (k : Nat) : Word := (BitVec.ofBool b).zeroExtend 32 <<< k

/-- What a read of STATUS returns (R32). -/
def State.statusWord (s : State) : Word :=
  flagAt s.wlost 3 ||| flagAt s.err 2 ||| flagAt s.done 1 ||| flagAt s.busy 0

/-- What a read of CTRL returns (R26). -/
def State.ctrlWord (s : State) : Word := flagAt s.irqen 2

/-- What a read of ERRCODE returns (R33). -/
def State.errcodeWord (s : State) : Word := BitVec.ofNat 32 s.errcode.val

/-- A host write of STATUS: DONE and WLOST are cleared by a 1 in bit 1 and bit 3; nothing else changes (R28 to R32). -/
def State.clearStatus (s : State) (v : Word) : State :=
  { s with done := s.done && !v.getLsbD 1, wlost := s.wlost && !v.getLsbD 3 }

/-- The interrupt output (R43, R224). -/
def State.irq (s : State) : Bool := s.irqen && s.done

end Sys2Proof.Machine
end

