-- ==== Sys2Proof/Machine/Bus.lean ====
section
/-! DEFINITION. Host accesses of the aperture (spec/20_memory.md R60 to R66): the decode of an offset, the value a read
returns and the state a write leaves (spec/10_state.md R22 to R40, spec/43_dispatch.md R190, R191,
spec/70_reset_and_hazards.md R247), and the effect of every event but the core's turn. -/

namespace Sys2Proof.Machine

/-- What an aligned offset of the aperture names (R61 to R63). -/
inductive Target where
  | id
  | ctrl
  | cmd
  | status
  | errcode
  | inLen
  | keyLen
  | outLen
  | inCap
  | keyCap
  | outCap
  | inCell (i : Nat)
  | keyCell (i : Nat)
  | outCell (i : Nat)
  /-- A reserved offset, or a cell at or above its buffer's capacity: RAZ/WI. -/
  | reserved
deriving DecidableEq, Repr

/-- The registers' offsets (R20, R62). -/
def registerAt (off : Nat) : Target :=
  if off = Config.offId then .id
  else if off = Config.offCtrl then .ctrl
  else if off = Config.offCmd then .cmd
  else if off = Config.offStatus then .status
  else if off = Config.offErrcode then .errcode
  else if off = Config.offInLen then .inLen
  else if off = Config.offKeyLen then .keyLen
  else if off = Config.offOutLen then .outLen
  else if off = Config.offInCap then .inCap
  else if off = Config.offKeyCap then .keyCap
  else if off = Config.offOutCap then .outCap
  else .reserved

/-- The address map of R61, for an aligned offset below the aperture's size. -/
def targetAt (p : Params) (off : Nat) : Target :=
  if off < Config.inBase then registerAt off
  else if off < Config.keyBase then
    if (off - Config.inBase) / 4 < p.inCap then .inCell ((off - Config.inBase) / 4) else .reserved
  else if off < Config.outBase then
    if (off - Config.keyBase) / 4 < p.keyCap then .keyCell ((off - Config.keyBase) / 4) else .reserved
  else
    if (off - Config.outBase) / 4 < p.outCap then .outCell ((off - Config.outBase) / 4) else .reserved

/-- The value a read returns (R22 to R40); reads have no side effect (R66). -/
def State.readTarget (s : State) : Target → Word
  | .id => Config.idValue
  | .ctrl => s.ctrlWord
  | .cmd => s.cmd
  | .status => s.statusWord
  | .errcode => s.errcodeWord
  | .inLen => s.inLen
  | .keyLen => s.keyLen
  | .outLen => s.outLen
  | .inCap => BitVec.ofNat 32 s.params.inCap
  | .keyCap => BitVec.ofNat 32 s.params.keyCap
  | .outCap => BitVec.ofNat 32 s.params.outCap
  | .inCell i => s.inCell i
  | .keyCell i => s.keyCell i
  | .outCell i => if s.busy then 0 else s.outCell i
  | .reserved => 0

/-- A host write of CTRL: `HostWriteCTRL` of R190 (R23 to R26, R191). -/
def State.writeCtrl (s : State) (v : Word) : State :=
  if v.getLsbD 1 then s.doReset
  else
    let s1 := { s with irqen := v.getLsbD 2 }
    if v.getLsbD 0 then (if s.busy then s1.dropWrite else s1.acceptStart) else s1

/-- A write that is dropped, with WLOST set, while a command is in progress (R247). -/
def State.unlessBusy (s : State) (f : State → State) : State := if s.busy then s.dropWrite else f s

/-- The state a write leaves (R22 to R40, R247); writes to read-only and reserved targets are ignored (D35). -/
def State.writeTarget (s : State) (v : Word) : Target → State
  | .ctrl => s.writeCtrl v
  | .cmd => s.unlessBusy fun s => { s with cmd := v }
  | .status => s.clearStatus v
  | .inLen => s.unlessBusy fun s => { s with inLen := v }
  | .keyLen => s.unlessBusy fun s => { s with keyLen := v }
  | .inCell i => s.unlessBusy fun s => s.writeCell (inAddr i) v
  | .keyCell i => s.unlessBusy fun s => s.writeCell (keyAddr i) v
  | .id | .errcode | .outLen | .inCap | .keyCap | .outCap | .outCell _ | .reserved => s

/-- Whether a byte address lies in the aperture (R60). -/
def reaches (p : Params) (addr : Nat) : Bool :=
  decide (p.base ≤ addr) && decide (addr < p.base + Config.apertureSize)

/-- Whether the core accepts an access of this size at this offset (R64). -/
def accessAccepted (off size : Nat) : Bool := size == 4 && off % 4 == 0

/-- `HostRead` of R64. -/
def State.hostRead (s : State) (addr size : Nat) : State :=
  if accessAccepted (addr - s.params.base) size then
    { s with response := .data (s.readTarget (targetAt s.params (addr - s.params.base))) }
  else { s with response := .busError }

/-- `HostWrite` of R64. -/
def State.hostWrite (s : State) (addr size : Nat) (v : Word) : State :=
  if accessAccepted (addr - s.params.base) size then
    { s.writeTarget v (targetAt s.params (addr - s.params.base)) with response := .ack }
  else { s with response := .busError }

/-- The effect of an event that is not the core's turn. An access outside the aperture reaches no core (log 10). -/
def State.applyEvent (s : State) : Event → Host.Outcome State Fault Refusal
  | .read addr size =>
    if reaches s.params addr then .next (s.hostRead addr size) else .fault (.outsideAperture addr)
  | .write addr size v =>
    if reaches s.params addr then .next (s.hostWrite addr size v) else .fault (.outsideAperture addr)
  | .hardwareReset => .next s.doReset
  | .entropy bytes => .next { s with entropy := s.entropy ++ bytes }
  | .core => .next s

end Sys2Proof.Machine
end

