-- ==== Sys2Proof/Machine/Codec.lean ====
section
/-! DEFINITION. The codec utilities of spec/40_codec.md: character classes (R111), UTF-8 (R112, R113), base64 (R114 to R116),
the decimal key parser (R117), padding (R120, R121) and CBC mode (R125, R126). -/

namespace Sys2Proof.Machine

/-! ### Character classes (R111) -/

def isUpper (c : CodePoint) : Bool := decide (0x41 ≤ c) && decide (c ≤ 0x5A)
def isLower (c : CodePoint) : Bool := decide (0x61 ≤ c) && decide (c ≤ 0x7A)
def isLetter (c : CodePoint) : Bool := isUpper c || isLower c
def isDigit (c : CodePoint) : Bool := decide (0x30 ≤ c) && decide (c ≤ 0x39)
def isSpace (c : CodePoint) : Bool := c == 0x20 || (decide (0x09 ≤ c) && decide (c ≤ 0x0D))

/-- A surrogate code point, which UTF-8 cannot encode (R112). -/
def isSurrogate (c : CodePoint) : Bool := decide (0xD800 ≤ c) && decide (c ≤ 0xDFFF)

/-! ### UTF-8 (R112, R113) -/

/-- A number below 256 as a byte. -/
def byte (n : Nat) : Byte := BitVec.ofNat 8 n

/-- The UTF-8 bytes of one code point that is no surrogate: the table of R112. -/
def utf8Bytes (c : CodePoint) : Bytes :=
  if c ≤ 0x7F then [byte c]
  else if c ≤ 0x7FF then [byte (0xC0 + c / 0x40), byte (0x80 + c % 0x40)]
  else if c ≤ 0xFFFF then [byte (0xE0 + c / 0x1000), byte (0x80 + c / 0x40 % 0x40), byte (0x80 + c % 0x40)]
  else
    [byte (0xF0 + c / 0x40000), byte (0x80 + c / 0x1000 % 0x40), byte (0x80 + c / 0x40 % 0x40),
      byte (0x80 + c % 0x40)]

/-- `UTF8Encode` (R112). -/
def utf8Encode : Text → Except ErrorKind Bytes
  | [] => .ok []
  | c :: t =>
    if isSurrogate c then .error .encodingError
    else
      match utf8Encode t with
      | .error e => .error e
      | .ok b => .ok (utf8Bytes c ++ b)

/-- A byte in a range of numbers. -/
def byteIn (b : Byte) (lo hi : Nat) : Bool := decide (lo ≤ b.toNat) && decide (b.toNat ≤ hi)

/-- The legal second bytes after a first byte of a three-byte sequence (R113): the range, and no first byte outside. -/
def secondOfThree (b0 b1 : Byte) : Bool :=
  if b0 = 0xE0 then byteIn b1 0xA0 0xBF
  else if b0 = 0xED then byteIn b1 0x80 0x9F
  else byteIn b0 0xE1 0xEF && byteIn b1 0x80 0xBF

/-- The legal second bytes after a first byte of a four-byte sequence (R113). -/
def secondOfFour (b0 b1 : Byte) : Bool :=
  if b0 = 0xF0 then byteIn b1 0x90 0xBF
  else if b0 = 0xF4 then byteIn b1 0x80 0x8F
  else byteIn b0 0xF1 0xF3 && byteIn b1 0x80 0xBF

/-- The low six bits of a continuation byte. -/
def tail6 (b : Byte) : Nat := b.toNat % 0x40

/-- The well-formed sequence at the front of a byte string, as its code point and the bytes after it: the table of R113.
Nothing when the bytes do not begin with one. -/
def utf8First : Bytes → Option (CodePoint × Bytes)
  | [] => none
  | b0 :: r0 =>
    if byteIn b0 0x00 0x7F then some (b0.toNat, r0)
    else
      match r0 with
      | [] => none
      | b1 :: r1 =>
        if byteIn b0 0xC2 0xDF then
          if byteIn b1 0x80 0xBF then some (b0.toNat % 0x20 * 0x40 + tail6 b1, r1) else none
        else
          match r1 with
          | [] => none
          | b2 :: r2 =>
            if byteIn b0 0xE0 0xEF then
              if secondOfThree b0 b1 && byteIn b2 0x80 0xBF then
                some (b0.toNat % 0x10 * 0x1000 + tail6 b1 * 0x40 + tail6 b2, r2)
              else none
            else
              match r2 with
              | [] => none
              | b3 :: r3 =>
                if secondOfFour b0 b1 && byteIn b2 0x80 0xBF && byteIn b3 0x80 0xBF then
                  some (b0.toNat % 0x08 * 0x40000 + tail6 b1 * 0x1000 + tail6 b2 * 0x40 + tail6 b3, r3)
                else none

/-- The loop of `UTF8Decode`: at most `n` sequences off the front. -/
def utf8DecodeUpTo : Nat → Bytes → Except ErrorKind Text
  | _, [] => .ok []
  | 0, _ :: _ => .error .encodingError
  | n + 1, b :: bs =>
    match utf8First (b :: bs) with
    | none => .error .encodingError
    | some (c, rest) =>
      match utf8DecodeUpTo n rest with
      | .error e => .error e
      | .ok t => .ok (c :: t)

/-- `UTF8Decode` (R113): every sequence takes at least one byte, so as many rounds as bytes are enough. -/
def utf8Decode (b : Bytes) : Except ErrorKind Text := utf8DecodeUpTo b.length b

/-! ### Base64 (R114 to R116) -/

/-- `B64[v]` for `v` in 0 to 63 (R114). -/
def b64Char (v : Nat) : CodePoint :=
  if v ≤ 25 then 0x41 + v
  else if v ≤ 51 then 0x61 + (v - 26)
  else if v ≤ 61 then 0x30 + (v - 52)
  else if v = 62 then 0x2B
  else 0x2F

/-- `B64inv(c)`, defined for the 64 alphabet characters (R114). -/
def b64Value (c : CodePoint) : Option Nat :=
  if isUpper c then some (c - 0x41)
  else if isLower c then some (c - 0x61 + 26)
  else if isDigit c then some (c - 0x30 + 52)
  else if c = 0x2B then some 62
  else if c = 0x2F then some 63
  else none

/-- The pad character "=" (R114). -/
def b64Pad : CodePoint := 0x3D

/-- The 24-bit group of three bytes, the first byte highest (R115). -/
def group24 (a b c : Byte) : Nat := a.toNat * 0x10000 + b.toNat * 0x100 + c.toNat

/-- The `j`-th of the four alphabet characters of a 24-bit group (R115). -/
def sextet (v j : Nat) : CodePoint := b64Char (v / 0x40 ^ (3 - j) % 0x40)

/-- `Base64Encode` (R115). -/
def base64Encode : Bytes → Text
  | [] => []
  | [a] => let v := group24 a 0 0; [sextet v 0, sextet v 1, b64Pad, b64Pad]
  | [a, b] => let v := group24 a b 0; [sextet v 0, sextet v 1, sextet v 2, b64Pad]
  | a :: b :: c :: r => let v := group24 a b c; sextet v 0 :: sextet v 1 :: sextet v 2 :: sextet v 3 :: base64Encode r

/-- The values of a group's characters, 0 for the last `np` of the four; nothing when a character that must be in the
alphabet is not (R116). -/
def groupValue (c0 c1 c2 c3 : CodePoint) (np : Nat) : Option Nat :=
  match b64Value c0, b64Value c1, (if np ≤ 1 then b64Value c2 else some 0), (if np = 0 then b64Value c3 else some 0) with
  | some v0, some v1, some v2, some v3 => some (v0 * 0x40000 + v1 * 0x1000 + v2 * 0x40 + v3)
  | _, _, _, _ => none

/-- The three bytes of a 24-bit group (R116). -/
def groupBytes (v : Nat) : Bytes := [byte (v / 0x10000), byte (v / 0x100 % 0x100), byte (v % 0x100)]

/-- How many "=" end a last group (R116). -/
def padCount (c2 c3 : CodePoint) : Nat := if c3 = b64Pad then (if c2 = b64Pad then 2 else 1) else 0

/-- The groups of `Base64Decode`: padding is looked for in the last group only (R116). -/
def base64Groups : Text → Except ErrorKind Bytes
  | [] => .ok []
  | c0 :: c1 :: c2 :: c3 :: rest =>
    let np := if rest.isEmpty then padCount c2 c3 else 0
    match groupValue c0 c1 c2 c3 np with
    | none => .error .malformedCiphertext
    | some v =>
      match base64Groups rest with
      | .error e => .error e
      | .ok bs => .ok ((groupBytes v).take (3 - np) ++ bs)
  | _ => .error .malformedCiphertext

/-- `Base64Decode` (R116). -/
def base64Decode (t : Text) : Except ErrorKind Bytes :=
  if t.length % 4 ≠ 0 then .error .malformedCiphertext else base64Groups t

/-! ### Decimal keys (R117) -/

/-- The decimal number of a digit string. -/
def decimal (ds : Text) : Nat := ds.foldl (fun v c => 10 * v + (c - 0x30)) 0

/-- The text without its sign, and whether the sign was "-" (R117). -/
def splitSign : Text → Bool × Text
  | [] => (false, [])
  | c :: s => if c = 0x2D then (true, s) else if c = 0x2B then (false, s) else (false, c :: s)

/-- `ParseInt` (R117). -/
def parseInt (s : Text) : Except ErrorKind Int :=
  let (neg, body) := splitSign (s.dropWhile isSpace)
  let digits := body.takeWhile isDigit
  if digits.isEmpty then .error .invalidKey
  else if !((body.dropWhile isDigit).dropWhile isSpace).isEmpty then .error .invalidKey
  else .ok (if neg then -(decimal digits : Int) else (decimal digits : Int))

/-! ### Padding (R120, R121) -/

/-- `Pad` (R120). -/
def pad (b : Bytes) (n : Nat) : Bytes :=
  let p := n - b.length % n
  b ++ List.replicate p (byte p)

/-- `Unpad` (R121). -/
def unpad (b : Bytes) (n : Nat) : Except ErrorKind Bytes :=
  if b.length = 0 ∨ b.length % n ≠ 0 then .error .paddingError
  else
    let p := (b.getLastD 0).toNat
    if p < 1 ∨ n < p then .error .paddingError
    else if (b.drop (b.length - p)).all (fun x => x.toNat == p) then .ok (b.take (b.length - p))
    else .error .paddingError

/-! ### CBC mode (R125, R126) -/

/-- Bytewise exclusive or (R125). -/
def xorBytes (x y : Bytes) : Bytes := List.zipWith (· ^^^ ·) x y

/-- A byte string cut into blocks of `n` bytes, `k` of them. -/
def blocks (n : Nat) : Nat → Bytes → List Bytes
  | 0, _ => []
  | k + 1, b => b.take n :: blocks n k (b.drop n)

/-- The blocks of a byte string whose length is a multiple of `n`. -/
def blocksOf (n : Nat) (b : Bytes) : List Bytes := blocks n (b.length / n) b

/-- The loop of `CBCEncrypt`: each block is combined with the previous ciphertext block, then encrypted (R125). -/
def cbcEncryptBlocks (enc : Bytes → Bytes) : Bytes → List Bytes → List Bytes
  | _, [] => []
  | prev, p :: ps => let c := enc (xorBytes p prev); c :: cbcEncryptBlocks enc c ps

/-- The loop of `CBCDecrypt` (R126). -/
def cbcDecryptBlocks (dec : Bytes → Bytes) : Bytes → List Bytes → List Bytes
  | _, [] => []
  | prev, c :: cs => xorBytes (dec c) prev :: cbcDecryptBlocks dec c cs

/-- `CBCEncrypt` under one key, with `|IV| = n` (R125). -/
def cbcEncrypt (enc : Bytes → Bytes) (n : Nat) (iv p : Bytes) : Bytes :=
  (cbcEncryptBlocks enc iv (blocksOf n p)).flatten

/-- `CBCDecrypt` under one key, with `|IV| = n` (R126). -/
def cbcDecrypt (dec : Bytes → Bytes) (n : Nat) (iv c : Bytes) : Bytes :=
  (cbcDecryptBlocks dec iv (blocksOf n c)).flatten

end Sys2Proof.Machine
end

