-- ==== Sys2Proof/Machine/Aes.lean ====
section
/-! DEFINITION. AES-128, BlockCipherA of the reference configuration (spec/40_codec.md R122). The spec names FIPS-197 and
gives the vectors E17 and E18 of spec/95_test_vectors.md; the tables and the rounds come from that standard. PRESUMED
(log 2). The state is the block's sixteen bytes in order, column by column. -/

namespace Sys2Proof.Machine

/-- The rows of SubBytes: row `r` holds the sixteen values for inputs `16 * r` to `16 * r + 15`, the first highest. -/
def sBoxRows : List Nat :=
  [0x637c777bf26b6fc53001672bfed7ab76, 0xca82c97dfa5947f0add4a2af9ca472c0,
   0xb7fd9326363ff7cc34a5e5f171d83115, 0x04c723c31896059a071280e2eb27b275,
   0x09832c1a1b6e5aa0523bd6b329e32f84, 0x53d100ed20fcb15b6acbbe394a4c58cf,
   0xd0efaafb434d338545f9027f503c9fa8, 0x51a3408f929d38f5bcb6da2110fff3d2,
   0xcd0c13ec5f974417c4a77e3d645d1973, 0x60814fdc222a908846eeb814de5e0bdb,
   0xe0323a0a4906245cc2d3ac629195e479, 0xe7c8376d8dd54ea96c56f4ea657aae08,
   0xba78252e1ca6b4c6e8dd741f4bbd8b8a, 0x703eb5664803f60e613557b986c11d9e,
   0xe1f8981169d98e949b1e87e9ce5528df, 0x8ca1890dbfe6426841992d0fb054bb16]

/-- The rows of InvSubBytes. -/
def invSBoxRows : List Nat :=
  [0x52096ad53036a538bf40a39e81f3d7fb, 0x7ce339829b2fff87348e4344c4dee9cb,
   0x547b9432a6c2233dee4c950b42fac34e, 0x082ea16628d924b2765ba2496d8bd125,
   0x72f8f66486689816d4a45ccc5d65b692, 0x6c704850fdedb9da5e154657a78d9d84,
   0x90d8ab008cbcd30af7e45805b8b34506, 0xd02c1e8fca3f0f02c1afbd0301138a6b,
   0x3a9111414f67dcea97f2cfcef0b4e673, 0x96ac7422e7ad3585e2f937e81c75df6e,
   0x47f11a711d29c5896fb7620eaa18be1b, 0xfc563e4bc6d279209adbc0fe78cd5af4,
   0x1fdda8338807c731b11210592780ec5f, 0x60517fa919b54a0d2de57a9f93c99cef,
   0xa0e03b4dae2af5b0c8ebbb3c83539961, 0x172b047eba77d626e169146355210c7d]

/-- Looks a byte up in the rows of a table. -/
def tableByte (rows : List Nat) (x : Byte) : Byte :=
  BitVec.ofNat 8 (rows.getD (x.toNat / 16) 0 >>> (8 * (15 - x.toNat % 16)))

def subByte (x : Byte) : Byte := tableByte sBoxRows x
def invSubByte (x : Byte) : Byte := tableByte invSBoxRows x

/-- The bytes at the listed indices, in the list's order. -/
def pickBytes (idx : List Nat) (s : Bytes) : Bytes := idx.map fun i => s.getD i 0

def shiftRows (s : Bytes) : Bytes := pickBytes [0, 5, 10, 15, 4, 9, 14, 3, 8, 13, 2, 7, 12, 1, 6, 11] s
def invShiftRows (s : Bytes) : Bytes := pickBytes [0, 13, 10, 7, 4, 1, 14, 11, 8, 5, 2, 15, 12, 9, 6, 3] s

/-- Multiplication by x in GF(2^8) with the polynomial of FIPS-197. -/
def xtime (b : Byte) : Byte := (b <<< 1) ^^^ (if b.msb then 0x1b#8 else 0#8)

def mul3 (b : Byte) : Byte := xtime b ^^^ b
def mul9 (b : Byte) : Byte := xtime (xtime (xtime b)) ^^^ b
def mul11 (b : Byte) : Byte := xtime (xtime (xtime b)) ^^^ xtime b ^^^ b
def mul13 (b : Byte) : Byte := xtime (xtime (xtime b)) ^^^ xtime (xtime b) ^^^ b
def mul14 (b : Byte) : Byte := xtime (xtime (xtime b)) ^^^ xtime (xtime b) ^^^ xtime b

/-- MixColumns, column by column. -/
def mixColumns : Bytes → Bytes
  | a :: b :: c :: d :: r =>
    (xtime a ^^^ mul3 b ^^^ c ^^^ d) :: (a ^^^ xtime b ^^^ mul3 c ^^^ d) ::
      (a ^^^ b ^^^ xtime c ^^^ mul3 d) :: (mul3 a ^^^ b ^^^ c ^^^ xtime d) :: mixColumns r
  | _ => []

/-- InvMixColumns, column by column. -/
def invMixColumns : Bytes → Bytes
  | a :: b :: c :: d :: r =>
    (mul14 a ^^^ mul11 b ^^^ mul13 c ^^^ mul9 d) :: (mul9 a ^^^ mul14 b ^^^ mul11 c ^^^ mul13 d) ::
      (mul13 a ^^^ mul9 b ^^^ mul14 c ^^^ mul11 d) :: (mul11 a ^^^ mul13 b ^^^ mul9 c ^^^ mul14 d) :: invMixColumns r
  | _ => []

/-- The round constants. -/
def aesRcons : List Byte := [0x01#8, 0x02#8, 0x04#8, 0x08#8, 0x10#8, 0x20#8, 0x40#8, 0x80#8, 0x1b#8, 0x36#8]

/-- The round key that follows a round key. -/
def nextRoundKey (k : Bytes) (rcon : Byte) : Bytes :=
  let t := xorBytes ((pickBytes [13, 14, 15, 12] k).map subByte) [rcon, 0, 0, 0]
  let w0 := xorBytes (k.take 4) t
  let w1 := xorBytes ((k.drop 4).take 4) w0
  let w2 := xorBytes ((k.drop 8).take 4) w1
  let w3 := xorBytes ((k.drop 12).take 4) w2
  w0 ++ w1 ++ w2 ++ w3

/-- The round keys after the cipher key itself, one for each round constant. -/
def aesRoundKeys : List Byte → Bytes → List Bytes
  | [], _ => []
  | r :: rs, k => let k' := nextRoundKey k r; k' :: aesRoundKeys rs k'

/-- The rounds: all but the last mix the columns. -/
def aesEncRounds : List Bytes → Bytes → Bytes
  | [], s => s
  | [k], s => xorBytes (shiftRows (s.map subByte)) k
  | k :: ks, s => aesEncRounds ks (xorBytes (mixColumns (shiftRows (s.map subByte))) k)

/-- The inverse rounds, the last of them undone first. -/
def aesDecRounds : List Bytes → Bytes → Bytes
  | [], s => s
  | [k], s => (invShiftRows (xorBytes s k)).map invSubByte
  | k :: ks, s => (invShiftRows (invMixColumns (xorBytes (aesDecRounds ks s) k))).map invSubByte

/-- AES-128 encryption of one block. -/
def aesEncrypt (k x : Bytes) : Bytes := aesEncRounds (aesRoundKeys aesRcons k) (xorBytes x k)

/-- AES-128 decryption of one block. -/
def aesDecrypt (k y : Bytes) : Bytes := xorBytes (aesDecRounds (aesRoundKeys aesRcons k) y) k

end Sys2Proof.Machine
end

