-- ==== Sys2Proof/Machine/Operands.lean ====
section
/-! DEFINITION. The operands of a command, `IN[0:IN_LEN]` and `KEY[0:KEY_LEN]` (spec/30_encoding.md R96), the checks of
spec/43_dispatch.md R195 that turn them into texts, the output check R196, and the shared form of a meaning that needs no
IV draw (R193). -/

namespace Sys2Proof.Machine

/-- The cells `IN[0:IN_LEN]` as numbers (R96). -/
def State.inText (s : State) : Text := (List.range s.inLen.toNat).map fun i => (s.inCell i).toNat

/-- The cells `KEY[0:KEY_LEN]` as numbers (R96). -/
def State.keyText (s : State) : Text := (List.range s.keyLen.toNat).map fun i => (s.keyCell i).toNat

/-- The output text `OUT[0:OUT_LEN]` (R36). -/
def State.outText (s : State) : Text := (List.range s.outLen.toNat).map fun i => (s.outCell i).toNat

/-- Every cell is a character (R96). -/
def allCharacters (t : Text) : Bool := t.all fun c => decide (c ≤ maxCodePoint)

/-- R195 (a): the lengths, unsigned, are within the capacities. -/
def State.lengthsFit (s : State) : Bool :=
  decide (s.inLen.toNat ≤ s.params.inCap) && decide (s.keyLen.toNat ≤ s.params.keyCap)

/-- The input and key texts after the checks of R195, in the order of R193; `keyRead` is false for ATBASH, whose key cells
are not checked (D42). -/
def State.operands (s : State) (keyRead : Bool) : Except ErrorKind (Text × Text) :=
  if !s.lengthsFit then .error .capacityError
  else if !allCharacters s.inText then .error .encodingError
  else if keyRead && !allCharacters s.keyText then .error .encodingError
  else .ok (s.inText, s.keyText)

/-- R196: an output longer than OUT_CAP is CapacityError; a body error takes priority over it. -/
def State.limitOutput (s : State) : Except ErrorKind Text → Except ErrorKind Text
  | .error e => .error e
  | .ok o => if s.params.outCap < o.length then .error .capacityError else .ok o

/-- `Exec` of R193 after the decode, for a body that draws no IV. -/
def State.outcome (s : State) (keyRead : Bool) (body : Text → Text → Except ErrorKind Text) : Except ErrorKind Text :=
  match s.operands keyRead with
  | .error e => .error e
  | .ok (t, k) => s.limitOutput (body t k)

/-- The meaning of a command whose body draws no IV: the completion step of R192. -/
def State.runBody (s : State) (keyRead : Bool) (body : Text → Text → Except ErrorKind Text) :
    Host.Outcome State Fault Refusal :=
  .next (s.complete (s.outcome keyRead body))

end Sys2Proof.Machine
end

