-- ==== Sys2Proof/Machine/Sha256.lean ====
section
/-! DEFINITION. SHA-256, the digest of the reference configuration (spec/40_codec.md R119). The spec names FIPS 180-4 and
gives the vector E16 of spec/95_test_vectors.md; the constants and the rounds come from that standard. PRESUMED (log 2). -/

namespace Sys2Proof.Machine

/-- The eight working words of the digest. -/
structure HashState where
  a : Word
  b : Word
  c : Word
  d : Word
  e : Word
  f : Word
  g : Word
  h : Word
deriving DecidableEq, Repr

/-! ### The constants

FIPS 180-4 takes its constants from the roots of the first primes, and so does this text: no table is written out. -/

/-- Whether a number from 2 to 360 is a prime: below 19 * 19 a number that none of the smaller primes divides is one. -/
def isSmallPrime (n : Nat) : Bool := [2, 3, 5, 7, 11, 13, 17].all fun d => n == d || n % d != 0

/-- The first sixty-four primes, 2 to 311. -/
def sha256Primes : List Nat := (List.range' 2 310).filter isSmallPrime

/-- The largest number `r + v` with `v < 2 ^ n` whose `k`-th power is at most `x`, found bit by bit from the highest. -/
def rootBits (k x : Nat) : Nat → Nat → Nat
  | 0, r => r
  | n + 1, r => rootBits k x n (if (r + 2 ^ n) ^ k ≤ x then r + 2 ^ n else r)

/-- The first 32 bits of the fractional part of the `k`-th root of `p`, for a root below 8. -/
def rootFraction (k p : Nat) : Word := BitVec.ofNat 32 (rootBits k (p * 2 ^ (32 * k)) 35 0)

/-- A word of the initial hash value: from the square root of the `i`-th prime. -/
def sha256InitialWord (i : Nat) : Word := rootFraction 2 (sha256Primes.getD i 0)

/-- The initial hash value. -/
def sha256Initial : HashState :=
  { a := sha256InitialWord 0, b := sha256InitialWord 1, c := sha256InitialWord 2, d := sha256InitialWord 3
    e := sha256InitialWord 4, f := sha256InitialWord 5, g := sha256InitialWord 6, h := sha256InitialWord 7 }

/-- The round constants, one for each of the sixty-four rounds: from the cube roots of the primes. -/
def sha256Constants : List Word := sha256Primes.map (rootFraction 3)

/-! ### The rounds -/

def bigSigma0 (x : Word) : Word := x.rotateRight 2 ^^^ x.rotateRight 13 ^^^ x.rotateRight 22
def bigSigma1 (x : Word) : Word := x.rotateRight 6 ^^^ x.rotateRight 11 ^^^ x.rotateRight 25
def smallSigma0 (x : Word) : Word := x.rotateRight 7 ^^^ x.rotateRight 18 ^^^ (x >>> 3)
def smallSigma1 (x : Word) : Word := x.rotateRight 17 ^^^ x.rotateRight 19 ^^^ (x >>> 10)
def chooseBits (x y z : Word) : Word := (x &&& y) ^^^ (~~~x &&& z)
def majorityBits (x y z : Word) : Word := (x &&& y) ^^^ (x &&& z) ^^^ (y &&& z)

/-- One round, with its constant `k` and message word `w`. -/
def sha256Round (s : HashState) (k w : Word) : HashState :=
  let t1 := s.h + bigSigma1 s.e + chooseBits s.e s.f s.g + k + w
  let t2 := bigSigma0 s.a + majorityBits s.a s.b s.c
  ⟨t1 + t2, s.a, s.b, s.c, s.d + t1, s.e, s.f, s.g⟩

/-- The sixteen message words that follow the first of a window of sixteen. -/
def slideWindow (w : List Word) : List Word :=
  w.tail ++ [smallSigma1 (w.getD 14 0) + w.getD 9 0 + smallSigma0 (w.getD 1 0) + w.getD 0 0]

/-- The rounds, one for each constant, over a sliding window of the message schedule. -/
def sha256Rounds : List Word → List Word → HashState → HashState
  | [], _, s => s
  | k :: ks, w, s => sha256Rounds ks (slideWindow w) (sha256Round s k (w.headD 0))

/-- The compression of one block of sixteen words. -/
def sha256Compress (s : HashState) (block : List Word) : HashState :=
  let r := sha256Rounds sha256Constants block s
  ⟨s.a + r.a, s.b + r.b, s.c + r.c, s.d + r.d, s.e + r.e, s.f + r.f, s.g + r.g, s.h + r.h⟩

/-- The bytes of a word, most significant first. -/
def wordBytesBE (w : Word) : Bytes :=
  [w.extractLsb' 24 8, w.extractLsb' 16 8, w.extractLsb' 8 8, w.extractLsb' 0 8]

/-- A byte string, four bytes at a time, as words with the first byte most significant. -/
def wordsBE : Bytes → List Word
  | b0 :: b1 :: b2 :: b3 :: r => (b0 ++ b1 ++ b2 ++ b3) :: wordsBE r
  | _ => []

/-- The padded message: a 1 bit, zeros up to a multiple of 512 bits less 64, the length in bits as 64 bits. -/
def sha256Pad (m : Bytes) : Bytes :=
  m ++ 0x80#8 :: List.replicate ((119 - m.length % 64) % 64) 0#8 ++
    wordBytesBE (BitVec.ofNat 32 (8 * m.length / 2 ^ 32)) ++ wordBytesBE (BitVec.ofNat 32 (8 * m.length))

/-- The compression of `n` blocks in order. -/
def sha256Absorb : Nat → HashState → List Word → HashState
  | 0, s, _ => s
  | n + 1, s, ws => sha256Absorb n (sha256Compress s (ws.take 16)) (ws.drop 16)

/-- SHA-256 of a byte string. -/
def sha256 (m : Bytes) : Bytes :=
  let ws := wordsBE (sha256Pad m)
  let s := sha256Absorb (ws.length / 16) sha256Initial ws
  [s.a, s.b, s.c, s.d, s.e, s.f, s.g, s.h].flatMap wordBytesBE

end Sys2Proof.Machine
end

