-- ==== Sys2Proof/Machine/Tdea.lean ====
section
/-! DEFINITION. Three-key TDEA, BlockCipherB of the reference configuration (spec/40_codec.md R123): encrypt, decrypt,
encrypt under K[0:8], K[8:16], K[16:24]. The spec names it and gives the vector E19 of spec/95_test_vectors.md; the tables of
DES come from its standard. PRESUMED (log 2). Tables count bits from 1, bit 1 the most significant. -/

namespace Sys2Proof.Machine

def desInitial : List Nat :=
  [58, 50, 42, 34, 26, 18, 10, 2, 60, 52, 44, 36, 28, 20, 12, 4, 62, 54, 46, 38, 30, 22, 14, 6, 64, 56, 48, 40, 32, 24, 16, 8,
   57, 49, 41, 33, 25, 17, 9, 1, 59, 51, 43, 35, 27, 19, 11, 3, 61, 53, 45, 37, 29, 21, 13, 5, 63, 55, 47, 39, 31, 23, 15, 7]

def desFinal : List Nat :=
  [40, 8, 48, 16, 56, 24, 64, 32, 39, 7, 47, 15, 55, 23, 63, 31, 38, 6, 46, 14, 54, 22, 62, 30, 37, 5, 45, 13, 53, 21, 61, 29,
   36, 4, 44, 12, 52, 20, 60, 28, 35, 3, 43, 11, 51, 19, 59, 27, 34, 2, 42, 10, 50, 18, 58, 26, 33, 1, 41, 9, 49, 17, 57, 25]

def desExpansion : List Nat :=
  [32, 1, 2, 3, 4, 5, 4, 5, 6, 7, 8, 9, 8, 9, 10, 11, 12, 13, 12, 13, 14, 15, 16, 17,
   16, 17, 18, 19, 20, 21, 20, 21, 22, 23, 24, 25, 24, 25, 26, 27, 28, 29, 28, 29, 30, 31, 32, 1]

def desPermutation : List Nat :=
  [16, 7, 20, 21, 29, 12, 28, 17, 1, 15, 23, 26, 5, 18, 31, 10, 2, 8, 24, 14, 32, 27, 3, 9, 19, 13, 30, 6, 22, 11, 4, 25]

def desKeyChoice1 : List Nat :=
  [57, 49, 41, 33, 25, 17, 9, 1, 58, 50, 42, 34, 26, 18, 10, 2, 59, 51, 43, 35, 27, 19, 11, 3, 60, 52, 44, 36,
   63, 55, 47, 39, 31, 23, 15, 7, 62, 54, 46, 38, 30, 22, 14, 6, 61, 53, 45, 37, 29, 21, 13, 5, 28, 20, 12, 4]

def desKeyChoice2 : List Nat :=
  [14, 17, 11, 24, 1, 5, 3, 28, 15, 6, 21, 10, 23, 19, 12, 4, 26, 8, 16, 7, 27, 20, 13, 2,
   41, 52, 31, 37, 47, 55, 30, 40, 51, 45, 33, 48, 44, 49, 39, 56, 34, 53, 46, 42, 50, 36, 29, 32]

def desRotations : List Nat := [1, 1, 2, 2, 2, 2, 2, 2, 1, 2, 2, 2, 2, 2, 2, 1]

/-- The eight S-boxes, each as four rows of sixteen four-bit values, the value of column 0 highest. -/
def desBoxes : List (List Nat) :=
  [[0xe4d12fb83a6c5907, 0x0f74e2d1a6cb9538, 0x41e8d62bfc973a50, 0xfc8249175b3ea06d],
   [0xf18e6b34972dc05a, 0x3d47f28ec01a69b5, 0x0e7ba4d158c6932f, 0xd8a13f42b67c05e9],
   [0xa09e63f51dc7b428, 0xd709346a285ecbf1, 0xd6498f30b12c5ae7, 0x1ad069874fe3b52c],
   [0x7de3069a1285bc4f, 0xd8b56f03472c1ae9, 0xa690cb7df13e5284, 0x3f06a1d8945bc72e],
   [0x2c417ab6853fd0e9, 0xeb2c47d150fa3986, 0x421bad78f9c5630e, 0xb8c71e2d6f09a453],
   [0xc1af92680d34e75b, 0xaf427c9561de0b38, 0x9ef528c3704a1db6, 0x432c95fabe17608d],
   [0x4b2ef08d3c975a61, 0xd0b7491ae35c2f86, 0x14bdc37eaf680592, 0x6bd814a7950fe23c],
   [0xd2846fb1a93e50c7, 0x1fd8a374c56b0e92, 0x7b419ce206adf358, 0x21e74a8dfc90356b]]

/-- The bits of `x` that a table names, in the table's order, the first most significant. -/
def selectBits {m : Nat} (n : Nat) (table : List Nat) (x : BitVec m) : BitVec n :=
  BitVec.ofNat n (table.foldl (fun a i => 2 * a + (x.getMsbD (i - 1)).toNat) 0)

/-- One S-box on a six-bit number: the outer bits give the row, the inner four the column. -/
def desBox (box : List Nat) (v : Nat) : Nat :=
  (box.getD (v / 32 * 2 + v % 2) 0 >>> (4 * (15 - v / 2 % 16))) % 16

/-- The S-boxes on the six-bit groups of `v`, the first box on the highest group, four bits each appended to `a`. -/
def desBoxesOn : List (List Nat) → Nat → Nat → Nat
  | [], _, a => a
  | b :: bs, v, a => desBoxesOn bs v (16 * a + desBox b (v >>> (6 * bs.length) % 64))

/-- The round function. -/
def desFunction (r : BitVec 32) (k : BitVec 48) : BitVec 32 :=
  selectBits 32 desPermutation (BitVec.ofNat 32 (desBoxesOn desBoxes (selectBits 48 desExpansion r ^^^ k).toNat 0))

/-- The round keys, one for each rotation. -/
def desSchedule : List Nat → BitVec 28 → BitVec 28 → List (BitVec 48)
  | [], _, _ => []
  | n :: ns, c, d =>
    let c' := c.rotateLeft n
    let d' := d.rotateLeft n
    selectBits 48 desKeyChoice2 (c' ++ d') :: desSchedule ns c' d'

/-- The round keys of a 64-bit key; its parity bits are not used. -/
def desRoundKeys (k : BitVec 64) : List (BitVec 48) :=
  let b := selectBits 56 desKeyChoice1 k
  desSchedule desRotations (b.extractLsb' 28 28) (b.extractLsb' 0 28)

/-- The rounds, ending with the halves exchanged. -/
def desRounds : List (BitVec 48) → BitVec 32 → BitVec 32 → BitVec 64
  | [], l, r => r ++ l
  | k :: ks, l, r => desRounds ks r (l ^^^ desFunction r k)

/-- DES with given round keys. -/
def desWith (ks : List (BitVec 48)) (x : BitVec 64) : BitVec 64 :=
  let b := selectBits 64 desInitial x
  selectBits 64 desFinal (desRounds ks (b.extractLsb' 32 32) (b.extractLsb' 0 32))

def desEncrypt (k x : BitVec 64) : BitVec 64 := desWith (desRoundKeys k) x
def desDecrypt (k y : BitVec 64) : BitVec 64 := desWith (desRoundKeys k).reverse y

/-- Eight bytes as 64 bits, the first byte most significant, and back. -/
def bits64 (b : Bytes) : BitVec 64 := BitVec.ofNat 64 (b.foldl (fun a x => 256 * a + x.toNat) 0)
def bytes64 (v : BitVec 64) : Bytes :=
  [v.extractLsb' 56 8, v.extractLsb' 48 8, v.extractLsb' 40 8, v.extractLsb' 32 8,
   v.extractLsb' 24 8, v.extractLsb' 16 8, v.extractLsb' 8 8, v.extractLsb' 0 8]

/-- The three DES keys of a 24-byte key (R123, R124). -/
def tdeaKey1 (k : Bytes) : Bytes := k.take 8
def tdeaKey2 (k : Bytes) : Bytes := (k.drop 8).take 8
def tdeaKey3 (k : Bytes) : Bytes := (k.drop 16).take 8

/-- TDEA encryption of one block (R123). -/
def tdeaEncrypt (k x : Bytes) : Bytes :=
  bytes64 (desEncrypt (bits64 (tdeaKey3 k)) (desDecrypt (bits64 (tdeaKey2 k)) (desEncrypt (bits64 (tdeaKey1 k)) (bits64 x))))

/-- TDEA decryption of one block (R123). -/
def tdeaDecrypt (k y : Bytes) : Bytes :=
  bytes64 (desDecrypt (bits64 (tdeaKey1 k)) (desEncrypt (bits64 (tdeaKey2 k)) (desDecrypt (bits64 (tdeaKey3 k)) (bits64 y))))

end Sys2Proof.Machine
end

