-- ==== Sys2Proof/Machine/Block.lean ====
section
/-! DEFINITION. The block-cipher commands (spec/42_block.md R170 to R174): the digest and the primitives of the
implementation (spec/00_scope.md R8, spec/40_codec.md R118, R119, R122 to R124), the shared bodies and the four meanings. -/

namespace Sys2Proof.Machine

/-! ### The parameters of the implementation -/

/-- `n` bytes as a vector; every use is on a string of `n` bytes (log 16). -/
def vectorOf (n : Nat) (b : Bytes) : Vector Byte n := Vector.ofFn fun i => b.getD i.val 0

/-- `Digest` (R119). -/
def digest : Primitives → Bytes → Bytes
  | .reference, b => sha256 b
  | .platform n, b => (Config.platformDigest n b).1.toList ++ (Config.platformDigest n b).2

/-- `E_A(K, x)` (R122). -/
def encryptA : Primitives → Bytes → Bytes → Bytes
  | .reference, k, x => aesEncrypt k x
  | .platform n, k, x => (Config.platformCipherA n (vectorOf 16 k) (vectorOf 16 x)).toList

/-- `D_A(K, y)` (R122). -/
def decryptA : Primitives → Bytes → Bytes → Bytes
  | .reference, k, y => aesDecrypt k y
  | .platform n, k, y => ((Config.platformCipherA n (vectorOf 16 k)).symm (vectorOf 16 y)).toList

/-- `E_B(K, x)` (R123). -/
def encryptB : Primitives → Bytes → Bytes → Bytes
  | .reference, k, x => tdeaEncrypt k x
  | .platform n, k, x => (Config.platformCipherB n (vectorOf 24 k) (vectorOf 8 x)).toList

/-- `D_B(K, y)` (R123). -/
def decryptB : Primitives → Bytes → Bytes → Bytes
  | .reference, k, y => tdeaDecrypt k y
  | .platform n, k, y => ((Config.platformCipherB n (vectorOf 24 k)).symm (vectorOf 8 y)).toList

/-- A key with the least significant bit of every byte cleared (R124). -/
def clearParity (k : Bytes) : Bytes := k.map fun b => b &&& 0xFE#8

/-- A degenerate 24-byte key: `K1 = K2` or `K2 = K3` apart from the parity bits (R124). -/
def degenerateKey (k : Bytes) : Bool :=
  let c := clearParity k
  tdeaKey1 c == tdeaKey2 c || tdeaKey2 c == tdeaKey3 c

/-- `CheckKeyB` (R124). -/
def checkKeyB (p : Params) (k : Bytes) : Except ErrorKind Unit :=
  if p.rejectDegenerate && degenerateKey k then .error .invalidKey else .ok ()

/-- The instance of the shared shape (R170). -/
structure BlockCipher where
  /-- `B` -/
  blockLen : Nat
  /-- `KL` -/
  keyLen : Nat
  /-- `Digest` -/
  digest : Bytes → Bytes
  /-- `E` -/
  encrypt : Bytes → Bytes → Bytes
  /-- `D` -/
  decrypt : Bytes → Bytes → Bytes
  /-- `CheckKey` -/
  checkKey : Bytes → Except ErrorKind Unit

/-- BlockCipherA (R170). -/
def blockCipherA (p : Params) : BlockCipher :=
  { blockLen := Config.blockLenA, keyLen := Config.keyLenA, digest := digest p.primitives
    encrypt := encryptA p.primitives, decrypt := decryptA p.primitives, checkKey := fun _ => .ok () }

/-- BlockCipherB (R170). -/
def blockCipherB (p : Params) : BlockCipher :=
  { blockLen := Config.blockLenB, keyLen := Config.keyLenB, digest := digest p.primitives
    encrypt := encryptB p.primitives, decrypt := decryptB p.primitives, checkKey := checkKeyB p }

/-! ### The shared bodies (R170) -/

/-- `StretchKey` (R118). -/
def stretchKey (c : BlockCipher) (k : Text) : Except ErrorKind Bytes :=
  match utf8Encode k with
  | .error e => .error e
  | .ok kb => .ok ((c.digest kb).take c.keyLen)

/-- Stretching and the degenerate-key check, in the order of R170. -/
def deriveKey (c : BlockCipher) (k : Text) : Except ErrorKind Bytes :=
  match stretchKey c k with
  | .error e => .error e
  | .ok key =>
    match c.checkKey key with
    | .error e => .error e
    | .ok _ => .ok key

/-- The steps of `BLKENC` before the draw: the key's presence, then the derived key (R170). -/
def blockEncryptKey (c : BlockCipher) (k : Text) : Except ErrorKind Bytes :=
  if k.isEmpty then .error .invalidKey else deriveKey c k

/-- The steps of `BLKENC` after the draw (R170). -/
def blockEncryptText (c : BlockCipher) (key iv : Bytes) (t : Text) : Except ErrorKind Text :=
  match utf8Encode t with
  | .error e => .error e
  | .ok pb => .ok (base64Encode (iv ++ cbcEncrypt (c.encrypt key) c.blockLen iv (pad pb c.blockLen)))

/-- `BLKENC` with the draw `iv` (R170, spec/43_dispatch.md R194). -/
def blockEncrypt (c : BlockCipher) (iv : Bytes) (t k : Text) : Except ErrorKind Text :=
  match blockEncryptKey c k with
  | .error e => .error e
  | .ok key => blockEncryptText c key iv t

/-- The steps of `BLKDEC` after the transport decoding: the decoded bytes `d` under the key text `k` (R170). -/
def blockDecryptBytes (c : BlockCipher) (d : Bytes) (k : Text) : Except ErrorKind Text :=
  if d.length < c.blockLen then .error .malformedCiphertext
  else if (d.length - c.blockLen) % c.blockLen ≠ 0 then .error .malformedCiphertext
  else
    match deriveKey c k with
    | .error e => .error e
    | .ok key =>
      if d.length = c.blockLen then .error .paddingError
      else
        match unpad (cbcDecrypt (c.decrypt key) c.blockLen (d.take c.blockLen) (d.drop c.blockLen)) c.blockLen with
        | .error e => .error e
        | .ok pb => utf8Decode pb

/-- `BLKDEC` (R170). -/
def blockDecrypt (c : BlockCipher) (t k : Text) : Except ErrorKind Text :=
  if k.isEmpty then .error .invalidKey
  else
    match base64Decode t with
    | .error e => .error e
    | .ok d => blockDecryptBytes c d k

/-! ### The meanings -/

/-- The completion of a block encrypt command. The draw is taken after the key checks (R127, R170); while the entropy
source has fewer than `B` bytes ready the completion waits and the command stays in progress
(spec/70_reset_and_hazards.md R245; log 5). -/
def runBlockEncrypt (c : BlockCipher) (s : State) : Host.Outcome State Fault Refusal :=
  match s.operands true with
  | .error e => .next (s.completeError e)
  | .ok (t, k) =>
    match blockEncryptKey c k with
    | .error e => .next (s.completeError e)
    | .ok key =>
      match s.drawIv c.blockLen with
      | none => .next s
      | some (iv, s') => .next (s'.complete (s.limitOutput (blockEncryptText c key iv t)))

/-- BLKA.ENC (R171). -/
def execBlkaEnc (s : State) : Host.Outcome State Fault Refusal :=
  runBlockEncrypt (blockCipherA s.params) s

/-- BLKA.DEC (R172). -/
def execBlkaDec (s : State) : Host.Outcome State Fault Refusal :=
  s.runBody true (blockDecrypt (blockCipherA s.params))

/-- BLKB.ENC (R173). -/
def execBlkbEnc (s : State) : Host.Outcome State Fault Refusal :=
  runBlockEncrypt (blockCipherB s.params) s

/-- BLKB.DEC (R174). -/
def execBlkbDec (s : State) : Host.Outcome State Fault Refusal :=
  s.runBody true (blockDecrypt (blockCipherB s.params))

end Sys2Proof.Machine
end

