-- ==== Sys2Proof/Machine/Classical.lean ====
section
/-! DEFINITION. The classical cipher commands (spec/41_classical.md R140 to R151): shift, Vigenère, one-time pad, Atbash and
rail fence, each as a body from an input text and a key text and a meaning that runs it. -/

namespace Sys2Proof.Machine

/-- `ShiftChar(c, n)` (R140). -/
def shiftChar (c : CodePoint) (n : Nat) : CodePoint :=
  if isLower c then 0x61 + (c - 0x61 + n) % Config.alphabetSize
  else if isUpper c then 0x41 + (c - 0x41 + n) % Config.alphabetSize
  else c

/-! ### Shift (R141, R142) -/

/-- An offset as a shift of 0 to 25: the mathematical remainder (R10). -/
def shiftOf (off : Int) : Nat := (off % (Config.alphabetSize : Int)).toNat

/-- The body of SHIFT.ENC (R141). -/
def shiftEncrypt (t k : Text) : Except ErrorKind Text :=
  match parseInt k with
  | .error e => .error e
  | .ok off => .ok (t.map fun c => shiftChar c (shiftOf off))

/-- The body of SHIFT.DEC (R142). -/
def shiftDecrypt (t k : Text) : Except ErrorKind Text :=
  match parseInt k with
  | .error e => .error e
  | .ok off => .ok (t.map fun c => shiftChar c (shiftOf (-off)))

/-- SHIFT.ENC (R141). -/
def execShiftEnc (s : State) : Host.Outcome State Fault Refusal := s.runBody true shiftEncrypt

/-- SHIFT.DEC (R142). -/
def execShiftDec (s : State) : Host.Outcome State Fault Refusal := s.runBody true shiftDecrypt

/-! ### Vigenère (R143, R144) -/

/-- The shift of a key letter, "a" and "A" giving 0 (R143). -/
def keyShift (c : CodePoint) : Nat := (c ||| 0x20) - 0x61

/-- The shifts of a key text: a non-empty text of letters, else InvalidKey (R143). -/
def vigenereKey (k : Text) : Except ErrorKind (List Nat) :=
  if k.isEmpty then .error .invalidKey
  else if k.all isLetter then .ok (k.map keyShift)
  else .error .invalidKey

/-- Shifts the character at each position `i` by `ks[i mod |ks|]`, whatever the characters before it are
(R143, spec/90_conflicts.md C1). The first character stands at position `i`. -/
def shiftAlong (ks : List Nat) : Nat → Text → Text
  | _, [] => []
  | i, c :: t => shiftChar c (ks.getD (i % ks.length) 0) :: shiftAlong ks (i + 1) t

/-- The body of VIG.ENC (R143). -/
def vigenereEncrypt (t k : Text) : Except ErrorKind Text :=
  match vigenereKey k with
  | .error e => .error e
  | .ok ks => .ok (shiftAlong ks 0 t)

/-- The body of VIG.DEC (R144). -/
def vigenereDecrypt (t k : Text) : Except ErrorKind Text :=
  match vigenereKey k with
  | .error e => .error e
  | .ok ks => .ok (shiftAlong (ks.map fun n => (Config.alphabetSize - n) % Config.alphabetSize) 0 t)

/-- VIG.ENC (R143). -/
def execVigEnc (s : State) : Host.Outcome State Fault Refusal := s.runBody true vigenereEncrypt

/-- VIG.DEC (R144). -/
def execVigDec (s : State) : Host.Outcome State Fault Refusal := s.runBody true vigenereDecrypt

/-! ### One-time pad (R145, R146) -/

/-- The body of OTP.ENC and OTP.DEC (R145, R146). -/
def oneTimePad (t k : Text) : Except ErrorKind Text :=
  if k.isEmpty then .error .invalidKey
  else if k.length < t.length then .error .keyTooShort
  else
    let o := List.zipWith (fun a b => a ^^^ b) t k
    if allCharacters o then .ok o else .error .encodingError

/-- OTP.ENC (R145). -/
def execOtpEnc (s : State) : Host.Outcome State Fault Refusal := s.runBody true oneTimePad

/-- OTP.DEC (R146): the same body. -/
def execOtpDec (s : State) : Host.Outcome State Fault Refusal := s.runBody true oneTimePad

/-! ### Atbash (R147, R148) -/

/-- The map of one character (R147). -/
def atbashChar (c : CodePoint) : CodePoint :=
  if isUpper c then Config.atbashUpper - c
  else if isLower c then Config.atbashLower - c
  else c

/-- The body of ATBASH.ENC and ATBASH.DEC (R147, R148); it does not read the key. -/
def atbash (t _k : Text) : Except ErrorKind Text := .ok (t.map atbashChar)

/-- ATBASH.ENC (R147). Its key cells are not checked (D42). -/
def execAtbashEnc (s : State) : Host.Outcome State Fault Refusal := s.runBody false atbash

/-- ATBASH.DEC (R148): the same body. -/
def execAtbashDec (s : State) : Host.Outcome State Fault Refusal := s.runBody false atbash

/-! ### Rail fence (R149 to R151) -/

/-- `RailRow(i, r)` (R149). -/
def railRow (i r : Nat) : Nat :=
  if r = 1 then 0
  else
    let p := 2 * (r - 1)
    let q := i % p
    if q < r then q else p - q

/-- The rail count of a key text (R150): a decimal integer of at least 1, else InvalidKey. -/
def railCount (k : Text) : Except ErrorKind Nat :=
  match parseInt k with
  | .error e => .error e
  | .ok r => if r < 1 then .error .invalidKey else .ok r.toNat

/-- The positions below `n` on one row, in order. -/
def railPositions (r n row : Nat) : List Nat := (List.range n).filter fun i => railRow i r == row

/-- The positions below `n`, row by row; rows at or above `n` are empty (R150). -/
def railOrder (r n : Nat) : List Nat := (List.range (min r n)).flatMap fun row => railPositions r n row

/-- The text of RAIL.ENC over `r` rails (R150). -/
def railWrite (r : Nat) (t : Text) : Text := (railOrder r t.length).map fun i => t.getD i 0

/-- `start[row]` of R151: how many characters the rows before `row` hold. -/
def railStart (r n row : Nat) : Nat := ((List.range row).map fun ρ => (railPositions r n ρ).length).sum

/-- `used[RailRow(i, r)]` of R151 when position `i` is reached: how many earlier positions lie on its row. -/
def railUsed (r i : Nat) : Nat := (railPositions r i (railRow i r)).length

/-- The text of RAIL.DEC over `r` rails: each position takes the next character of its row's bucket (R151). -/
def railRead (r : Nat) (t : Text) : Text :=
  (List.range t.length).map fun i => t.getD (railStart r t.length (railRow i r) + railUsed r i) 0

/-- The body of RAIL.ENC (R150). -/
def railEncrypt (t k : Text) : Except ErrorKind Text :=
  match railCount k with
  | .error e => .error e
  | .ok r => .ok (railWrite r t)

/-- The body of RAIL.DEC (R151). -/
def railDecrypt (t k : Text) : Except ErrorKind Text :=
  match railCount k with
  | .error e => .error e
  | .ok r => .ok (railRead r t)

/-- RAIL.ENC (R150). -/
def execRailEnc (s : State) : Host.Outcome State Fault Refusal := s.runBody true railEncrypt

/-- RAIL.DEC (R151). -/
def execRailDec (s : State) : Host.Outcome State Fault Refusal := s.runBody true railDecrypt

end Sys2Proof.Machine
end

