-- ==== Sys2Proof/Machine/Dispatch.lean ====
section
/-! DEFINITION. The dispatch of a command to its meaning (spec/43_dispatch.md R194). -/

namespace Sys2Proof.Machine

def exec (i : Instr) (s : State) : Host.Outcome State Fault Refusal :=
  match i with
  | .shiftEnc => Sys2Proof.Machine.execShiftEnc s
  | .shiftDec => Sys2Proof.Machine.execShiftDec s
  | .vigEnc => Sys2Proof.Machine.execVigEnc s
  | .vigDec => Sys2Proof.Machine.execVigDec s
  | .otpEnc => Sys2Proof.Machine.execOtpEnc s
  | .otpDec => Sys2Proof.Machine.execOtpDec s
  | .atbashEnc => Sys2Proof.Machine.execAtbashEnc s
  | .atbashDec => Sys2Proof.Machine.execAtbashDec s
  | .railEnc => Sys2Proof.Machine.execRailEnc s
  | .railDec => Sys2Proof.Machine.execRailDec s
  | .blkaEnc => Sys2Proof.Machine.execBlkaEnc s
  | .blkaDec => Sys2Proof.Machine.execBlkaDec s
  | .blkbEnc => Sys2Proof.Machine.execBlkbEnc s
  | .blkbDec => Sys2Proof.Machine.execBlkbDec s

end Sys2Proof.Machine
end

