-- ==== Sys2Proof/Machine/Step.lean ====
section
/-! DEFINITION. One step of the machine: one event of the sequence of spec/20_memory.md R68, which is a host access, a
reset, a delivery of the entropy source or the core's turn. In its turn the core completes the command in progress
(spec/43_dispatch.md R192, R193), and does nothing when it is idle (spec/70_reset_and_hazards.md R242). -/

namespace Sys2Proof.Machine

/-- The core's turn: while BUSY, the command that CMD holds runs; an invalid command word completes with
UnsupportedAlgorithm and no body runs (R193, R211). -/
def coreTurn (s : State) : Host.Outcome State Fault Refusal :=
  if s.busy then
    match s.fetch with
    | .ok i => exec i s
    | .error _ => .next (s.completeError .unsupportedAlgorithm)
  else .next s

/-- One step. -/
def step (s : State) : Host.Outcome State Fault Refusal :=
  match s.takeEvent with
  | (.core, s') => coreTurn s'
  | (e, s') => s'.applyEvent e

/-- `s` with the instruction `w` of the opcode table where the next step runs it (log 8). -/
def State.withFetchWord (s : State) (nbits w : Nat) : State := s.placeCommand (tableWord nbits w)

end Sys2Proof.Machine
end

