-- ==== Sys2Proof/Safety.lean ====
section
/-! DEFINITION. The terms in which statements speak: what a completion leaves (spec/43_dispatch.md R192, R197 to R199,
spec/60_exceptions.md R220), when a command's operands pass the global checks (R195), the invariant of the machine, and the
spec's prose readings of the ciphers that statements compare the model with. -/

namespace Sys2Proof.Machine

/-! ### Where cells lie -/

/-- The byte offsets of the IN, KEY and OUT cells (R61). -/
abbrev inByte (p : Params) (a : Nat) : Prop := Config.inBase ≤ a ∧ a < inAddr p.inCap
abbrev keyByte (p : Params) (a : Nat) : Prop := Config.keyBase ≤ a ∧ a < keyAddr p.keyCap
abbrev outByte (p : Params) (a : Nat) : Prop := Config.outBase ≤ a ∧ a < outAddr p.outCap

/-! ### Completions -/

/-- What every completion from `s` to `t` does and leaves, whatever its outcome and apart from the entropy that a draw
uses up (R192, R199, R220, R250). -/
structure CompletionFrame (s t : State) : Prop where
  params : t.params = s.params
  irqen : t.irqen = s.irqen
  cmd : t.cmd = s.cmd
  wlost : t.wlost = s.wlost
  inLen : t.inLen = s.inLen
  pending : t.pending = s.pending
  response : t.response = s.response
  busy : t.busy = false
  done : t.done = true
  keyLen : t.keyLen = 0
  key : ∀ i, i < s.params.keyCap → t.keyCell i = 0
  memory : ∀ a, ¬ keyByte s.params a → ¬ outByte s.params a → t.mem.readByte a = s.mem.readByte a

/-- A successful completion with the output text `o` (R197). -/
structure CompletedOk (s t : State) (o : Text) : Prop extends CompletionFrame s t where
  errcode : t.errcode = 0
  outLen : t.outLen.toNat = o.length
  out : ∀ i, i < s.params.outCap → t.outCell i = BitVec.ofNat 32 (o.getD i 0)

/-- A completion with the error kind `e` (R198, R220). -/
structure CompletedErr (s t : State) (e : ErrorKind) : Prop extends CompletionFrame s t where
  errcode : t.errcode = e.code
  outLen : t.outLen = 0
  out : ∀ i, i < s.params.outCap → t.outCell i = 0

/-- `exec` answers a successful completion that draws no IV. -/
def RunsTo (i : Instr) (s : State) (o : Text) : Prop :=
  ∃ t, exec i s = .next t ∧ CompletedOk s t o ∧ t.entropy = s.entropy

/-- `exec` answers a completion with an error, and no IV byte is used up. -/
def FailsWith (i : Instr) (s : State) (e : ErrorKind) : Prop :=
  ∃ t, exec i s = .next t ∧ CompletedErr s t e ∧ t.entropy = s.entropy

/-- `exec` answers a successful completion that draws the next `n` bytes of entropy. -/
def RunsToDrawing (i : Instr) (n : Nat) (s : State) (o : Text) : Prop :=
  ∃ t, exec i s = .next t ∧ CompletedOk s t o ∧ t.entropy = s.entropy.drop n

/-! ### Operands -/

/-- The operands pass the checks of R195; `keyRead` is false for ATBASH (D42). -/
structure OperandsValid (s : State) (keyRead : Bool) : Prop where
  inFits : s.inLen.toNat ≤ s.params.inCap
  keyFits : s.keyLen.toNat ≤ s.params.keyCap
  inChars : ∀ c ∈ s.inText, c ≤ maxCodePoint
  keyChars : keyRead = true → ∀ c ∈ s.keyText, c ≤ maxCodePoint

/-- Whether a command reads its key text: every command but the two of ATBASH (R195). -/
def readsKey (i : Instr) : Bool := i.alg != .atbash

/-- The commands that draw an IV, and how many bytes (R194). -/
def drawLength : Instr → Nat
  | .blkaEnc => 16
  | .blkbEnc => 8
  | _ => 0

/-! ### The invariant -/

/-- What holds of every state that a run from a legal configuration reaches. -/
structure State.Inv (s : State) : Prop where
  /-- The parameters are legal (R8). -/
  legal : s.params.Legal
  /-- The cell memory keeps its canonical form. -/
  memWf : s.mem.wf
  /-- Only cells hold bytes (R63). -/
  memInCells : ∀ p ∈ s.mem, inByte s.params p.1 ∨ keyByte s.params p.1 ∨ outByte s.params p.1
  /-- While a command is in progress DONE, ERRCODE and OUT_LEN are 0 (R190, R246). -/
  busyClean : s.busy = true → s.done = false ∧ s.errcode = 0 ∧ s.outLen = 0
  /-- OUT_LEN is at most OUT_CAP (R36). -/
  outLenFits : s.outLen.toNat ≤ s.params.outCap
  /-- Outside BUSY the OUT cells at and above OUT_LEN hold 0 (R40). -/
  outTail : s.busy = false → ∀ i, s.outLen.toNat ≤ i → i < s.params.outCap → s.outCell i = 0
  /-- Every OUT cell holds a code point (R98). -/
  outChars : ∀ i, i < s.params.outCap → (s.outCell i).toNat ≤ maxCodePoint
  /-- No output after an error (R198). -/
  errEmpty : s.errcode ≠ 0 → s.outLen = 0

/-! ### The ciphers in the spec's prose -/

/-- A letter moved within its own case's alphabet by an integer offset, any other character unchanged: the sentence
quoted in R141. -/
def rotateLetter (off : Int) (c : CodePoint) : CodePoint :=
  if 0x61 ≤ c ∧ c ≤ 0x7A then (0x61 + ((c : Int) - 0x61 + off) % 26).toNat
  else if 0x41 ≤ c ∧ c ≤ 0x5A then (0x41 + ((c : Int) - 0x41 + off) % 26).toNat
  else c

/-- The alphabetic position, 0 to 25, of a letter of either case (R143). -/
def letterPosition (c : CodePoint) : Int := if 0x61 ≤ c then (c : Int) - 0x61 else (c : Int) - 0x41

/-- A letter of either case (R111). -/
abbrev IsLetter (c : CodePoint) : Prop := (0x41 ≤ c ∧ c ≤ 0x5A) ∨ (0x61 ≤ c ∧ c ≤ 0x7A)

/-- One step of the walk over `r` rails, from a row and a direction: the direction reverses upon touching either boundary
row (R149). -/
def zigzagStep (r : Nat) : Nat × Bool → Nat × Bool
  | (row, down) =>
    if down then (if row + 1 < r then (row + 1, true) else (row - 1, false))
    else (if 0 < row then (row - 1, false) else (if 1 < r then (row + 1, true) else (row, true)))

/-- The row of position `i` of the walk, which begins on row 0 going down (R149, R150). -/
def zigzagRow (r : Nat) : Nat → Nat × Bool
  | 0 => (0, true)
  | i + 1 => zigzagStep r (zigzagRow r i)

/-- "Walk the text left to right, writing each character to the current rail; concatenate rails 0..r-1 in order" (R150). -/
def zigzagWrite (r : Nat) (t : Text) : Text :=
  (List.range r).flatMap fun row => (t.zipIdx.filter fun p => (zigzagRow r p.2).1 == row).map fun p => p.1

/-- `ParseInt`'s grammar (R117): spaces, a sign or none, one or more digits, spaces; the value is the number the digits
write in base ten, negated after "-". -/
def ReadsAsInteger (s : Text) (n : Int) : Prop :=
  ∃ before sign digits after : Text, s = before ++ sign ++ digits ++ after ∧
    (∀ c ∈ before, isSpace c = true) ∧ (∀ c ∈ after, isSpace c = true) ∧
    digits ≠ [] ∧ (∀ c ∈ digits, isDigit c = true) ∧
    ((sign = [] ∨ sign = [0x2B]) ∧ n = (Nat.ofDigits 10 (digits.reverse.map (· - 0x30)) : Nat) ∨
      sign = [0x2D] ∧ n = -(Nat.ofDigits 10 (digits.reverse.map (· - 0x30)) : Nat))

/-- The UTF-8 length of a text. -/
def utf8Length (t : Text) : Nat := (t.map fun c => (utf8Bytes c).length).sum

/-- No surrogate stands in a text, so UTF-8 can encode it (R112). -/
abbrev NoSurrogates (t : Text) : Prop := ∀ c ∈ t, isSurrogate c = false

/-- The output length of a block encrypt command whose plaintext has `u` UTF-8 bytes and whose block has `b` (R175). -/
def encryptedLength (b u : Nat) : Nat := 4 * ((b * (u / b + 2) + 2) / 3)

/-- The UTF-8 bytes of a text without surrogates. -/
def utf8Of (t : Text) : Bytes := t.flatMap utf8Bytes

/-- A degenerate 24-byte key in the words of R124: bytes 0 to 7 are bytes 8 to 15, or bytes 8 to 15 are bytes 16 to 23, after
bit 0 of every byte is cleared. -/
abbrev DegenerateBytes (k : Bytes) : Prop :=
  (∀ i, i < 8 → k[i]?.map (· &&& 0xFE#8) = k[i + 8]?.map (· &&& 0xFE#8)) ∨
    ∀ i, i < 8 → k[i + 8]?.map (· &&& 0xFE#8) = k[i + 16]?.map (· &&& 0xFE#8)

/-- Block `j` of a byte string cut into blocks of `n` bytes: `b[j*n : j*n + n]` of R125 and R126. -/
def blockAt (n j : Nat) (b : Bytes) : Bytes := (b.drop (j * n)).take n

/-- The key of a block command passes the steps of R170 that look at it: it has no surrogate, and CheckKeyB (R124) accepts
it where the command has that check. -/
def KeyAccepted (i : Instr) (s : State) : Prop :=
  NoSurrogates s.keyText ∧ (i.alg = .blockB → s.params.rejectDegenerate = true →
    ¬ DegenerateBytes ((digest s.params.primitives (utf8Of s.keyText)).take Config.keyLenB))

/-- The two rows of R170's table as a block decrypt command sees them: the command, `B`, `KL` and `D`. -/
def BlockDecryptRow (p : Params) (i : Instr) (b n : Nat) (dec : Bytes → Bytes → Bytes) : Prop :=
  (i = .blkaDec ∧ b = 16 ∧ n = 16 ∧ dec = decryptA p.primitives) ∨
    (i = .blkbDec ∧ b = 8 ∧ n = 24 ∧ dec = decryptB p.primitives)

/-- What a block decrypt command decrypts the decoded bytes `d` to, before the pad is removed: `P` of `BLKDEC` (R170). -/
def paddedPlaintext (s : State) (b n : Nat) (dec : Bytes → Bytes → Bytes) (d : Bytes) : Bytes :=
  cbcDecrypt (dec ((digest s.params.primitives (utf8Of s.keyText)).take n)) b (d.take b) (d.drop b)

/-- `q` is `b` and a valid pad: `p` bytes of value `p`, with `p` from 1 to the block length (R120, R121). -/
def EndsInPad (n : Nat) (q b : Bytes) : Prop :=
  ∃ p, 1 ≤ p ∧ p ≤ n ∧ q = b ++ List.replicate p (BitVec.ofNat 8 p)

/-- `c` is the alphabet character `B64[v]` (R114). -/
def IsBase64Char (c : CodePoint) (v : Nat) : Prop :=
  (v ≤ 25 ∧ c = 0x41 + v) ∨ (26 ≤ v ∧ v ≤ 51 ∧ c = 0x61 + (v - 26)) ∨ (52 ≤ v ∧ v ≤ 61 ∧ c = 0x30 + (v - 52)) ∨
    (v = 62 ∧ c = 0x2B) ∨ (v = 63 ∧ c = 0x2F)

/-- The strict grammar of R116: a length that is a multiple of 4, alphabet characters of the values `vs`, then `n` of "=", at
most two. -/
def Base64Grammar (t : Text) (vs : List Nat) (n : Nat) : Prop :=
  t.length % 4 = 0 ∧ n ≤ 2 ∧ ∃ body, t = body ++ List.replicate n 0x3D ∧ List.Forall₂ IsBase64Char body vs

end Sys2Proof.Machine
end

