-- ==== Sys2Proof/Certificates/Slice0/Obligations.lean ====
section
/-! DEFINITION. The statements for the provers. Each says which rules of spec/ it formalises; where a clause rests on a choice
of the model, its docstring names the log entry. -/

open Sys2Proof Sys2Proof.Machine

/-! ### Command words -/

/-- The decoder undoes the encoder, on words and on byte strings with anything after them (R90, R93, R94, R65). -/
def Obligations.DecodeUndoesEncode : Prop :=
  ∀ (i : Instr) (rest : Bytes), i.wf = true ∧ decode (encode i) = .ok i ∧
    decodeBytes (encodeBytes i ++ rest) = .ok (i, rest)

/-- The fourteen words of R93 and no other value decode, each to the command of its row. -/
def Obligations.ValidWordsAreExactlyFourteen : Prop :=
  ∀ (w : Word) (i : Instr), decode w = .ok i ↔
    (w, i) ∈ [(0x00000001#32, Instr.shiftEnc), (0x00000011#32, Instr.shiftDec), (0x00000002#32, Instr.vigEnc),
      (0x00000012#32, Instr.vigDec), (0x00000003#32, Instr.otpEnc), (0x00000013#32, Instr.otpDec),
      (0x00000004#32, Instr.atbashEnc), (0x00000014#32, Instr.atbashDec), (0x00000005#32, Instr.railEnc),
      (0x00000015#32, Instr.railDec), (0x00000006#32, Instr.blkaEnc), (0x00000016#32, Instr.blkaDec),
      (0x00000007#32, Instr.blkbEnc), (0x00000017#32, Instr.blkbDec)]

/-- The decoder's two reasons (log 18) divide the invalid words of R94: bits [31:5] first, then ALG. -/
def Obligations.InvalidWordsAreRejectedByName : Prop :=
  ∀ w : Word, (decode w = .error .reservedBits ↔ w.toNat / 32 ≠ 0) ∧
    (decode w = .error .unassignedAlgorithm ↔ w.toNat / 32 = 0 ∧ (w.toNat % 16 = 0 ∨ 8 ≤ w.toNat % 16))

/-- One word of every family, as the opcode table numbers it (R93). -/
def Obligations.SampleWordsDecode : Prop :=
  decodeTableWord 32 0x00000001 = some .shiftEnc ∧ decodeTableWord 32 0x00000012 = some .vigDec ∧
    decodeTableWord 32 0x00000003 = some .otpEnc ∧ decodeTableWord 32 0x00000014 = some .atbashDec ∧
    decodeTableWord 32 0x00000005 = some .railEnc ∧ decodeTableWord 32 0x00000016 = some .blkaDec ∧
    decodeTableWord 32 0x00000007 = some .blkbEnc ∧ decodeTableWord 32 0x00000008 = none ∧
    decodeTableWord 32 0x00000106 = none

/-! ### One step -/

/-- In the core's turn the step is `exec` of the command that CMD holds (R192, R193), and on an idle core it changes nothing
but the model's own fields (R242; that such a turn exists is log 19). An event list that has run out is the core's turn
(log 6). A delivery of the entropy source adds its bytes behind those that are ready and changes nothing else (log 4). -/
def Obligations.StepRunsTheDecodedCommand : Prop :=
  ∀ s : State,
    (∀ i : Instr, s.busy = true → s.pending.headD .core = .core → decode s.cmd = .ok i →
      step s = exec i { s with pending := s.pending.tail, response := .silent }) ∧
    (s.busy = false → s.pending.headD .core = .core →
      step s = .next { s with pending := s.pending.tail, response := .silent }) ∧
    (∀ (b : Bytes) (es : List Event), s.pending = .entropy b :: es →
      step s = .next { s with pending := es, response := .silent, entropy := s.entropy ++ b })

/-- An invalid command word completes with UnsupportedAlgorithm, code 1, and no IV is drawn (R94, R193, R211). -/
def Obligations.InvalidWordIsUnsupportedAlgorithm : Prop :=
  ∀ s : State, s.params.Legal → s.busy = true → s.pending.headD .core = .core →
    (s.cmd.toNat / 32 ≠ 0 ∨ s.cmd.toNat % 16 = 0 ∨ 8 ≤ s.cmd.toNat % 16) →
    ∃ t, step s = .next t ∧
      CompletedErr { s with pending := s.pending.tail, response := .silent } t .unsupportedAlgorithm ∧
      t.errcode = 1 ∧ t.entropy = s.entropy

/-- A step stops only at a host access to an address outside the aperture (log 10), and never for want of a meaning. -/
def Obligations.StepStopsOnlyOutsideTheAperture : Prop :=
  ∀ s : State, (∃ t, step s = .next t) ∨
    ∃ addr size es, step s = .fault (.outsideAperture addr) ∧
      (s.pending = .read addr size :: es ∨ ∃ v, s.pending = .write addr size v :: es) ∧
      (addr < s.params.base ∨ s.params.base + 0x40000 ≤ addr)

/-! ### Completions -/

/-- Every command, in every state of a legal configuration, completes with a text or with an error, or waits for entropy;
a text has only code points and fits OUT (R192, R196 to R199, R220, R245). A wait leaves the state as it was, and only a
command that draws can use up entropy (log 5). -/
def Obligations.EveryCommandCompletesOrWaits : Prop :=
  ∀ (i : Instr) (s : State), s.params.Legal → ∃ t, exec i s = .next t ∧
    ((∃ o : Text, CompletedOk s t o ∧ o.length ≤ s.params.outCap ∧ ∀ c ∈ o, c ≤ maxCodePoint) ∨
      (∃ e, CompletedErr s t e) ∨
      (t = s ∧ drawLength i ≠ 0 ∧ s.entropy.length < drawLength i)) ∧
    (t.entropy = s.entropy ∨ t.entropy = s.entropy.drop (drawLength i))

/-- Every completion writes 0 to every KEY cell and to KEY_LEN in the same step (R199). -/
def Obligations.EveryCompletionZeroesTheKey : Prop :=
  ∀ s t : State, s.params.Legal → s.busy = true → s.pending.headD .core = .core → step s = .next t →
    t.busy = false → t.keyLen = 0 ∧ (∀ i, i < s.params.keyCap → t.keyCell i = 0) ∧ t.done = true

/-- The code of each error kind (R98, R210), and a completion with an error: what it writes and what it leaves unchanged, one
clause for each line of R220. -/
def Obligations.ErrorCompletionWritesOnlyWhatItMust : Prop :=
  (ErrorKind.unsupportedAlgorithm.code = 1 ∧ ErrorKind.invalidKey.code = 2 ∧ ErrorKind.keyTooShort.code = 3 ∧
    ErrorKind.malformedCiphertext.code = 4 ∧ ErrorKind.paddingError.code = 5 ∧ ErrorKind.encodingError.code = 6 ∧
    ErrorKind.capacityError.code = 7) ∧
  ∀ s t : State, s.params.Legal → s.busy = true → s.pending.headD .core = .core → step s = .next t →
    t.busy = false → t.errcode ≠ 0 →
    (∀ i, i < s.params.outCap → t.outCell i = 0) ∧ t.outLen = 0 ∧ (∃ e : ErrorKind, t.errcode = e.code) ∧
    (∀ i, i < s.params.keyCap → t.keyCell i = 0) ∧ t.keyLen = 0 ∧
    t.done = true ∧ t.cmd = s.cmd ∧ t.inLen = s.inLen ∧ (∀ i, i < s.params.inCap → t.inCell i = s.inCell i) ∧
    t.irqen = s.irqen ∧ t.wlost = s.wlost

/-- Two states with the same parameters and command operands complete alike: the same ERRCODE, OUT_LEN and OUT cells. For
BLKA.ENC and BLKB.ENC the two draws, of 16 and 8 bytes, are the same too; for every other command the entropy of the two
states may differ in any way (R192, R201). -/
def Obligations.OutcomeDependsOnlyOnTheOperands : Prop :=
  ∀ (i : Instr) (s s' t t' : State), s.params.Legal → s'.params = s.params → s'.inLen = s.inLen →
    s'.keyLen = s.keyLen → (∀ j, j < s.inLen.toNat → s'.inCell j = s.inCell j) →
    (∀ j, j < s.keyLen.toNat → s'.keyCell j = s.keyCell j) →
    s'.entropy.take (drawLength i) = s.entropy.take (drawLength i) →
    drawLength i ≤ s.entropy.length → exec i s = .next t → exec i s' = .next t' →
    t'.errcode = t.errcode ∧ t'.outLen = t.outLen ∧ ∀ j, j < s.params.outCap → t'.outCell j = t.outCell j

/-! ### Shift -/

/-- SHIFT.ENC rotates every letter by the key's offset; a key that is no integer is InvalidKey (R141). -/
def Obligations.ShiftEncryptRotatesLetters : Prop :=
  ∀ s : State, s.params.Legal → OperandsValid s true →
    (∀ off : Int, ReadsAsInteger s.keyText off → s.inLen.toNat ≤ s.params.outCap →
      RunsTo .shiftEnc s (s.inText.map (rotateLetter off))) ∧
    ((¬ ∃ off, ReadsAsInteger s.keyText off) → FailsWith .shiftEnc s .invalidKey)

/-- SHIFT.DEC rotates every letter by the negated offset (R142). -/
def Obligations.ShiftDecryptRotatesBack : Prop :=
  ∀ s : State, s.params.Legal → OperandsValid s true →
    (∀ off : Int, ReadsAsInteger s.keyText off → s.inLen.toNat ≤ s.params.outCap →
      RunsTo .shiftDec s (s.inText.map (rotateLetter (-off)))) ∧
    ((¬ ∃ off, ReadsAsInteger s.keyText off) → FailsWith .shiftDec s .invalidKey)

/-! ### Vigenère -/

/-- VIG.ENC rotates the letter at position `i` by the alphabetic position of the key letter `i mod |k|` (R143); a key that
is empty or holds a non-letter is InvalidKey. -/
def Obligations.VigenereEncryptUsesPositionalKey : Prop :=
  ∀ s : State, s.params.Legal → OperandsValid s true →
    (s.keyText ≠ [] → (∀ c ∈ s.keyText, IsLetter c) → s.inLen.toNat ≤ s.params.outCap →
      RunsTo .vigEnc s (s.inText.mapIdx fun i c =>
        rotateLetter (letterPosition (s.keyText.getD (i % s.keyText.length) 0)) c)) ∧
    ((s.keyText = [] ∨ ∃ c ∈ s.keyText, ¬ IsLetter c) → FailsWith .vigEnc s .invalidKey)

/-- VIG.DEC subtracts the same shift at the same positions (R144). -/
def Obligations.VigenereDecryptUsesPositionalKey : Prop :=
  ∀ s : State, s.params.Legal → OperandsValid s true →
    (s.keyText ≠ [] → (∀ c ∈ s.keyText, IsLetter c) → s.inLen.toNat ≤ s.params.outCap →
      RunsTo .vigDec s (s.inText.mapIdx fun i c =>
        rotateLetter (-letterPosition (s.keyText.getD (i % s.keyText.length) 0)) c)) ∧
    ((s.keyText = [] ∨ ∃ c ∈ s.keyText, ¬ IsLetter c) → FailsWith .vigDec s .invalidKey)

/-! ### One-time pad -/

/-- OTP.ENC and OTP.DEC: code points XOR key code points, with the three errors in the order of R145 (R145, R146). -/
def Obligations.OneTimePadXorsCodePoints : Prop :=
  ∀ (i : Instr) (s : State), i = .otpEnc ∨ i = .otpDec → s.params.Legal → OperandsValid s true →
    (s.keyText = [] → FailsWith i s .invalidKey) ∧
    (s.keyText ≠ [] → s.keyText.length < s.inText.length → FailsWith i s .keyTooShort) ∧
    (s.keyText ≠ [] → s.inText.length ≤ s.keyText.length →
      ((∃ j, j < s.inText.length ∧ maxCodePoint < s.inText.getD j 0 ^^^ s.keyText.getD j 0) →
        FailsWith i s .encodingError) ∧
      ((∀ j, j < s.inText.length → s.inText.getD j 0 ^^^ s.keyText.getD j 0 ≤ maxCodePoint) →
        s.inText.length ≤ s.params.outCap →
        RunsTo i s (s.inText.mapIdx fun j c => c ^^^ s.keyText.getD j 0)))

/-! ### Atbash -/

/-- ATBASH.ENC and ATBASH.DEC map uppercase `c` to `155 - c` and lowercase `c` to `219 - c`, whatever the key holds
(R147, R148). -/
def Obligations.AtbashReflectsLetters : Prop :=
  ∀ (i : Instr) (s : State), i = .atbashEnc ∨ i = .atbashDec → s.params.Legal → OperandsValid s false →
    s.inLen.toNat ≤ s.params.outCap →
    RunsTo i s (s.inText.map fun c =>
      if 0x41 ≤ c ∧ c ≤ 0x5A then 155 - c else if 0x61 ≤ c ∧ c ≤ 0x7A then 219 - c else c)

/-! ### Rail fence -/

/-- The closed form of the row is the walk that bounces between the boundary rows (R149). -/
def Obligations.RailRowFollowsTheWalk : Prop :=
  ∀ r i : Nat, 1 ≤ r → railRow i r = (zigzagRow r i).1

/-- RAIL.ENC writes the text along the zig-zag and reads the rails in order; a key that is no integer of at least 1 is
InvalidKey (R150). -/
def Obligations.RailEncryptWritesTheZigzag : Prop :=
  ∀ s : State, s.params.Legal → OperandsValid s true →
    (∀ r : Nat, 1 ≤ r → ReadsAsInteger s.keyText r → s.inLen.toNat ≤ s.params.outCap →
      RunsTo .railEnc s (zigzagWrite r s.inText)) ∧
    ((¬ ∃ r : Nat, 1 ≤ r ∧ ReadsAsInteger s.keyText r) → FailsWith .railEnc s .invalidKey)

/-- RAIL.DEC answers the text whose zig-zag is the input; a key that is no integer of at least 1 is InvalidKey (R151). -/
def Obligations.RailDecryptUndoesTheZigzag : Prop :=
  ∀ s : State, s.params.Legal → OperandsValid s true →
    (∀ r : Nat, 1 ≤ r → ReadsAsInteger s.keyText r → s.inLen.toNat ≤ s.params.outCap →
      ∃ o, RunsTo .railDec s o ∧ o.length = s.inText.length ∧ zigzagWrite r o = s.inText) ∧
    ((¬ ∃ r : Nat, 1 ≤ r ∧ ReadsAsInteger s.keyText r) → FailsWith .railDec s .invalidKey)

/-- For every classical pair: if the encrypt command succeeds, the decrypt command on its output, under the same key text
and the same parameters, succeeds with the original text (R152). -/
def Obligations.ClassicalRoundTrip : Prop :=
  ∀ (a : Alg) (s s₁ s₂ : State),
    a ∈ [Alg.shift, Alg.vigenere, Alg.oneTimePad, Alg.atbash, Alg.railFence] → s.params.Legal →
    exec (Instr.of a .enc) s = .next s₁ → s₁.errcode = 0 →
    s₂.params = s.params → s₂.inText = s₁.outText → s₂.keyText = s.keyText → s₂.inLen.toNat ≤ s.params.inCap →
    ∃ s₃, exec (Instr.of a .dec) s₂ = .next s₃ ∧ s₃.errcode = 0 ∧ s₃.outText = s.inText

/-! ### Block ciphers -/

/-- BLKA.ENC: base64 of the drawn IV and the CBC ciphertext of the padded UTF-8 bytes under the stretched key, of the
length R175 gives (R171, R170, R175). The draw is the next 16 bytes of `entropy`, whatever they are. -/
def Obligations.BlockAEncryptCompletes : Prop :=
  ∀ s : State, s.params.Legal → OperandsValid s true → s.keyText ≠ [] → NoSurrogates s.keyText →
    NoSurrogates s.inText → 16 ≤ s.entropy.length → encryptedLength 16 (utf8Length s.inText) ≤ s.params.outCap →
    let key := (digest s.params.primitives (utf8Of s.keyText)).take 16
    let iv := s.entropy.take 16
    let o := base64Encode (iv ++ cbcEncrypt (encryptA s.params.primitives key) 16 iv (pad (utf8Of s.inText) 16))
    RunsToDrawing .blkaEnc 16 s o ∧ o.length = encryptedLength 16 (utf8Length s.inText)

/-- BLKB.ENC, with an 8-byte draw and a 24-byte key that the degenerate-key check accepts (R173, R170, R175, R124). -/
def Obligations.BlockBEncryptCompletes : Prop :=
  ∀ s : State, s.params.Legal → OperandsValid s true → s.keyText ≠ [] → NoSurrogates s.keyText →
    NoSurrogates s.inText → 8 ≤ s.entropy.length → encryptedLength 8 (utf8Length s.inText) ≤ s.params.outCap →
    let key := (digest s.params.primitives (utf8Of s.keyText)).take 24
    (s.params.rejectDegenerate = true → ¬ DegenerateBytes key) →
    let iv := s.entropy.take 8
    let o := base64Encode (iv ++ cbcEncrypt (encryptB s.params.primitives key) 8 iv (pad (utf8Of s.inText) 8))
    RunsToDrawing .blkbEnc 8 s o ∧ o.length = encryptedLength 8 (utf8Length s.inText)

/-- BLKA.DEC of what BLKA.ENC makes of a text `p` under the same key, with any IV, answers `p` (R172, R177). -/
def Obligations.BlockADecryptRecoversThePlaintext : Prop :=
  ∀ (s : State) (iv : Bytes) (p : Text), s.params.Legal → OperandsValid s true → s.keyText ≠ [] →
    NoSurrogates s.keyText → NoSurrogates p → (∀ c ∈ p, c ≤ maxCodePoint) → iv.length = 16 →
    p.length ≤ s.params.outCap →
    let key := (digest s.params.primitives (utf8Of s.keyText)).take 16
    s.inText = base64Encode (iv ++ cbcEncrypt (encryptA s.params.primitives key) 16 iv (pad (utf8Of p) 16)) →
    RunsTo .blkaDec s p

/-- BLKB.DEC of what BLKB.ENC makes of a text `p` under the same accepted key, with any IV, answers `p` (R174, R177). -/
def Obligations.BlockBDecryptRecoversThePlaintext : Prop :=
  ∀ (s : State) (iv : Bytes) (p : Text), s.params.Legal → OperandsValid s true → s.keyText ≠ [] →
    NoSurrogates s.keyText → NoSurrogates p → (∀ c ∈ p, c ≤ maxCodePoint) → iv.length = 8 →
    p.length ≤ s.params.outCap →
    let key := (digest s.params.primitives (utf8Of s.keyText)).take 24
    (s.params.rejectDegenerate = true → ¬ DegenerateBytes key) →
    s.inText = base64Encode (iv ++ cbcEncrypt (encryptB s.params.primitives key) 8 iv (pad (utf8Of p) 8)) →
    RunsTo .blkbDec s p

/-- For every legal choice of the primitives, every IV draw, every text and every passphrase: whatever the encrypt body
answers without error, the decrypt body takes back to the text (R177). -/
def Obligations.BlockRoundTrip : Prop :=
  ∀ (p : Params) (iv : Bytes) (t k o : Text), (∀ c ∈ t, c ≤ maxCodePoint) →
    (iv.length = 16 → blockEncrypt (blockCipherA p) iv t k = .ok o → blockDecrypt (blockCipherA p) o k = .ok t) ∧
    (iv.length = 8 → blockEncrypt (blockCipherB p) iv t k = .ok o → blockDecrypt (blockCipherB p) o k = .ok t)

/-- While the entropy source has fewer bytes ready than the command draws, the completion of a command whose key passes its
checks waits: nothing changes and BUSY stays as it is (R245; that the wait begins only at the draw is log 5). -/
def Obligations.BlockEncryptWaitsForEntropy : Prop :=
  ∀ s : State, OperandsValid s true → s.keyText ≠ [] → NoSurrogates s.keyText →
    (s.entropy.length < 16 → exec .blkaEnc s = .next s) ∧
    ((s.params.rejectDegenerate = true →
        ¬ DegenerateBytes ((digest s.params.primitives (utf8Of s.keyText)).take 24)) →
      s.entropy.length < 8 → exec .blkbEnc s = .next s)

/-- With B_REJECT_DEGENERATE, a stretched key that is degenerate in the words of R124 is InvalidKey (R173, R174): for BLKB.ENC before any draw, and
for BLKB.DEC once the text decodes to an IV and whole blocks; the last clause says the same of the body of BLKB.DEC after the
transport decoding, for any bytes. Said for every digest function `d`: `exec .blkbEnc` is the first clause's
`runBlockEncrypt`, and `exec .blkbDec` the second clause's `runBody`, where `d` is the implementation's `Digest`. R127 and
R170 place the draw after the key check; that BLKB.ENC then completes whatever the entropy source has ready, and uses none
up, is log 5. -/
def Obligations.DegenerateKeyIsRejected : Prop :=
  ∀ (s : State) (d : Bytes → Bytes), s.params.Legal → OperandsValid s true → s.keyText ≠ [] → NoSurrogates s.keyText →
    s.params.rejectDegenerate = true → DegenerateBytes ((d (utf8Of s.keyText)).take 24) →
    (∃ t, runBlockEncrypt { blockCipherB s.params with digest := d } s = .next t ∧ CompletedErr s t .invalidKey ∧
      t.entropy = s.entropy) ∧
    (∀ b : Bytes, base64Decode s.inText = .ok b → 8 ≤ b.length → (b.length - 8) % 8 = 0 →
      ∃ t, s.runBody true (blockDecrypt { blockCipherB s.params with digest := d }) = .next t ∧
        CompletedErr s t .invalidKey ∧ t.entropy = s.entropy) ∧
    ∀ b : Bytes, 8 ≤ b.length → (b.length - 8) % 8 = 0 →
      blockDecryptBytes { blockCipherB s.params with digest := d } b s.keyText = .error .invalidKey

/-- A surrogate in the key text of a block encrypt command is EncodingError before any draw (log 5); one in the plaintext
is EncodingError after the draw, which is used up (log 5): for BLKA.ENC, and for BLKB.ENC with a key that passes the
degenerate-key check (R112, R127, R171, R173, R216). -/
def Obligations.BlockEncryptRefusesSurrogates : Prop :=
  ∀ s : State, s.params.Legal → OperandsValid s true → s.keyText ≠ [] →
    ((∃ c ∈ s.keyText, isSurrogate c = true) →
      FailsWith .blkaEnc s .encodingError ∧ FailsWith .blkbEnc s .encodingError) ∧
    ((∃ c ∈ s.inText, isSurrogate c = true) →
      (KeyAccepted .blkaEnc s → 16 ≤ s.entropy.length →
        ∃ t, exec .blkaEnc s = .next t ∧ CompletedErr s t .encodingError ∧ t.entropy = s.entropy.drop 16) ∧
      (KeyAccepted .blkbEnc s → 8 ≤ s.entropy.length →
        ∃ t, exec .blkbEnc s = .next t ∧ CompletedErr s t .encodingError ∧ t.entropy = s.entropy.drop 8))

/-- BLKA.DEC and BLKB.DEC with a key: text outside the strict grammar of R116, fewer bytes than an IV, or a rest that is no
multiple of the block are MalformedCiphertext, whatever else is wrong with the key (R214). -/
def Obligations.BlockDecryptRefusesMalformedCiphertext : Prop :=
  ∀ (i : Instr) (b : Nat) (s : State), (i, b) = (.blkaDec, 16) ∨ (i, b) = (.blkbDec, 8) → s.params.Legal →
    OperandsValid s true → s.keyText ≠ [] →
    ((¬ ∃ vs n, Base64Grammar s.inText vs n) ∨
      (∃ d, base64Decode s.inText = .ok d ∧ (d.length < b ∨ (d.length - b) % b ≠ 0))) →
    FailsWith i s .malformedCiphertext

/-- BLKA.DEC and BLKB.DEC on a ciphertext that passes the MalformedCiphertext checks: a surrogate in the key text is
EncodingError; with an accepted key, an IV without any ciphertext block is PaddingError, decrypted bytes that do not end in a
valid pad are PaddingError, unpadded bytes that are no UTF-8 are EncodingError, and any other text that fits OUT is the
result (R170, R172, R174, R215, R216). -/
def Obligations.IvAloneIsAPaddingError : Prop :=
  ∀ (i : Instr) (b n : Nat) (dec : Bytes → Bytes → Bytes) (s : State) (d : Bytes), BlockDecryptRow s.params i b n dec →
    s.params.Legal → OperandsValid s true → s.keyText ≠ [] → base64Decode s.inText = .ok d →
    b ≤ d.length → (d.length - b) % b = 0 →
    ((∃ c ∈ s.keyText, isSurrogate c = true) → FailsWith i s .encodingError) ∧
    (KeyAccepted i s →
      (d.length = b → FailsWith i s .paddingError) ∧
      (b < d.length →
        ((¬ ∃ pb, EndsInPad b (paddedPlaintext s b n dec d) pb) → FailsWith i s .paddingError) ∧
        ∀ pb, EndsInPad b (paddedPlaintext s b n dec d) pb →
          ((¬ ∃ t, utf8Decode pb = .ok t) → FailsWith i s .encodingError) ∧
          ∀ t, utf8Decode pb = .ok t → t.length ≤ s.params.outCap → RunsTo i s t))

/-! ### Checks common to the commands -/

/-- A length above its capacity is CapacityError for every command, before any other check (R195, R217, R219). That BLKA.ENC
and BLKB.ENC then complete whatever the entropy source has ready, and use none up, is log 5. -/
def Obligations.OversizeLengthIsCapacityError : Prop :=
  ∀ (i : Instr) (s : State), s.params.Legal →
    (s.params.inCap < s.inLen.toNat ∨ s.params.keyCap < s.keyLen.toNat) → FailsWith i s .capacityError

/-- With lengths that fit, a cell above 0x10FFFF is EncodingError, the key cells of ATBASH apart (R195, R216, R219). That
BLKA.ENC and BLKB.ENC then complete whatever the entropy source has ready, and use none up, is log 5. -/
def Obligations.NonCharacterCellIsEncodingError : Prop :=
  ∀ (i : Instr) (s : State), s.params.Legal → s.inLen.toNat ≤ s.params.inCap → s.keyLen.toNat ≤ s.params.keyCap →
    ((∃ c ∈ s.inText, maxCodePoint < c) ∨ (readsKey i = true ∧ ∃ c ∈ s.keyText, maxCodePoint < c)) →
    FailsWith i s .encodingError

/-- Without a key every command but ATBASH is InvalidKey (R212, R248). That a block encrypt command does not wait for
entropy in this case is log 5. -/
def Obligations.MissingKeyIsInvalidKey : Prop :=
  ∀ (i : Instr) (s : State), s.params.Legal → OperandsValid s true → readsKey i = true → s.keyLen = 0 →
    FailsWith i s .invalidKey

/-- An output longer than OUT_CAP is CapacityError, with no text written, for all fourteen commands (R196, R217). The output
of a classical command is as long as its input. That a block encrypt command has used its draw up is log 5. -/
def Obligations.OversizeOutputIsCapacityError : Prop :=
  ∀ s : State, s.params.Legal →
    (OperandsValid s false → s.params.outCap < s.inLen.toNat →
      FailsWith .atbashEnc s .capacityError ∧ FailsWith .atbashDec s .capacityError) ∧
    (OperandsValid s true → s.params.outCap < s.inLen.toNat →
      ((∃ off, ReadsAsInteger s.keyText off) →
        FailsWith .shiftEnc s .capacityError ∧ FailsWith .shiftDec s .capacityError) ∧
      (s.keyText ≠ [] → (∀ c ∈ s.keyText, IsLetter c) →
        FailsWith .vigEnc s .capacityError ∧ FailsWith .vigDec s .capacityError) ∧
      (s.inText.length ≤ s.keyText.length →
        (∀ j, j < s.inText.length → s.inText.getD j 0 ^^^ s.keyText.getD j 0 ≤ maxCodePoint) →
        FailsWith .otpEnc s .capacityError ∧ FailsWith .otpDec s .capacityError) ∧
      ((∃ r : Nat, 1 ≤ r ∧ ReadsAsInteger s.keyText r) →
        FailsWith .railEnc s .capacityError ∧ FailsWith .railDec s .capacityError)) ∧
    (OperandsValid s true → s.keyText ≠ [] → NoSurrogates s.inText →
      (KeyAccepted .blkaEnc s → 16 ≤ s.entropy.length → s.params.outCap < encryptedLength 16 (utf8Length s.inText) →
        ∃ t, exec .blkaEnc s = .next t ∧ CompletedErr s t .capacityError ∧ t.entropy = s.entropy.drop 16) ∧
      (KeyAccepted .blkbEnc s → 8 ≤ s.entropy.length → s.params.outCap < encryptedLength 8 (utf8Length s.inText) →
        ∃ t, exec .blkbEnc s = .next t ∧ CompletedErr s t .capacityError ∧ t.entropy = s.entropy.drop 8)) ∧
    (OperandsValid s true → s.keyText ≠ [] →
      ∀ (i : Instr) (b n : Nat) (dec : Bytes → Bytes → Bytes) (d pb : Bytes) (t : Text),
        BlockDecryptRow s.params i b n dec → KeyAccepted i s → base64Decode s.inText = .ok d → b < d.length →
        (d.length - b) % b = 0 → EndsInPad b (paddedPlaintext s b n dec d) pb → utf8Decode pb = .ok t →
        s.params.outCap < t.length → FailsWith i s .capacityError)

/-! ### Codec functions -/

/-- `ParseInt` accepts exactly the grammar of R117, with the value it gives, and every other text is InvalidKey. -/
def Obligations.ParseIntAcceptsExactlyTheGrammar : Prop :=
  ∀ s : Text, (∀ n : Int, parseInt s = .ok n ↔ ReadsAsInteger s n) ∧
    ((¬ ∃ n, ReadsAsInteger s n) → parseInt s = .error .invalidKey)

/-- UTF-8: a text without surrogates is encoded as the bytes of its code points in order, and each code point as the table
of R112 says, its bit fields written as quotients and remainders. Strict decoding inverts encoding and accepts nothing else,
and only surrogates cannot be encoded (R112, R113). -/
def Obligations.Utf8DecodeInvertsEncode : Prop :=
  (∀ t : Text, NoSurrogates t → utf8Encode t = .ok (t.flatMap utf8Bytes)) ∧
  (∀ c : CodePoint,
    (c ≤ 0x7F → utf8Bytes c = [BitVec.ofNat 8 c]) ∧
    (0x80 ≤ c → c ≤ 0x7FF →
      utf8Bytes c = [BitVec.ofNat 8 (0xC0 + c / 2 ^ 6 % 2 ^ 5), BitVec.ofNat 8 (0x80 + c % 2 ^ 6)]) ∧
    (0x800 ≤ c → c ≤ 0xFFFF →
      utf8Bytes c = [BitVec.ofNat 8 (0xE0 + c / 2 ^ 12 % 2 ^ 4), BitVec.ofNat 8 (0x80 + c / 2 ^ 6 % 2 ^ 6),
        BitVec.ofNat 8 (0x80 + c % 2 ^ 6)]) ∧
    (0x10000 ≤ c → c ≤ 0x10FFFF →
      utf8Bytes c = [BitVec.ofNat 8 (0xF0 + c / 2 ^ 18 % 2 ^ 3), BitVec.ofNat 8 (0x80 + c / 2 ^ 12 % 2 ^ 6),
        BitVec.ofNat 8 (0x80 + c / 2 ^ 6 % 2 ^ 6), BitVec.ofNat 8 (0x80 + c % 2 ^ 6)])) ∧
  (∀ (t : Text) (b : Bytes), (∀ c ∈ t, c ≤ maxCodePoint) → (utf8Encode t = .ok b ↔ utf8Decode b = .ok t)) ∧
  (∀ (t : Text) (b : Bytes), utf8Decode b = .ok t → ∀ c ∈ t, c ≤ maxCodePoint) ∧
  (∀ t : Text, (∃ c ∈ t, isSurrogate c = true) ↔ utf8Encode t = .error .encodingError)

/-- Base64 decoding inverts encoding, and an encoded text has `4 * ceil(n / 3)` characters of the alphabet or "=" (R115).
Decoding accepts exactly the strict grammar of R116: the decoded bytes, as one number, are the characters' values, as one
number, without the unused low bits, two for each "=", whatever those hold; every other text is MalformedCiphertext. -/
def Obligations.Base64DecodeInvertsEncode : Prop :=
  (∀ b : Bytes, base64Decode (base64Encode b) = .ok b ∧ (base64Encode b).length = 4 * ((b.length + 2) / 3) ∧
    ∀ c ∈ base64Encode b, (∃ v, IsBase64Char c v) ∨ c = 0x3D) ∧
  (∀ (t : Text) (d : Bytes), base64Decode t = .ok d ↔
    ∃ vs n, Base64Grammar t vs n ∧ d.length + n = 3 * (t.length / 4) ∧
      d.foldl (fun a x => 256 * a + x.toNat) 0 = vs.foldl (fun a v => 64 * a + v) 0 / 4 ^ n) ∧
  ∀ t : Text, (¬ ∃ vs n, Base64Grammar t vs n) → base64Decode t = .error .malformedCiphertext

/-- For every block length that fits a byte, `Unpad` inverts `Pad`, and the padded length is a non-zero multiple of the block
(R120). `Unpad` answers `b` exactly for the bytes that are `b` and a valid pad and whose length is a multiple of the block; it
raises PaddingError for no bytes, for another length, for a last byte of 0 or above the block length, and where one of the
last `p` bytes differs from the last byte `p` (R121). -/
def Obligations.UnpadInvertsPad : Prop :=
  (∀ (b : Bytes) (n : Nat), 1 ≤ n → n ≤ 255 → unpad (pad b n) n = .ok b ∧ (pad b n).length % n = 0 ∧
    n ≤ (pad b n).length) ∧
  ∀ (q : Bytes) (n : Nat), 1 ≤ n → n ≤ 255 →
    (∀ b, unpad q n = .ok b ↔ q.length % n = 0 ∧ EndsInPad n q b) ∧
    (unpad q n = .error .paddingError ↔
      q = [] ∨ q.length % n ≠ 0 ∨ (q.getLastD 0).toNat = 0 ∨ n < (q.getLastD 0).toNat ∨
        ∃ j, q.length - (q.getLastD 0).toNat ≤ j ∧ j < q.length ∧ q.getD j 0 ≠ q.getLastD 0)

/-- CBC: each block is combined by bytewise XOR with the previous ciphertext block, the IV for the first, before encryption
(R125) and after decryption (R126), for every block function that keeps the block length; the lengths are kept; and
decryption inverts encryption whenever the block function's inverse does (R126). -/
def Obligations.CbcDecryptInvertsEncrypt : Prop :=
  (∀ (enc : Bytes → Bytes) (n : Nat) (iv p : Bytes), 1 ≤ n → (∀ x, x.length = n → (enc x).length = n) →
    iv.length = n → p.length % n = 0 →
    (cbcEncrypt enc n iv p).length = p.length ∧
    ∀ j, j < p.length / n → blockAt n j (cbcEncrypt enc n iv p) =
      enc (List.zipWith (· ^^^ ·) (blockAt n j p) (if j = 0 then iv else blockAt n (j - 1) (cbcEncrypt enc n iv p)))) ∧
  (∀ (dec : Bytes → Bytes) (n : Nat) (iv c : Bytes), 1 ≤ n → (∀ x, x.length = n → (dec x).length = n) →
    iv.length = n → c.length % n = 0 →
    (cbcDecrypt dec n iv c).length = c.length ∧
    ∀ j, j < c.length / n → blockAt n j (cbcDecrypt dec n iv c) =
      List.zipWith (· ^^^ ·) (dec (blockAt n j c)) (if j = 0 then iv else blockAt n (j - 1) c)) ∧
  ∀ (enc dec : Bytes → Bytes) (n : Nat) (iv p : Bytes), 1 ≤ n →
    (∀ x, x.length = n → dec (enc x) = x ∧ (enc x).length = n) → iv.length = n → p.length % n = 0 →
    cbcDecrypt dec n iv (cbcEncrypt enc n iv p) = p ∧ (cbcEncrypt enc n iv p).length = p.length

/-- BlockCipherA's two functions invert each other on 16-byte blocks, for the reference primitives and for every other
choice (R122). -/
def Obligations.BlockCipherAInverts : Prop :=
  ∀ (p : Primitives) (k x : Bytes), k.length = 16 → x.length = 16 →
    decryptA p k (encryptA p k x) = x ∧ encryptA p k (decryptA p k x) = x ∧ (encryptA p k x).length = 16

/-- BlockCipherB's two functions invert each other on 8-byte blocks (R123). -/
def Obligations.BlockCipherBInverts : Prop :=
  ∀ (p : Primitives) (k x : Bytes), k.length = 24 → x.length = 8 →
    decryptB p k (encryptB p k x) = x ∧ encryptB p k (decryptB p k x) = x ∧ (encryptB p k x).length = 8

/-! ### Host accesses -/

/-- An accepted START (R190): what the write of CTRL changes, and that every OUT cell reads 0 from then on. -/
def Obligations.AcceptedStartEffect : Prop :=
  ∀ (s : State) (v : Word) (es : List Event), s.pending = .write (s.params.base + 0x04) 4 v :: es →
    s.busy = false → v.getLsbD 0 = true → v.getLsbD 1 = false →
    ∃ t, step s = .next t ∧
      t = { s with
        pending := es, response := .ack, irqen := v.getLsbD 2, busy := true, done := false, errcode := 0,
        outLen := 0 } ∧
      ∀ i, t.readTarget (.outCell i) = 0

/-- A START while BUSY is dropped: WLOST becomes 1 and IRQEN takes bit 2 (R191). -/
def Obligations.StartWhileBusyIsDropped : Prop :=
  ∀ (s : State) (v : Word) (es : List Event), s.pending = .write (s.params.base + 0x04) 4 v :: es →
    s.busy = true → v.getLsbD 0 = true → v.getLsbD 1 = false →
    step s = .next { s with pending := es, response := .ack, irqen := v.getLsbD 2, wlost := true }

/-- A soft reset, BUSY or not and whatever the other bits, and a hardware reset: every register and every byte of the
cells at its reset value, the parameters unchanged (R24, R240, R241, R243). -/
def Obligations.ResetSetsEveryState : Prop :=
  ∀ (s t : State) (es : List Event),
    ((∃ v : Word, v.getLsbD 1 = true ∧ s.pending = .write (s.params.base + 0x04) 4 v :: es) ∨
      s.pending = .hardwareReset :: es) → step s = .next t →
    t.irqen = false ∧ t.cmd = 0 ∧ t.busy = false ∧ t.done = false ∧ t.wlost = false ∧ t.errcode = 0 ∧
    t.inLen = 0 ∧ t.keyLen = 0 ∧ t.outLen = 0 ∧ (∀ a, t.mem.readByte a = 0) ∧ t.irq = false ∧
    t.params = s.params

/-- While BUSY, a write to CMD, IN_LEN, KEY_LEN, an IN cell or a KEY cell changes nothing but WLOST (R247). -/
def Obligations.WritesWhileBusyAreDropped : Prop :=
  ∀ (s : State) (off : Nat) (v : Word) (es : List Event), s.params.Legal → s.busy = true →
    s.pending = .write (s.params.base + off) 4 v :: es →
    (off = 0x08 ∨ off = 0x14 ∨ off = 0x18 ∨ (∃ i, i < s.params.inCap ∧ off = 0x10000 + 4 * i) ∨
      (∃ i, i < s.params.keyCap ∧ off = 0x20000 + 4 * i)) →
    step s = .next { s with pending := es, response := .ack, wlost := true }

/-- Outside BUSY, a write to CMD, IN_LEN or KEY_LEN stores all 32 bits and changes nothing else (R27, R34, R35). A write to
CTRL that requests neither START nor reset sets IRQEN to bit 2 and changes nothing else, BUSY or not (R25, R247). -/
def Obligations.RegisterWritesStoreAllBits : Prop :=
  ∀ (s : State) (v : Word) (es : List Event),
    (s.busy = false →
      (s.pending = .write (s.params.base + 0x08) 4 v :: es →
        step s = .next { s with pending := es, response := .ack, cmd := v }) ∧
      (s.pending = .write (s.params.base + 0x14) 4 v :: es →
        step s = .next { s with pending := es, response := .ack, inLen := v }) ∧
      (s.pending = .write (s.params.base + 0x18) 4 v :: es →
        step s = .next { s with pending := es, response := .ack, keyLen := v })) ∧
    (s.pending = .write (s.params.base + 0x04) 4 v :: es → v.getLsbD 0 = false → v.getLsbD 1 = false →
      step s = .next { s with pending := es, response := .ack, irqen := v.getLsbD 2 })

/-- Outside BUSY, a write to an IN or KEY cell stores the value there, leaves every register and every other byte, and
the next read of the cell returns it (R38, R39, R63). -/
def Obligations.CellWriteIsReadBack : Prop :=
  ∀ (s : State) (off : Nat) (v : Word) (es : List Event), s.params.Legal → s.busy = false →
    ((∃ i, i < s.params.inCap ∧ off = 0x10000 + 4 * i) ∨ (∃ i, i < s.params.keyCap ∧ off = 0x20000 + 4 * i)) →
    s.pending = .write (s.params.base + off) 4 v :: .read (s.params.base + off) 4 :: es →
    ∃ t u, step s = .next t ∧
      t = { s with pending := .read (s.params.base + off) 4 :: es, response := .ack, mem := t.mem } ∧
      (∀ a, ¬ (off ≤ a ∧ a < off + 4) → t.mem.readByte a = s.mem.readByte a) ∧
      step t = .next u ∧ u = { t with pending := es, response := .data v }

/-- A write to a read-only register, a reserved offset, a cell at or above its capacity or the OUT window changes nothing,
BUSY or not (R61, R62, R63, R247). -/
def Obligations.IgnoredWritesChangeNothing : Prop :=
  ∀ (s : State) (off : Nat) (v : Word) (es : List Event), s.params.Legal → off % 4 = 0 → off < 0x40000 →
    s.pending = .write (s.params.base + off) 4 v :: es →
    (off = 0x00 ∨ off = 0x10 ∨ (0x1C ≤ off ∧ off < 0x10000) ∨
      (0x10000 + 4 * s.params.inCap ≤ off ∧ off < 0x20000) ∨
      (0x20000 + 4 * s.params.keyCap ≤ off ∧ off < 0x30000) ∨ 0x30000 ≤ off) →
    step s = .next { s with pending := es, response := .ack }

/-- A write of STATUS clears DONE with bit 1 and WLOST with bit 3, and changes nothing else, BUSY or not
(R28 to R32). -/
def Obligations.StatusBitsClearByWritingOne : Prop :=
  ∀ (s : State) (v : Word) (es : List Event), s.pending = .write (s.params.base + 0x0C) 4 v :: es →
    ∃ t, step s = .next t ∧ t = { s with pending := es, response := .ack, done := t.done, wlost := t.wlost } ∧
      (t.done = true ↔ s.done = true ∧ v.getLsbD 1 = false) ∧
      (t.wlost = true ↔ s.wlost = true ∧ v.getLsbD 3 = false)

/-- What an aligned read of each register returns, with the reserved bits 0 (R20, R22, R26, R32, R33 to R37). -/
def Obligations.RegisterReadsReturnTheirFields : Prop :=
  ∀ (s : State) (off : Nat) (es : List Event), s.pending = .read (s.params.base + off) 4 :: es →
    ∀ x : Word,
    (off = 0x00 ∧ x = 0x51434F52#32) ∨
    (off = 0x04 ∧ x = BitVec.ofNat 32 (4 * s.irqen.toNat)) ∨
    (off = 0x08 ∧ x = s.cmd) ∨
    (off = 0x0C ∧ x = BitVec.ofNat 32 (8 * s.wlost.toNat + 4 * (if s.errcode = 0 then 0 else 1) + 2 * s.done.toNat +
      s.busy.toNat)) ∨
    (off = 0x10 ∧ x = BitVec.ofNat 32 s.errcode.val) ∨
    (off = 0x14 ∧ x = s.inLen) ∨ (off = 0x18 ∧ x = s.keyLen) ∨ (off = 0x1C ∧ x = s.outLen) ∨
    (off = 0x20 ∧ x = BitVec.ofNat 32 s.params.inCap) ∨ (off = 0x24 ∧ x = BitVec.ofNat 32 s.params.keyCap) ∨
    (off = 0x28 ∧ x = BitVec.ofNat 32 s.params.outCap) →
    step s = .next { s with pending := es, response := .data x }

/-- An aligned read of a reserved offset or of a cell at or above its capacity returns 0, and so does every OUT cell while
BUSY; outside BUSY an OUT cell returns its stored value (R40, R62, R63, R246). An IN or KEY cell below its capacity returns
its stored value, BUSY or not (R38, R39, R247). -/
def Obligations.WindowReadsFollowTheMap : Prop :=
  ∀ (s : State) (off : Nat) (es : List Event), s.params.Legal → off % 4 = 0 → off < 0x40000 →
    s.pending = .read (s.params.base + off) 4 :: es →
    ((0x2C ≤ off ∧ off < 0x10000) ∨ (0x10000 + 4 * s.params.inCap ≤ off ∧ off < 0x20000) ∨
        (0x20000 + 4 * s.params.keyCap ≤ off ∧ off < 0x30000) ∨ 0x30000 + 4 * s.params.outCap ≤ off ∨
        (0x30000 ≤ off ∧ s.busy = true) →
      step s = .next { s with pending := es, response := .data 0 }) ∧
    (s.busy = false → ∀ i, i < s.params.outCap → off = 0x30000 + 4 * i →
      step s = .next { s with pending := es, response := .data (s.outCell i) }) ∧
    (∀ i, i < s.params.inCap → off = 0x10000 + 4 * i →
      step s = .next { s with pending := es, response := .data (s.inCell i) }) ∧
    (∀ i, i < s.params.keyCap → off = 0x20000 + 4 * i →
      step s = .next { s with pending := es, response := .data (s.keyCell i) })

/-- An access in the aperture of another width, or at an offset that is no multiple of 4, gets BusError and changes no state
of the core (R64, R218). -/
def Obligations.RefusedAccessIsBusError : Prop :=
  ∀ (s : State) (off size : Nat) (v : Word) (es : List Event), off < 0x40000 → (size ≠ 4 ∨ off % 4 ≠ 0) →
    (s.pending = .read (s.params.base + off) size :: es ∨ s.pending = .write (s.params.base + off) size v :: es) →
    step s = .next { s with pending := es, response := .busError }

/-- No read has a side effect (R66). -/
def Obligations.ReadsHaveNoSideEffect : Prop :=
  ∀ (s t : State) (addr size : Nat) (es : List Event), s.pending = .read addr size :: es → step s = .next t →
    t = { s with pending := es, response := t.response }

/-! ### Over many steps -/

/-- While BUSY stays 1, CMD, the lengths and every IN and KEY byte stay as they were (R71, R247). -/
def Obligations.OperandsAreFixedWhileBusy : Prop :=
  ∀ s t : State, s.busy = true → step s = .next t → t.busy = true →
    t.cmd = s.cmd ∧ t.inLen = s.inLen ∧ t.keyLen = s.keyLen ∧ t.mem = s.mem

/-- BUSY ends only in the core's turn, by the completion, or by a reset (R28, R192, R241). -/
def Obligations.BusyEndsByCompletionOrReset : Prop :=
  ∀ s t : State, s.busy = true → step s = .next t → t.busy = false →
    (s.pending.headD .core = .core ∧ t.done = true) ∨ s.pending.head? = some .hardwareReset ∨
      ∃ v : Word, v.getLsbD 1 = true ∧ s.pending.head? = some (.write (s.params.base + 0x04) 4 v)

/-- DONE rises only by a completion, in the core's turn while BUSY; IRQ then equals IRQEN (R29, R224, R251). -/
def Obligations.DoneRisesOnlyByCompletion : Prop :=
  ∀ s t : State, step s = .next t → s.done = false → t.done = true →
    s.busy = true ∧ s.pending.headD .core = .core ∧ t.busy = false ∧ t.irq = s.irqen

/-- Every step keeps the invariant `State.Inv`: legal parameters, canonical cell memory, a consistent result (R36, R37,
R40, R98, R190, R198, R246). -/
def Obligations.StepKeepsTheInvariant : Prop :=
  ∀ s t : State, s.Inv → step s = .next t → t.Inv

/-- The state after reset meets the invariant (R241). It is the reference configuration, with BASE 0 (log 1). -/
def Obligations.ResetMeetsTheInvariant : Prop := State.reset.Inv

/-- The state after reset holds the values of R241: 0 in CTRL, CMD, STATUS, ERRCODE, IN_LEN, KEY_LEN, OUT_LEN and in every
cell, and no IRQ. ID reads its constant (R22), and the capacity registers read the capacities of the reference configuration
(R8, R37), which State.reset has (log 1). -/
def Obligations.ResetStateHasTheStatedValues : Prop :=
  State.reset.irqen = false ∧ State.reset.cmd = 0 ∧ State.reset.busy = false ∧ State.reset.done = false ∧
    State.reset.wlost = false ∧ State.reset.errcode = 0 ∧ State.reset.inLen = 0 ∧ State.reset.keyLen = 0 ∧
    State.reset.outLen = 0 ∧ (∀ a, State.reset.mem.readByte a = 0) ∧ State.reset.irq = false ∧
    State.reset.statusWord = 0 ∧ State.reset.ctrlWord = 0 ∧ State.reset.readTarget .id = 0x51434F52 ∧
    State.reset.readTarget .inCap = 4096 ∧ State.reset.readTarget .keyCap = 1024 ∧
    State.reset.readTarget .outCap = 8192
end

