-- ==== Sys2Proof/Laws/State.lean ====
section
/-! SUPPORT. One lemma per field for each update of the state, true by `rfl`: no proof unfolds an update. -/

namespace Sys2Proof.Machine

/-! ### The reset (R241) -/

@[simp] theorem doReset_params (s : State) : s.doReset.params = s.params := rfl
@[simp] theorem doReset_irqen (s : State) : s.doReset.irqen = false := rfl
@[simp] theorem doReset_cmd (s : State) : s.doReset.cmd = 0 := rfl
@[simp] theorem doReset_busy (s : State) : s.doReset.busy = false := rfl
@[simp] theorem doReset_done (s : State) : s.doReset.done = false := rfl
@[simp] theorem doReset_wlost (s : State) : s.doReset.wlost = false := rfl
@[simp] theorem doReset_errcode (s : State) : s.doReset.errcode = 0 := rfl
@[simp] theorem doReset_inLen (s : State) : s.doReset.inLen = 0 := rfl
@[simp] theorem doReset_keyLen (s : State) : s.doReset.keyLen = 0 := rfl
@[simp] theorem doReset_outLen (s : State) : s.doReset.outLen = 0 := rfl
@[simp] theorem doReset_mem (s : State) : s.doReset.mem = [] := rfl
@[simp] theorem doReset_pending (s : State) : s.doReset.pending = s.pending := rfl
@[simp] theorem doReset_response (s : State) : s.doReset.response = s.response := rfl
@[simp] theorem doReset_entropy (s : State) : s.doReset.entropy = s.entropy := rfl

/-! ### An accepted START (R190) -/

@[simp] theorem acceptStart_params (s : State) : s.acceptStart.params = s.params := rfl
@[simp] theorem acceptStart_irqen (s : State) : s.acceptStart.irqen = s.irqen := rfl
@[simp] theorem acceptStart_cmd (s : State) : s.acceptStart.cmd = s.cmd := rfl
@[simp] theorem acceptStart_busy (s : State) : s.acceptStart.busy = true := rfl
@[simp] theorem acceptStart_done (s : State) : s.acceptStart.done = false := rfl
@[simp] theorem acceptStart_wlost (s : State) : s.acceptStart.wlost = s.wlost := rfl
@[simp] theorem acceptStart_errcode (s : State) : s.acceptStart.errcode = 0 := rfl
@[simp] theorem acceptStart_inLen (s : State) : s.acceptStart.inLen = s.inLen := rfl
@[simp] theorem acceptStart_keyLen (s : State) : s.acceptStart.keyLen = s.keyLen := rfl
@[simp] theorem acceptStart_outLen (s : State) : s.acceptStart.outLen = 0 := rfl
@[simp] theorem acceptStart_mem (s : State) : s.acceptStart.mem = s.mem := rfl
@[simp] theorem acceptStart_pending (s : State) : s.acceptStart.pending = s.pending := rfl
@[simp] theorem acceptStart_response (s : State) : s.acceptStart.response = s.response := rfl
@[simp] theorem acceptStart_entropy (s : State) : s.acceptStart.entropy = s.entropy := rfl

/-! ### A dropped write (R247) -/

@[simp] theorem dropWrite_params (s : State) : s.dropWrite.params = s.params := rfl
@[simp] theorem dropWrite_irqen (s : State) : s.dropWrite.irqen = s.irqen := rfl
@[simp] theorem dropWrite_cmd (s : State) : s.dropWrite.cmd = s.cmd := rfl
@[simp] theorem dropWrite_busy (s : State) : s.dropWrite.busy = s.busy := rfl
@[simp] theorem dropWrite_done (s : State) : s.dropWrite.done = s.done := rfl
@[simp] theorem dropWrite_wlost (s : State) : s.dropWrite.wlost = true := rfl
@[simp] theorem dropWrite_errcode (s : State) : s.dropWrite.errcode = s.errcode := rfl
@[simp] theorem dropWrite_inLen (s : State) : s.dropWrite.inLen = s.inLen := rfl
@[simp] theorem dropWrite_keyLen (s : State) : s.dropWrite.keyLen = s.keyLen := rfl
@[simp] theorem dropWrite_outLen (s : State) : s.dropWrite.outLen = s.outLen := rfl
@[simp] theorem dropWrite_mem (s : State) : s.dropWrite.mem = s.mem := rfl
@[simp] theorem dropWrite_pending (s : State) : s.dropWrite.pending = s.pending := rfl
@[simp] theorem dropWrite_response (s : State) : s.dropWrite.response = s.response := rfl
@[simp] theorem dropWrite_entropy (s : State) : s.dropWrite.entropy = s.entropy := rfl

/-! ### A cell write -/

@[simp] theorem writeCell_params (s : State) (a : Nat) (v : Word) : (s.writeCell a v).params = s.params := rfl
@[simp] theorem writeCell_irqen (s : State) (a : Nat) (v : Word) : (s.writeCell a v).irqen = s.irqen := rfl
@[simp] theorem writeCell_cmd (s : State) (a : Nat) (v : Word) : (s.writeCell a v).cmd = s.cmd := rfl
@[simp] theorem writeCell_busy (s : State) (a : Nat) (v : Word) : (s.writeCell a v).busy = s.busy := rfl
@[simp] theorem writeCell_done (s : State) (a : Nat) (v : Word) : (s.writeCell a v).done = s.done := rfl
@[simp] theorem writeCell_wlost (s : State) (a : Nat) (v : Word) : (s.writeCell a v).wlost = s.wlost := rfl
@[simp] theorem writeCell_errcode (s : State) (a : Nat) (v : Word) : (s.writeCell a v).errcode = s.errcode := rfl
@[simp] theorem writeCell_inLen (s : State) (a : Nat) (v : Word) : (s.writeCell a v).inLen = s.inLen := rfl
@[simp] theorem writeCell_keyLen (s : State) (a : Nat) (v : Word) : (s.writeCell a v).keyLen = s.keyLen := rfl
@[simp] theorem writeCell_outLen (s : State) (a : Nat) (v : Word) : (s.writeCell a v).outLen = s.outLen := rfl
@[simp] theorem writeCell_mem (s : State) (a : Nat) (v : Word) : (s.writeCell a v).mem = s.mem.store a (a + 4) [v] := rfl
@[simp] theorem writeCell_pending (s : State) (a : Nat) (v : Word) : (s.writeCell a v).pending = s.pending := rfl
@[simp] theorem writeCell_response (s : State) (a : Nat) (v : Word) : (s.writeCell a v).response = s.response := rfl
@[simp] theorem writeCell_entropy (s : State) (a : Nat) (v : Word) : (s.writeCell a v).entropy = s.entropy := rfl

/-! ### The write of the OUT cells -/

@[simp] theorem writeOut_params (s : State) (ws : List Word) : (s.writeOut ws).params = s.params := rfl
@[simp] theorem writeOut_irqen (s : State) (ws : List Word) : (s.writeOut ws).irqen = s.irqen := rfl
@[simp] theorem writeOut_cmd (s : State) (ws : List Word) : (s.writeOut ws).cmd = s.cmd := rfl
@[simp] theorem writeOut_busy (s : State) (ws : List Word) : (s.writeOut ws).busy = s.busy := rfl
@[simp] theorem writeOut_done (s : State) (ws : List Word) : (s.writeOut ws).done = s.done := rfl
@[simp] theorem writeOut_wlost (s : State) (ws : List Word) : (s.writeOut ws).wlost = s.wlost := rfl
@[simp] theorem writeOut_errcode (s : State) (ws : List Word) : (s.writeOut ws).errcode = s.errcode := rfl
@[simp] theorem writeOut_inLen (s : State) (ws : List Word) : (s.writeOut ws).inLen = s.inLen := rfl
@[simp] theorem writeOut_keyLen (s : State) (ws : List Word) : (s.writeOut ws).keyLen = s.keyLen := rfl
@[simp] theorem writeOut_outLen (s : State) (ws : List Word) : (s.writeOut ws).outLen = s.outLen := rfl
@[simp] theorem writeOut_mem (s : State) (ws : List Word) : (s.writeOut ws).mem = s.mem.store Config.outBase (outAddr s.params.outCap) ws := rfl
@[simp] theorem writeOut_pending (s : State) (ws : List Word) : (s.writeOut ws).pending = s.pending := rfl
@[simp] theorem writeOut_response (s : State) (ws : List Word) : (s.writeOut ws).response = s.response := rfl
@[simp] theorem writeOut_entropy (s : State) (ws : List Word) : (s.writeOut ws).entropy = s.entropy := rfl

/-! ### The zeroing of the key (R199) -/

@[simp] theorem zeroiseKey_params (s : State) : s.zeroiseKey.params = s.params := rfl
@[simp] theorem zeroiseKey_irqen (s : State) : s.zeroiseKey.irqen = s.irqen := rfl
@[simp] theorem zeroiseKey_cmd (s : State) : s.zeroiseKey.cmd = s.cmd := rfl
@[simp] theorem zeroiseKey_busy (s : State) : s.zeroiseKey.busy = s.busy := rfl
@[simp] theorem zeroiseKey_done (s : State) : s.zeroiseKey.done = s.done := rfl
@[simp] theorem zeroiseKey_wlost (s : State) : s.zeroiseKey.wlost = s.wlost := rfl
@[simp] theorem zeroiseKey_errcode (s : State) : s.zeroiseKey.errcode = s.errcode := rfl
@[simp] theorem zeroiseKey_inLen (s : State) : s.zeroiseKey.inLen = s.inLen := rfl
@[simp] theorem zeroiseKey_keyLen (s : State) : s.zeroiseKey.keyLen = 0 := rfl
@[simp] theorem zeroiseKey_outLen (s : State) : s.zeroiseKey.outLen = s.outLen := rfl
@[simp] theorem zeroiseKey_mem (s : State) : s.zeroiseKey.mem = s.mem.store Config.keyBase (keyAddr s.params.keyCap) [] := rfl
@[simp] theorem zeroiseKey_pending (s : State) : s.zeroiseKey.pending = s.pending := rfl
@[simp] theorem zeroiseKey_response (s : State) : s.zeroiseKey.response = s.response := rfl
@[simp] theorem zeroiseKey_entropy (s : State) : s.zeroiseKey.entropy = s.entropy := rfl

/-! ### What every completion does (R192) -/

@[simp] theorem finish_params (s : State) : s.finish.params = s.params := rfl
@[simp] theorem finish_irqen (s : State) : s.finish.irqen = s.irqen := rfl
@[simp] theorem finish_cmd (s : State) : s.finish.cmd = s.cmd := rfl
@[simp] theorem finish_busy (s : State) : s.finish.busy = false := rfl
@[simp] theorem finish_done (s : State) : s.finish.done = true := rfl
@[simp] theorem finish_wlost (s : State) : s.finish.wlost = s.wlost := rfl
@[simp] theorem finish_errcode (s : State) : s.finish.errcode = s.errcode := rfl
@[simp] theorem finish_inLen (s : State) : s.finish.inLen = s.inLen := rfl
@[simp] theorem finish_keyLen (s : State) : s.finish.keyLen = 0 := rfl
@[simp] theorem finish_outLen (s : State) : s.finish.outLen = s.outLen := rfl
@[simp] theorem finish_mem (s : State) : s.finish.mem = s.mem.store Config.keyBase (keyAddr s.params.keyCap) [] := rfl
@[simp] theorem finish_pending (s : State) : s.finish.pending = s.pending := rfl
@[simp] theorem finish_response (s : State) : s.finish.response = s.response := rfl
@[simp] theorem finish_entropy (s : State) : s.finish.entropy = s.entropy := rfl

/-! ### A successful completion (R197) -/

@[simp] theorem completeOk_params (s : State) (o : Text) : (s.completeOk o).params = s.params := rfl
@[simp] theorem completeOk_irqen (s : State) (o : Text) : (s.completeOk o).irqen = s.irqen := rfl
@[simp] theorem completeOk_cmd (s : State) (o : Text) : (s.completeOk o).cmd = s.cmd := rfl
@[simp] theorem completeOk_busy (s : State) (o : Text) : (s.completeOk o).busy = false := rfl
@[simp] theorem completeOk_done (s : State) (o : Text) : (s.completeOk o).done = true := rfl
@[simp] theorem completeOk_wlost (s : State) (o : Text) : (s.completeOk o).wlost = s.wlost := rfl
@[simp] theorem completeOk_errcode (s : State) (o : Text) : (s.completeOk o).errcode = 0 := rfl
@[simp] theorem completeOk_inLen (s : State) (o : Text) : (s.completeOk o).inLen = s.inLen := rfl
@[simp] theorem completeOk_keyLen (s : State) (o : Text) : (s.completeOk o).keyLen = 0 := rfl
@[simp] theorem completeOk_outLen (s : State) (o : Text) : (s.completeOk o).outLen = BitVec.ofNat 32 o.length := rfl
@[simp] theorem completeOk_mem (s : State) (o : Text) : (s.completeOk o).mem = (s.mem.store Config.outBase (outAddr s.params.outCap) (cellsOfText o)).store Config.keyBase (keyAddr s.params.keyCap) [] := rfl
@[simp] theorem completeOk_pending (s : State) (o : Text) : (s.completeOk o).pending = s.pending := rfl
@[simp] theorem completeOk_response (s : State) (o : Text) : (s.completeOk o).response = s.response := rfl
@[simp] theorem completeOk_entropy (s : State) (o : Text) : (s.completeOk o).entropy = s.entropy := rfl

/-! ### A completion with an error (R198, R220) -/

@[simp] theorem completeError_params (s : State) (e : ErrorKind) : (s.completeError e).params = s.params := rfl
@[simp] theorem completeError_irqen (s : State) (e : ErrorKind) : (s.completeError e).irqen = s.irqen := rfl
@[simp] theorem completeError_cmd (s : State) (e : ErrorKind) : (s.completeError e).cmd = s.cmd := rfl
@[simp] theorem completeError_busy (s : State) (e : ErrorKind) : (s.completeError e).busy = false := rfl
@[simp] theorem completeError_done (s : State) (e : ErrorKind) : (s.completeError e).done = true := rfl
@[simp] theorem completeError_wlost (s : State) (e : ErrorKind) : (s.completeError e).wlost = s.wlost := rfl
@[simp] theorem completeError_errcode (s : State) (e : ErrorKind) : (s.completeError e).errcode = e.code := rfl
@[simp] theorem completeError_inLen (s : State) (e : ErrorKind) : (s.completeError e).inLen = s.inLen := rfl
@[simp] theorem completeError_keyLen (s : State) (e : ErrorKind) : (s.completeError e).keyLen = 0 := rfl
@[simp] theorem completeError_outLen (s : State) (e : ErrorKind) : (s.completeError e).outLen = 0 := rfl
@[simp] theorem completeError_mem (s : State) (e : ErrorKind) : (s.completeError e).mem = (s.mem.store Config.outBase (outAddr s.params.outCap) []).store Config.keyBase (keyAddr s.params.keyCap) [] := rfl
@[simp] theorem completeError_pending (s : State) (e : ErrorKind) : (s.completeError e).pending = s.pending := rfl
@[simp] theorem completeError_response (s : State) (e : ErrorKind) : (s.completeError e).response = s.response := rfl
@[simp] theorem completeError_entropy (s : State) (e : ErrorKind) : (s.completeError e).entropy = s.entropy := rfl

/-! ### A write of STATUS (R29, R31) -/

@[simp] theorem clearStatus_params (s : State) (v : Word) : (s.clearStatus v).params = s.params := rfl
@[simp] theorem clearStatus_irqen (s : State) (v : Word) : (s.clearStatus v).irqen = s.irqen := rfl
@[simp] theorem clearStatus_cmd (s : State) (v : Word) : (s.clearStatus v).cmd = s.cmd := rfl
@[simp] theorem clearStatus_busy (s : State) (v : Word) : (s.clearStatus v).busy = s.busy := rfl
@[simp] theorem clearStatus_done (s : State) (v : Word) : (s.clearStatus v).done = (s.done && !v.getLsbD 1) := rfl
@[simp] theorem clearStatus_wlost (s : State) (v : Word) : (s.clearStatus v).wlost = (s.wlost && !v.getLsbD 3) := rfl
@[simp] theorem clearStatus_errcode (s : State) (v : Word) : (s.clearStatus v).errcode = s.errcode := rfl
@[simp] theorem clearStatus_inLen (s : State) (v : Word) : (s.clearStatus v).inLen = s.inLen := rfl
@[simp] theorem clearStatus_keyLen (s : State) (v : Word) : (s.clearStatus v).keyLen = s.keyLen := rfl
@[simp] theorem clearStatus_outLen (s : State) (v : Word) : (s.clearStatus v).outLen = s.outLen := rfl
@[simp] theorem clearStatus_mem (s : State) (v : Word) : (s.clearStatus v).mem = s.mem := rfl
@[simp] theorem clearStatus_pending (s : State) (v : Word) : (s.clearStatus v).pending = s.pending := rfl
@[simp] theorem clearStatus_response (s : State) (v : Word) : (s.clearStatus v).response = s.response := rfl
@[simp] theorem clearStatus_entropy (s : State) (v : Word) : (s.clearStatus v).entropy = s.entropy := rfl

/-! ### The placing of a command -/

@[simp] theorem placeCommand_params (s : State) (w : Word) : (s.placeCommand w).params = s.params := rfl
@[simp] theorem placeCommand_irqen (s : State) (w : Word) : (s.placeCommand w).irqen = s.irqen := rfl
@[simp] theorem placeCommand_cmd (s : State) (w : Word) : (s.placeCommand w).cmd = w := rfl
@[simp] theorem placeCommand_busy (s : State) (w : Word) : (s.placeCommand w).busy = true := rfl
@[simp] theorem placeCommand_done (s : State) (w : Word) : (s.placeCommand w).done = false := rfl
@[simp] theorem placeCommand_wlost (s : State) (w : Word) : (s.placeCommand w).wlost = s.wlost := rfl
@[simp] theorem placeCommand_errcode (s : State) (w : Word) : (s.placeCommand w).errcode = 0 := rfl
@[simp] theorem placeCommand_inLen (s : State) (w : Word) : (s.placeCommand w).inLen = s.inLen := rfl
@[simp] theorem placeCommand_keyLen (s : State) (w : Word) : (s.placeCommand w).keyLen = s.keyLen := rfl
@[simp] theorem placeCommand_outLen (s : State) (w : Word) : (s.placeCommand w).outLen = 0 := rfl
@[simp] theorem placeCommand_mem (s : State) (w : Word) : (s.placeCommand w).mem = s.mem := rfl
@[simp] theorem placeCommand_pending (s : State) (w : Word) : (s.placeCommand w).pending = .core :: s.pending := rfl
@[simp] theorem placeCommand_response (s : State) (w : Word) : (s.placeCommand w).response = s.response := rfl
@[simp] theorem placeCommand_entropy (s : State) (w : Word) : (s.placeCommand w).entropy = s.entropy := rfl

/-! ### Completions by outcome -/

@[simp] theorem complete_ok (s : State) (o : Text) : s.complete (.ok o) = s.completeOk o := rfl
@[simp] theorem complete_error (s : State) (e : ErrorKind) : s.complete (.error e) = s.completeError e := rfl

@[simp] theorem complete_params (s : State) (r : Except ErrorKind Text) : (s.complete r).params = s.params := by cases r <;> rfl
@[simp] theorem complete_irqen (s : State) (r : Except ErrorKind Text) : (s.complete r).irqen = s.irqen := by cases r <;> rfl
@[simp] theorem complete_cmd (s : State) (r : Except ErrorKind Text) : (s.complete r).cmd = s.cmd := by cases r <;> rfl
@[simp] theorem complete_wlost (s : State) (r : Except ErrorKind Text) : (s.complete r).wlost = s.wlost := by cases r <;> rfl
@[simp] theorem complete_inLen (s : State) (r : Except ErrorKind Text) : (s.complete r).inLen = s.inLen := by cases r <;> rfl
@[simp] theorem complete_pending (s : State) (r : Except ErrorKind Text) : (s.complete r).pending = s.pending := by cases r <;> rfl
@[simp] theorem complete_response (s : State) (r : Except ErrorKind Text) : (s.complete r).response = s.response := by cases r <;> rfl
@[simp] theorem complete_entropy (s : State) (r : Except ErrorKind Text) : (s.complete r).entropy = s.entropy := by cases r <;> rfl
@[simp] theorem complete_busy (s : State) (r : Except ErrorKind Text) : (s.complete r).busy = false := by cases r <;> rfl
@[simp] theorem complete_done (s : State) (r : Except ErrorKind Text) : (s.complete r).done = true := by cases r <;> rfl
@[simp] theorem complete_keyLen (s : State) (r : Except ErrorKind Text) : (s.complete r).keyLen = 0 := by cases r <;> rfl

/-! ### The next event -/

theorem takeEvent_nil (s : State) (h : s.pending = []) : s.takeEvent = (.core, { s with response := .silent }) := by
  simp [State.takeEvent, h]

theorem takeEvent_cons (s : State) (e : Event) (es : List Event) (h : s.pending = e :: es) :
    s.takeEvent = (e, { s with pending := es, response := .silent }) := by
  simp [State.takeEvent, h]

/-- Taking an event changes only the events still to come and the response. -/
theorem takeEvent_state (s : State) :
    s.takeEvent.2 = { s with pending := s.pending.tail, response := .silent } := by
  cases h : s.pending <;> simp [State.takeEvent, h]

/-- The event taken: the first to come, or the core's turn when none is. -/
theorem takeEvent_event (s : State) : s.takeEvent.1 = s.pending.headD .core := by
  cases h : s.pending <;> simp [State.takeEvent, h]

end Sys2Proof.Machine
end

