-- ==== Sys2Proof/Laws/Memory.lean ====
section
/-! SUPPORT. What the cell memory does: a store writes the bytes it names and leaves every other byte alone, and keeps the
canonical form; cells are their bytes. -/

namespace Sys2Proof.Machine

open Memory

/-! ### Bytes of a memory -/

/-- A memory without an entry at `a` reads as unlisted there. -/
theorem readByte_of_absent {m : Memory} {a : Nat} (h : ∀ p ∈ m, p.1 ≠ a) : readByte m a = unlisted := by
  induction m with
  | nil => rfl
  | cons p m ih =>
    simp only [readByte]
    rw [if_neg (fun e => h p (by simp) e.symm), ih fun q hq => h q (by simp [hq])]

theorem readByte_append_of_absent {m n : Memory} {a : Nat} (h : ∀ p ∈ m, p.1 ≠ a) :
    readByte (m ++ n) a = readByte n a := by
  induction m with
  | nil => rfl
  | cons p m ih =>
    simp only [List.cons_append, readByte]
    rw [if_neg (fun e => h p (by simp) e.symm), ih fun q hq => h q (by simp [hq])]

theorem readByte_append_of_absent_right {m n : Memory} {a : Nat} (h : ∀ p ∈ n, p.1 ≠ a) :
    readByte (m ++ n) a = readByte m a := by
  induction m with
  | nil => simp [readByte, readByte_of_absent h]
  | cons p m ih => simp only [List.cons_append, readByte, ih]

/-- A filter on offsets that keeps `a` does not change the byte at `a`. -/
theorem readByte_filter {m : Memory} {a : Nat} {f : Nat → Bool} (h : f a = true) :
    readByte (m.filter fun p => f p.1) a = readByte m a := by
  induction m with
  | nil => rfl
  | cons p m ih =>
    by_cases hp : f p.1 = true
    · simp only [List.filter_cons, hp, if_true, readByte, ih]
    · have ne : a ≠ p.1 := fun e => hp (e ▸ h)
      simp only [List.filter_cons, hp, readByte, if_neg ne]
      simpa using ih

/-! ### Cells -/

/-- The entries of consecutive cells lie in their bytes. -/
theorem cells_bounds {lo : Nat} {ws : List Word} {p : Host.Cell} (h : p ∈ cells lo ws) :
    lo ≤ p.1 ∧ p.1 < lo + 4 * ws.length := by
  induction ws generalizing lo with
  | nil => simp [cells] at h
  | cons w ws ih =>
    simp only [cells, List.mem_append] at h
    simp only [List.length_cons]
    rcases h with h | h
    · simp only [entriesOf, List.mem_filter, List.mem_cons, List.not_mem_nil, or_false] at h
      rcases h.1 with rfl | rfl | rfl | rfl <;> simp <;> omega
    · have := ih h
      omega

/-- The bytes of one cell's entries. -/
theorem readByte_entriesOf (a k : Nat) (w : Word) (hk : k < 4) : readByte (entriesOf a w) (a + k) = byteLane w k := by
  have key : ∀ l : Memory, readByte (l.filter fun p => p.2 != unlisted) (a + k) =
      if (l.Pairwise fun p q => p.1 < q.1) then readByte l (a + k) else
        readByte (l.filter fun p => p.2 != unlisted) (a + k) := by
    intro l
    split
    · rename_i hl
      induction l with
      | nil => rfl
      | cons p l ih =>
        have hl' := List.pairwise_cons.mp hl
        by_cases hp : p.2 = unlisted
        · simp only [List.filter_cons, hp, bne_self_eq_false, Bool.false_eq_true, if_false, readByte]
          rw [ih hl'.2]
          split
          · rename_i e
            rw [readByte_of_absent]
            intro q hq hqa
            have := hl'.1 q hq
            omega
          · rfl
        · have : (p.2 != unlisted) = true := by simpa using hp
          simp only [List.filter_cons, this, if_true, readByte, ih hl'.2]
    · rfl
  rw [entriesOf, key, if_pos (by simp)]
  rcases k with _ | _ | _ | _ | k
  · simp [readByte]
  · simp [readByte]
  · simp [readByte]
  · simp [readByte]
  · omega

/-- The bytes of consecutive cells. -/
theorem readByte_cells (lo k : Nat) (ws : List Word) : readByte (cells lo ws) (lo + k) = byteOfCells ws k := by
  induction ws generalizing lo k with
  | nil => simp [cells, readByte, byteOfCells, unlisted, byteLane]
  | cons w ws ih =>
    simp only [cells]
    by_cases hk : k < 4
    · rw [readByte_append_of_absent_right, readByte_entriesOf _ _ _ hk]
      · have h1 : k / 4 = 0 := by omega
        have h2 : k % 4 = k := by omega
        simp [byteOfCells, h1, h2]
      · intro p hp
        have := cells_bounds hp
        omega
    · rw [readByte_append_of_absent]
      · have e : lo + k = lo + 4 + (k - 4) := by omega
        have h1 : k / 4 = (k - 4) / 4 + 1 := by omega
        have h2 : k % 4 = (k - 4) % 4 := by omega
        rw [e, ih]
        simp [byteOfCells, h1, h2]
      · intro p hp
        have := cells_bounds (lo := lo) (ws := [w]) (p := p) (by simpa [cells] using hp)
        simp at this
        omega

/-! ### Store -/

/-- What a store does to every byte. -/
theorem readByte_store (m : Memory) (lo hi : Nat) (ws : List Word) (a : Nat) (h : lo + 4 * ws.length ≤ hi) :
    readByte (m.store lo hi ws) a =
      if lo ≤ a ∧ a < hi then byteOfCells ws (a - lo) else readByte m a := by
  unfold store
  rw [List.append_assoc]
  have low : ∀ b, lo ≤ b → ∀ p ∈ m.filter (fun p => p.1 < lo), p.1 ≠ b := by
    intro b hb p hp
    have := (List.mem_filter.mp hp).2
    simp at this
    omega
  have high : ∀ b, b < hi → ∀ p ∈ m.filter (fun p => hi ≤ p.1), p.1 ≠ b := by
    intro b hb p hp
    have := (List.mem_filter.mp hp).2
    simp at this
    omega
  by_cases h1 : a < lo
  · rw [readByte_append_of_absent_right, readByte_filter (f := fun x => decide (x < lo)) (by simpa using h1),
      if_neg (by omega)]
    intro p hp
    rcases List.mem_append.mp hp with hp | hp
    · have := cells_bounds hp
      omega
    · exact high a (by omega) p hp
  · rw [readByte_append_of_absent (low a (by omega))]
    by_cases h2 : a < hi
    · rw [readByte_append_of_absent_right (high a h2), if_pos (by omega)]
      have e : a = lo + (a - lo) := by omega
      conv_lhs => rw [e]
      exact readByte_cells ..
    · rw [readByte_append_of_absent, readByte_filter (f := fun x => decide (hi ≤ x)) (by simpa using h2),
        if_neg (by omega)]
      intro p hp
      have := cells_bounds hp
      omega

theorem entriesOf_wf (a : Nat) (w : Word) : (entriesOf a w).wf := by
  constructor
  · exact List.Pairwise.filter _ (by simp)
  · intro p hp
    have := (List.mem_filter.mp hp).2
    simpa [unlisted] using this

theorem cells_wf (lo : Nat) (ws : List Word) : (cells lo ws).wf := by
  induction ws generalizing lo with
  | nil => simp [cells, Memory.wf]
  | cons w ws ih =>
    refine ⟨List.pairwise_append.mpr ⟨(entriesOf_wf lo w).1, (ih (lo + 4)).1, ?_⟩, ?_⟩
    · intro p hp q hq
      have h1 := cells_bounds (lo := lo) (ws := [w]) (p := p) (by simpa [cells] using hp)
      have h2 := cells_bounds hq
      simp at h1
      omega
    · intro p hp
      rcases List.mem_append.mp hp with hp | hp
      · exact (entriesOf_wf lo w).2 p hp
      · exact (ih (lo + 4)).2 p hp

/-- Every store keeps the canonical form. -/
theorem store_wf {m : Memory} {lo hi : Nat} {ws : List Word} (hm : m.wf) (h : lo + 4 * ws.length ≤ hi) :
    (m.store lo hi ws).wf := by
  unfold store
  rw [List.append_assoc]
  refine ⟨List.pairwise_append.mpr ⟨hm.1.filter _, List.pairwise_append.mpr ⟨(cells_wf lo ws).1, hm.1.filter _, ?_⟩, ?_⟩, ?_⟩
  · intro p hp q hq
    have h1 := cells_bounds hp
    have h2 := (List.mem_filter.mp hq).2
    simp at h2
    omega
  · intro p hp q hq
    have h1 := (List.mem_filter.mp hp).2
    simp at h1
    rcases List.mem_append.mp hq with hq | hq
    · have := cells_bounds hq
      omega
    · have h2 := (List.mem_filter.mp hq).2
      simp at h2
      omega
  · intro p hp
    simp only [List.mem_append] at hp
    rcases hp with hp | hp | hp
    · exact hm.2 p (List.mem_filter.mp hp).1
    · exact (cells_wf lo ws).2 p hp
    · exact hm.2 p (List.mem_filter.mp hp).1

/-- Where the entries of a store can lie. -/
theorem mem_store {m : Memory} {lo hi : Nat} {ws : List Word} {p : Host.Cell} (h : p ∈ m.store lo hi ws) :
    p ∈ m ∨ (lo ≤ p.1 ∧ p.1 < lo + 4 * ws.length) := by
  unfold store at h
  simp only [List.mem_append] at h
  rcases h with (h | h) | h
  · exact .inl (List.mem_filter.mp h).1
  · exact .inr (cells_bounds h)
  · exact .inl (List.mem_filter.mp h).1

/-! ### Words -/

/-- A word is its byte lanes. -/
theorem wordOfBytes_lanes (w : Word) :
    wordOfBytes (byteLane w 0) (byteLane w 1) (byteLane w 2) (byteLane w 3) = w := by
  have h : byteLane w 3 ++ byteLane w 2 ++ byteLane w 1 ++ byteLane w 0 = w := by
    apply BitVec.eq_of_getLsbD_eq
    intro i hi
    simp only [byteLane, BitVec.getLsbD_append, BitVec.getLsbD_extractLsb']
    split
    · simp [*]
    · split
      · simp only [show i - 8 < 8 from by omega, decide_true, Bool.true_and]; congr 1; omega
      · split
        · simp only [show i - 8 - 8 < 8 from by omega, decide_true, Bool.true_and]; congr 1; omega
        · simp only [show i - 8 - 8 - 8 < 8 from by omega, decide_true, Bool.true_and]; congr 1; omega
  exact h

/-- A cell inside a store reads as the word stored there, or 0 after the last. -/
theorem readCell_store_inside (m : Memory) (lo hi i : Nat) (ws : List Word) (h : lo + 4 * ws.length ≤ hi)
    (hi' : lo + 4 * i + 4 ≤ hi) : readCell (m.store lo hi ws) (lo + 4 * i) = ws.getD i 0 := by
  have b : ∀ k, k < 4 → readByte (m.store lo hi ws) (lo + 4 * i + k) = byteLane (ws.getD i 0) k := by
    intro k hk
    rw [readByte_store _ _ _ _ _ h, if_pos (by omega)]
    have h1 : (lo + 4 * i + k - lo) / 4 = i := by omega
    have h2 : (lo + 4 * i + k - lo) % 4 = k := by omega
    rw [byteOfCells, h1, h2]
  have b0 := b 0 (by omega)
  rw [Nat.add_zero] at b0
  rw [readCell, b0, b 1 (by omega), b 2 (by omega), b 3 (by omega), wordOfBytes_lanes]

/-- A cell whose four bytes lie outside a store is unchanged. -/
theorem readCell_store_outside (m : Memory) (lo hi a : Nat) (ws : List Word) (h : lo + 4 * ws.length ≤ hi)
    (ha : a + 4 ≤ lo ∨ hi ≤ a) : readCell (m.store lo hi ws) a = readCell m a := by
  have b : ∀ k, k < 4 → readByte (m.store lo hi ws) (a + k) = readByte m (a + k) := by
    intro k hk
    rw [readByte_store _ _ _ _ _ h, if_neg (by omega)]
  have b0 := b 0 (by omega)
  rw [Nat.add_zero] at b0
  rw [readCell, readCell, b0, b 1 (by omega), b 2 (by omega), b 3 (by omega)]

end Sys2Proof.Machine
end

