-- ==== Sys2Proof/Laws/Completion.lean ====
section
/-! SUPPORT. What a completion leaves, said once: the registers, the cells and every byte of memory; and what a command's
meaning can answer, said once for the commands that draw no IV and once for those that draw one; and the degenerate-key
check in the words of R124. -/

namespace Sys2Proof.Machine

/-! ### Cells of a legal configuration -/

theorem outAddr_le_of_legal {p : Params} (h : p.Legal) : outAddr p.outCap ≤ 0x40000 := by
  have h1 := h.2.2.2.2
  simp only [Config.maxCap] at h1
  simp only [outAddr, Config.outBase]
  omega

theorem keyAddr_le_of_legal {p : Params} (h : p.Legal) : keyAddr p.keyCap ≤ Config.outBase := by
  have h1 := h.2.2.1.2
  simp only [Config.maxCap] at h1
  simp only [keyAddr, Config.keyBase, Config.outBase]
  omega

theorem inAddr_le_of_legal {p : Params} (h : p.Legal) : inAddr p.inCap ≤ Config.keyBase := by
  have h1 := h.2.1.2
  simp only [Config.maxCap] at h1
  simp only [inAddr, Config.inBase, Config.keyBase]
  omega

theorem length_cellsOfText (o : Text) : (cellsOfText o).length = o.length := by simp [cellsOfText]

theorem getD_cellsOfText (o : Text) (i : Nat) : (cellsOfText o).getD i 0 = BitVec.ofNat 32 (o.getD i 0) := by
  simp only [cellsOfText, List.getD_eq_getElem?_getD, List.getElem?_map]
  cases o[i]? <;> rfl

/-! ### The two stores of a completion -/

/-- The memory after the OUT cells become `ws` and the KEY cells 0. -/
def completionMem (s : State) (ws : List Word) : Memory :=
  (s.mem.store Config.outBase (outAddr s.params.outCap) ws).store Config.keyBase (keyAddr s.params.keyCap) []

theorem completionMem_out {s : State} {ws : List Word} (hp : s.params.Legal) (hw : ws.length ≤ s.params.outCap)
    {i : Nat} (hi : i < s.params.outCap) : (completionMem s ws).readCell (outAddr i) = ws.getD i 0 := by
  have hk := keyAddr_le_of_legal hp
  unfold completionMem
  rw [Memory.readCell, ← Memory.readCell, readCell_store_outside _ _ _ _ _ (by simp [keyAddr])
    (.inr (by simp only [outAddr]; omega))]
  exact readCell_store_inside _ _ _ _ _ (by simp only [outAddr]; omega) (by simp only [outAddr]; omega)

theorem completionMem_key {s : State} {ws : List Word} {i : Nat} (hi : i < s.params.keyCap) :
    (completionMem s ws).readCell (keyAddr i) = 0 := by
  unfold completionMem
  exact (readCell_store_inside _ _ _ i [] (by simp [keyAddr]) (by simp only [keyAddr]; omega)).trans (by simp)

theorem completionMem_byte {s : State} {ws : List Word} (hw : ws.length ≤ s.params.outCap) {a : Nat}
    (hk : ¬ keyByte s.params a) (ho : ¬ outByte s.params a) :
    (completionMem s ws).readByte a = s.mem.readByte a := by
  unfold completionMem
  rw [readByte_store _ _ _ _ _ (by simp [keyAddr]), if_neg hk,
    readByte_store _ _ _ _ _ (by simp only [outAddr]; omega), if_neg ho]

theorem completionMem_wf {s : State} {ws : List Word} (hm : s.mem.wf) (hw : ws.length ≤ s.params.outCap) :
    (completionMem s ws).wf :=
  store_wf (store_wf hm (by simp only [outAddr]; omega)) (by simp [keyAddr])

/-! ### What the two forms of completion leave -/

theorem completeOk_completed {s : State} {o : Text} (hp : s.params.Legal) (ho : o.length ≤ s.params.outCap) :
    CompletedOk s (s.completeOk o) o where
  params := rfl
  irqen := rfl
  cmd := rfl
  wlost := rfl
  inLen := rfl
  pending := rfl
  response := rfl
  busy := rfl
  done := rfl
  keyLen := rfl
  key := fun _ hi => completionMem_key hi
  memory := fun _ hk h => completionMem_byte (by rwa [length_cellsOfText]) hk h
  errcode := rfl
  outLen := by
    have h1 := hp.2.2.2.2
    simp only [Config.maxCap] at h1
    rw [completeOk_outLen, BitVec.toNat_ofNat]
    omega
  out := fun i hi => by
    rw [← getD_cellsOfText]
    exact completionMem_out hp (by rwa [length_cellsOfText]) hi

theorem completeError_completed {s : State} (e : ErrorKind) (hp : s.params.Legal) :
    CompletedErr s (s.completeError e) e where
  params := rfl
  irqen := rfl
  cmd := rfl
  wlost := rfl
  inLen := rfl
  pending := rfl
  response := rfl
  busy := rfl
  done := rfl
  keyLen := rfl
  key := fun _ hi => completionMem_key hi
  memory := fun _ hk h => completionMem_byte (by simp) hk h
  errcode := rfl
  outLen := rfl
  out := fun i hi => (completionMem_out hp (by simp) hi).trans (by simp)

/-! ### What the global checks answer -/

theorem allCharacters_iff (t : Text) : allCharacters t = true ↔ ∀ c ∈ t, c ≤ maxCodePoint := by
  simp [allCharacters]

theorem operands_ok_iff (s : State) (kr : Bool) (tk : Text × Text) :
    s.operands kr = .ok tk ↔ OperandsValid s kr ∧ tk = (s.inText, s.keyText) := by
  have split1 : s.lengthsFit = true ↔ s.inLen.toNat ≤ s.params.inCap ∧ s.keyLen.toNat ≤ s.params.keyCap := by
    simp [State.lengthsFit]
  unfold State.operands
  constructor
  · intro h
    split at h
    · cases h
    · rename_i h1
      split at h
      · cases h
      · rename_i h2
        split at h
        · cases h
        · rename_i h3
          simp only [Bool.not_eq_true', Bool.not_eq_false, Bool.and_eq_true, not_and] at h1 h2 h3
          have h1 := split1.mp h1
          refine ⟨⟨h1.1, h1.2, (allCharacters_iff _).mp h2, fun hk => (allCharacters_iff _).mp (h3 hk)⟩, ?_⟩
          injection h with h
          exact h.symm
  · rintro ⟨⟨a, b, c, d⟩, rfl⟩
    rw [if_neg (by simp [split1.mpr ⟨a, b⟩]), if_neg (by simp [(allCharacters_iff _).mpr c])]
    rw [if_neg]
    simp only [Bool.and_eq_true, not_and, Bool.not_eq_true', Bool.not_eq_false]
    exact fun hk => (allCharacters_iff _).mpr (d hk)

/-- Valid operands are the two texts. -/
theorem operands_of_valid {s : State} {kr : Bool} (h : OperandsValid s kr) :
    s.operands kr = .ok (s.inText, s.keyText) := (operands_ok_iff ..).mpr ⟨h, rfl⟩

theorem limitOutput_ok_iff (s : State) (r : Except ErrorKind Text) (o : Text) :
    s.limitOutput r = .ok o ↔ r = .ok o ∧ o.length ≤ s.params.outCap := by
  cases r with
  | error e => simp [State.limitOutput]
  | ok x =>
    simp only [State.limitOutput]
    split
    · simp only [reduceCtorEq, Except.ok.injEq, false_iff, not_and, not_le]
      rintro rfl
      assumption
    · rename_i hx
      simp only [Except.ok.injEq]
      constructor
      · rintro rfl
        exact ⟨rfl, Nat.le_of_not_lt hx⟩
      · exact fun h => h.1

/-! ### What a meaning can answer -/

/-- A command that draws no IV always answers a next state: its completion with its outcome. -/
theorem runBody_next (s : State) (kr : Bool) (body : Text → Text → Except ErrorKind Text) :
    s.runBody kr body = .next (s.complete (s.outcome kr body)) := rfl

/-- When the outcome is a text, it is the body's, from valid operands, and it fits. -/
theorem outcome_ok_iff (s : State) (kr : Bool) (body : Text → Text → Except ErrorKind Text) (o : Text) :
    s.outcome kr body = .ok o ↔
      OperandsValid s kr ∧ body s.inText s.keyText = .ok o ∧ o.length ≤ s.params.outCap := by
  unfold State.outcome
  cases h : s.operands kr with
  | error e =>
    simp only [reduceCtorEq, false_iff, not_and]
    intro hv
    rw [operands_of_valid hv] at h
    cases h
  | ok tk =>
    obtain ⟨hv, rfl⟩ := (operands_ok_iff ..).mp h
    simp only [limitOutput_ok_iff]
    exact ⟨fun h => ⟨hv, h⟩, fun h => h.2⟩

/-- The outcome of valid operands whose body answers an error is that error. -/
theorem outcome_error_of_body {s : State} {kr : Bool} {body : Text → Text → Except ErrorKind Text} {e : ErrorKind}
    (hv : OperandsValid s kr) (h : body s.inText s.keyText = .error e) : s.outcome kr body = .error e := by
  simp [State.outcome, operands_of_valid hv, h, State.limitOutput]

/-- A draw takes the next bytes that are ready, or there is none. -/
theorem drawIv_eq (s : State) (n : Nat) :
    s.drawIv n = if n ≤ s.entropy.length then some (s.entropy.take n, { s with entropy := s.entropy.drop n }) else none :=
  rfl

/-- A block encrypt command answers, once: an error completion before the draw; itself, waiting; or the completion after
the draw with the outcome of the text under the derived key. -/
theorem runBlockEncrypt_cases (c : BlockCipher) (s : State) :
    (∃ e, s.operands true = .error e ∧ runBlockEncrypt c s = .next (s.completeError e)) ∨
    (OperandsValid s true ∧ ∃ e, blockEncryptKey c s.keyText = .error e ∧
      runBlockEncrypt c s = .next (s.completeError e)) ∨
    (OperandsValid s true ∧ (∃ key, blockEncryptKey c s.keyText = .ok key) ∧ s.entropy.length < c.blockLen ∧
      runBlockEncrypt c s = .next s) ∨
    (OperandsValid s true ∧ ∃ key, blockEncryptKey c s.keyText = .ok key ∧ c.blockLen ≤ s.entropy.length ∧
      runBlockEncrypt c s = .next (({ s with entropy := s.entropy.drop c.blockLen } : State).complete
        (s.limitOutput (blockEncryptText c key (s.entropy.take c.blockLen) s.inText)))) := by
  unfold runBlockEncrypt
  cases h : s.operands true with
  | error e => exact .inl ⟨e, rfl, rfl⟩
  | ok tk =>
    obtain ⟨hv, rfl⟩ := (operands_ok_iff ..).mp h
    refine .inr ?_
    cases hk : blockEncryptKey c s.keyText with
    | error e => exact .inl ⟨hv, e, rfl, by simp [hk]⟩
    | ok key =>
      refine .inr ?_
      by_cases hn : c.blockLen ≤ s.entropy.length
      · exact .inr ⟨hv, key, rfl, hn, by simp [hk, drawIv_eq, hn]⟩
      · exact .inl ⟨hv, ⟨key, rfl⟩, by omega, by simp [hk, drawIv_eq, hn]⟩

/-- What `exec` answers for a command that draws no IV. -/
theorem exec_eq_runBody (i : Instr) (s : State) (h : drawLength i = 0) :
    ∃ body, exec i s = s.runBody (readsKey i) body := by
  cases i <;> first | exact ⟨_, rfl⟩ | cases h

/-! ### The degenerate-key check -/

/-- Two runs of 8 bytes are equal just if they agree at each of the 8 places. -/
theorem eight_bytes_eq_iff (k : Bytes) (a b : Nat) :
    (k.drop a).take 8 = (k.drop b).take 8 ↔ ∀ i, i < 8 → k[i + a]? = k[i + b]? := by
  refine ⟨fun h i hi => by simpa [hi, Nat.add_comm] using congrArg (·[i]?) h, fun h => List.ext_getElem? fun i => ?_⟩
  by_cases hi : i < 8
  · simpa [hi, Nat.add_comm] using h i hi
  · simp [hi]

/-- The check of the degenerate key is R124's condition, for a key of any length. -/
theorem degenerateKey_iff (k : Bytes) : degenerateKey k = true ↔ DegenerateBytes k := by
  have h1 := eight_bytes_eq_iff (clearParity k) 0 8
  have h2 := eight_bytes_eq_iff (clearParity k) 8 16
  simp only [clearParity, List.getElem?_map, List.drop_zero, Nat.add_zero] at h1 h2
  simp only [degenerateKey, clearParity, tdeaKey1, tdeaKey2, tdeaKey3, Bool.or_eq_true, beq_iff_eq, h1, h2,
    DegenerateBytes]

end Sys2Proof.Machine
end

