-- ==== Sys2Proof/Laws/PerInstr.lean ====
section
/-! SUPPORT. Statements about every command as syntax, made command by command. -/

namespace Sys2Proof.Laws

/-- A command's word is `DIR << 4 | ALG`, and it is a valid word (spec/30_encoding.md R93). -/
def WordValue.Statement (i : Instr) : Prop :=
  (encode i).toNat = 16 * i.dir.code.toNat + i.alg.code.toNat ∧ i.wf = true

theorem WordValue.shiftEnc : WordValue.Statement .shiftEnc := by unfold WordValue.Statement; decide
theorem WordValue.shiftDec : WordValue.Statement .shiftDec := by unfold WordValue.Statement; decide
theorem WordValue.vigEnc : WordValue.Statement .vigEnc := by unfold WordValue.Statement; decide
theorem WordValue.vigDec : WordValue.Statement .vigDec := by unfold WordValue.Statement; decide
theorem WordValue.otpEnc : WordValue.Statement .otpEnc := by unfold WordValue.Statement; decide
theorem WordValue.otpDec : WordValue.Statement .otpDec := by unfold WordValue.Statement; decide
theorem WordValue.atbashEnc : WordValue.Statement .atbashEnc := by unfold WordValue.Statement; decide
theorem WordValue.atbashDec : WordValue.Statement .atbashDec := by unfold WordValue.Statement; decide
theorem WordValue.railEnc : WordValue.Statement .railEnc := by unfold WordValue.Statement; decide
theorem WordValue.railDec : WordValue.Statement .railDec := by unfold WordValue.Statement; decide
theorem WordValue.blkaEnc : WordValue.Statement .blkaEnc := by unfold WordValue.Statement; decide
theorem WordValue.blkaDec : WordValue.Statement .blkaDec := by unfold WordValue.Statement; decide
theorem WordValue.blkbEnc : WordValue.Statement .blkbEnc := by unfold WordValue.Statement; decide
theorem WordValue.blkbDec : WordValue.Statement .blkbDec := by unfold WordValue.Statement; decide

/-- The dispatch table gives back the command of an algorithm and an operation (spec/43_dispatch.md R194). -/
def DispatchPair.Statement (i : Instr) : Prop := Instr.of i.alg i.dir = i

theorem DispatchPair.shiftEnc : DispatchPair.Statement .shiftEnc := rfl
theorem DispatchPair.shiftDec : DispatchPair.Statement .shiftDec := rfl
theorem DispatchPair.vigEnc : DispatchPair.Statement .vigEnc := rfl
theorem DispatchPair.vigDec : DispatchPair.Statement .vigDec := rfl
theorem DispatchPair.otpEnc : DispatchPair.Statement .otpEnc := rfl
theorem DispatchPair.otpDec : DispatchPair.Statement .otpDec := rfl
theorem DispatchPair.atbashEnc : DispatchPair.Statement .atbashEnc := rfl
theorem DispatchPair.atbashDec : DispatchPair.Statement .atbashDec := rfl
theorem DispatchPair.railEnc : DispatchPair.Statement .railEnc := rfl
theorem DispatchPair.railDec : DispatchPair.Statement .railDec := rfl
theorem DispatchPair.blkaEnc : DispatchPair.Statement .blkaEnc := rfl
theorem DispatchPair.blkaDec : DispatchPair.Statement .blkaDec := rfl
theorem DispatchPair.blkbEnc : DispatchPair.Statement .blkbEnc := rfl
theorem DispatchPair.blkbDec : DispatchPair.Statement .blkbDec := rfl

end Sys2Proof.Laws
end

