-- ==== Sys2Proof/Laws/Step.lean ====
section
/-! SUPPORT. What one step can do, said once: the core's turn, every other event, an accepted read and an accepted write; and
which target an offset of the map names. -/

namespace Sys2Proof.Machine

/-! ### Commands always answer -/

/-- Every command answers a next state. -/
theorem exec_next (i : Instr) (s : State) : ∃ t, exec i s = .next t := by
  have block : ∀ c, ∃ t, runBlockEncrypt c s = .next t := fun c => by
    rcases runBlockEncrypt_cases c s with ⟨_, _, h⟩ | ⟨_, _, _, h⟩ | ⟨_, _, _, h⟩ | ⟨_, _, _, _, h⟩ <;> exact ⟨_, h⟩
  cases i <;> first | exact ⟨_, rfl⟩ | exact block _

/-- The core's turn answers a next state. -/
theorem coreTurn_next (s : State) : ∃ t, coreTurn s = .next t := by
  unfold coreTurn
  split
  · split
    · exact exec_next _ _
    · exact ⟨_, rfl⟩
  · exact ⟨_, rfl⟩

/-! ### The event of a step -/

/-- The step in the core's turn, which is also the step when no event is left to come. -/
theorem step_of_core {s : State} (h : s.pending.headD .core = .core) :
    step s = coreTurn { s with pending := s.pending.tail, response := .silent } := by
  have h1 := takeEvent_event s
  rw [h] at h1
  rw [← takeEvent_state s]
  unfold step
  generalize s.takeEvent = x at h1 ⊢
  obtain ⟨e, s'⟩ := x
  cases h1
  rfl

/-- The step on any other event. -/
theorem step_of_event {s : State} {e : Event} {es : List Event} (h : s.pending = e :: es) (hc : e ≠ .core) :
    step s = ({ s with pending := es, response := .silent } : State).applyEvent e := by
  unfold step
  rw [takeEvent_cons _ _ _ h]
  cases e with
  | core => exact absurd rfl hc
  | _ => rfl

theorem reaches_iff (p : Params) (addr : Nat) :
    reaches p addr = true ↔ p.base ≤ addr ∧ addr < p.base + Config.apertureSize := by
  rw [reaches, Bool.and_eq_true, decide_eq_true_iff, decide_eq_true_iff]

theorem reaches_offset {p : Params} {off : Nat} (h : off < Config.apertureSize) : reaches p (p.base + off) = true :=
  (reaches_iff ..).mpr ⟨by omega, by omega⟩

theorem accessAccepted_iff (off size : Nat) : accessAccepted off size = true ↔ size = 4 ∧ off % 4 = 0 := by
  rw [accessAccepted, Bool.and_eq_true, beq_iff_eq, beq_iff_eq]

/-- The step of an accepted read. -/
theorem step_of_read {s : State} {off : Nat} {es : List Event} (h : s.pending = .read (s.params.base + off) 4 :: es)
    (ho : off < Config.apertureSize) (h4 : off % 4 = 0) :
    step s = .next { s with pending := es, response := .data (s.readTarget (targetAt s.params off)) } := by
  rw [step_of_event h nofun]
  simp only [State.applyEvent, reaches_offset ho, if_true, State.hostRead, Nat.add_sub_cancel_left,
    (accessAccepted_iff off 4).mpr ⟨rfl, h4⟩]
  cases targetAt s.params off <;> rfl

/-- The step of an accepted write. -/
theorem step_of_write {s : State} {off : Nat} {v : Word} {es : List Event}
    (h : s.pending = .write (s.params.base + off) 4 v :: es) (ho : off < Config.apertureSize) (h4 : off % 4 = 0) :
    step s = .next { ({ s with pending := es, response := .silent } : State).writeTarget v (targetAt s.params off) with
      response := .ack } := by
  rw [step_of_event h nofun]
  simp only [State.applyEvent, reaches_offset ho, if_true, State.hostWrite, Nat.add_sub_cancel_left,
    (accessAccepted_iff off 4).mpr ⟨rfl, h4⟩]

/-! ### Writes -/

/-- A write to anything but CTRL leaves these alone, busy or not. -/
theorem writeTarget_of_ne_ctrl (s : State) (v : Word) {x : Target} (h : x ≠ .ctrl) :
    (s.writeTarget v x).params = s.params ∧ (s.writeTarget v x).irqen = s.irqen ∧ (s.writeTarget v x).busy = s.busy ∧
      (s.writeTarget v x).errcode = s.errcode ∧ (s.writeTarget v x).outLen = s.outLen ∧
      (s.writeTarget v x).pending = s.pending ∧ (s.writeTarget v x).entropy = s.entropy := by
  have u : ∀ f : State → State, s.unlessBusy f = s.dropWrite ∨ s.unlessBusy f = f s := fun f => by
    unfold State.unlessBusy
    split
    · exact .inl rfl
    · exact .inr rfl
  cases x with
  | ctrl => exact absurd rfl h
  | cmd => rcases u (fun s => { s with cmd := v }) with e | e <;> simp [State.writeTarget, e]
  | inLen => rcases u (fun s => { s with inLen := v }) with e | e <;> simp [State.writeTarget, e]
  | keyLen => rcases u (fun s => { s with keyLen := v }) with e | e <;> simp [State.writeTarget, e]
  | inCell i => rcases u (fun s => s.writeCell (inAddr i) v) with e | e <;> simp [State.writeTarget, e]
  | keyCell i => rcases u (fun s => s.writeCell (keyAddr i) v) with e | e <;> simp [State.writeTarget, e]
  | _ => exact ⟨rfl, rfl, rfl, rfl, rfl, rfl, rfl⟩

/-! ### The map -/

theorem targetAt_inCell {p : Params} (hp : p.Legal) {i : Nat} (h : i < p.inCap) : targetAt p (inAddr i) = .inCell i := by
  have h1 := inAddr_le_of_legal hp
  unfold inAddr at h1 ⊢
  unfold targetAt
  have e : (Config.inBase + 4 * i - Config.inBase) / 4 = i := by omega
  rw [if_neg (by omega), if_pos (by omega), e, if_pos h]

theorem targetAt_keyCell {p : Params} (hp : p.Legal) {i : Nat} (h : i < p.keyCap) :
    targetAt p (keyAddr i) = .keyCell i := by
  have h1 := keyAddr_le_of_legal hp
  have h2 : Config.inBase < Config.keyBase := by decide
  unfold keyAddr at h1 ⊢
  unfold targetAt
  have e : (Config.keyBase + 4 * i - Config.keyBase) / 4 = i := by omega
  rw [if_neg (by omega), if_neg (by omega), if_pos (by omega), e, if_pos h]

theorem targetAt_outCell {p : Params} {i : Nat} (h : i < p.outCap) : targetAt p (outAddr i) = .outCell i := by
  have h1 : Config.inBase < Config.outBase := by decide
  have h2 : Config.keyBase < Config.outBase := by decide
  unfold outAddr targetAt
  have e : (Config.outBase + 4 * i - Config.outBase) / 4 = i := by omega
  rw [if_neg (by omega), if_neg (by omega), if_neg (by omega), e, if_pos h]

/-- Above the registers and below the windows every offset is reserved. -/
theorem registerAt_reserved {off : Nat} (h : Config.offOutCap < off) : registerAt off = .reserved := by
  have hc : ∀ c, c ≤ Config.offOutCap → off ≠ c := fun c hc e => by omega
  unfold registerAt
  rw [if_neg (hc _ (by decide)), if_neg (hc _ (by decide)), if_neg (hc _ (by decide)), if_neg (hc _ (by decide)),
    if_neg (hc _ (by decide)), if_neg (hc _ (by decide)), if_neg (hc _ (by decide)), if_neg (hc _ (by decide)),
    if_neg (hc _ (by decide)), if_neg (hc _ (by decide)), if_neg (hc _ (by decide))]

/-- Below the windows an offset names a register or nothing. -/
theorem registerAt_ne_cell (off i : Nat) :
    registerAt off ≠ .inCell i ∧ registerAt off ≠ .keyCell i ∧ registerAt off ≠ .outCell i := by
  unfold registerAt
  repeat' (split; · exact ⟨nofun, nofun, nofun⟩)
  exact ⟨nofun, nofun, nofun⟩

/-- CTRL stands at its own offset alone. -/
theorem registerAt_ctrl {off : Nat} (h : registerAt off = .ctrl) : off = Config.offCtrl := by
  by_contra hc
  revert h
  unfold registerAt
  rw [if_neg hc]
  repeat' (split; · exact nofun)
  exact nofun

/-- What an aligned offset of the aperture can name: a register or a reserved offset below the windows, a cell below its
buffer's capacity, or nothing. -/
theorem targetAt_cases (p : Params) {off : Nat} (h4 : off % 4 = 0) :
    (off < Config.inBase ∧ targetAt p off = registerAt off) ∨
    (∃ i, i < p.inCap ∧ off = inAddr i ∧ targetAt p off = .inCell i) ∨
    (∃ i, i < p.keyCap ∧ off = keyAddr i ∧ targetAt p off = .keyCell i) ∨
    (∃ i, i < p.outCap ∧ off = outAddr i ∧ targetAt p off = .outCell i) ∨
    (Config.inBase ≤ off ∧ targetAt p off = .reserved) := by
  have m1 : Config.inBase % 4 = 0 := by decide
  have m2 : Config.keyBase % 4 = 0 := by decide
  have m3 : Config.outBase % 4 = 0 := by decide
  by_cases h1 : off < Config.inBase
  · exact .inl ⟨h1, if_pos h1⟩
  refine .inr ?_
  have e1 : targetAt p off = _ := if_neg h1
  by_cases h2 : off < Config.keyBase
  · have e2 := e1.trans (if_pos h2)
    by_cases c : (off - Config.inBase) / 4 < p.inCap
    · exact .inl ⟨_, c, by unfold inAddr; omega, e2.trans (if_pos c)⟩
    · exact .inr (.inr (.inr ⟨by omega, e2.trans (if_neg c)⟩))
  have e2 := e1.trans (if_neg h2)
  refine .inr ?_
  by_cases h3 : off < Config.outBase
  · have e3 := e2.trans (if_pos h3)
    by_cases c : (off - Config.keyBase) / 4 < p.keyCap
    · exact .inl ⟨_, c, by unfold keyAddr; omega, e3.trans (if_pos c)⟩
    · exact .inr (.inr ⟨by omega, e3.trans (if_neg c)⟩)
  have e3 := e2.trans (if_neg h3)
  by_cases c : (off - Config.outBase) / 4 < p.outCap
  · exact .inr (.inl ⟨_, c, by unfold outAddr; omega, e3.trans (if_pos c)⟩)
  · exact .inr (.inr ⟨by omega, e3.trans (if_neg c)⟩)

end Sys2Proof.Machine
end

