-- ==== Sys2Proof/Tests/Slice0.lean ====
section
/-! SUPPORT. The tests: the well-formedness smoke tests, the decoding of every command word written out from
spec/30_encoding.md R93, vectors of spec/95_test_vectors.md (named in each comment), and for every statement with
hypotheses a concrete state and operands that meet them. -/

namespace Sys2Proof.Tests

open Sys2Proof.Machine

-- One thread: a kernel evaluation on each of many threads at once takes more memory than the check allows.
set_option Elab.async false

/-! ### Helpers -/

/-- Characters as a text. -/
def chars (l : List Char) : Text := l.map Char.toNat

/-- A legal configuration with small buffers at a base that is not 0. -/
def small : Params :=
  { base := 0x80000, inCap := 64, keyCap := 6, outCap := 64, rejectDegenerate := false, primitives := .reference }

/-- An idle core with an input text, a key text and ready entropy. -/
def loaded (p : Params) (t k : Text) (iv : Bytes := []) : State :=
  { State.reset with
    params := p
    mem := Memory.cells Config.inBase (cellsOfText t) ++ Memory.cells Config.keyBase (cellsOfText k)
    inLen := BitVec.ofNat 32 t.length
    keyLen := BitVec.ofNat 32 k.length
    entropy := iv }

/-- The same core with a command in progress and the core's turn next. -/
def running (s : State) (w : Word) : State := { s with cmd := w, busy := true, pending := [.core] }

/-- The same core with these events to come. -/
def facing (s : State) (es : List Event) : State := { s with pending := es }

/-- The next state of an answer. -/
def nextOf : Host.Outcome State Fault Refusal → State
  | .next t => t
  | _ => State.reset

/-- ERRCODE and the output text after a command. -/
def result (i : Instr) (s : State) : Option (Nat × Text) :=
  match exec i s with
  | .next t => some (t.errcode.val, t.outText)
  | _ => none

/-- The bytes 00, 01, 02, ...: the IV draws of the vectors. -/
def countingIv (n : Nat) : Bytes := (List.range n).map (BitVec.ofNat 8)

/-! ### Well-formedness smoke tests (R90, R91, R8) -/

theorem test_wf_refuses_reserved_bit : CommandFields.rsvClear { rsv := 1, dir := 0, alg := 1 } = false := by decide
theorem test_wf_refuses_alg_0 : CommandFields.algAssigned { rsv := 0, dir := 0, alg := 0 } = false := by decide
theorem test_wf_refuses_alg_8 : CommandFields.wf { rsv := 0, dir := 1, alg := 8 } = false := by decide
theorem test_wf_accepts_alg_7 : CommandFields.wf { rsv := 0, dir := 1, alg := 7 } = true := by decide
theorem test_text_refuses_0x110000 : ¬ Text.Valid [0x110000] := by decide
theorem test_params_refuse_base : ¬ Params.Legal { small with base := 0x1000 } := by decide
theorem test_params_refuse_in_cap_0 : ¬ Params.Legal { small with inCap := 0 } := by decide
theorem test_params_refuse_key_cap_16385 : ¬ Params.Legal { small with keyCap := 16385 } := by decide
theorem test_params_refuse_out_cap_0 : ¬ Params.Legal { small with outCap := 0 } := by decide

/-! ### Decoding: the words of R93, bit by bit -/

theorem test_decode_shiftEnc : decodeTableWord 32 0b00000000000000000000000000000001 = some .shiftEnc := by decide
theorem test_decode_shiftDec : decodeTableWord 32 0b00000000000000000000000000010001 = some .shiftDec := by decide
theorem test_decode_vigEnc : decodeTableWord 32 0b00000000000000000000000000000010 = some .vigEnc := by decide
theorem test_decode_vigDec : decodeTableWord 32 0b00000000000000000000000000010010 = some .vigDec := by decide
theorem test_decode_otpEnc : decodeTableWord 32 0b00000000000000000000000000000011 = some .otpEnc := by decide
theorem test_decode_otpDec : decodeTableWord 32 0b00000000000000000000000000010011 = some .otpDec := by decide
theorem test_decode_atbashEnc : decodeTableWord 32 0b00000000000000000000000000000100 = some .atbashEnc := by decide
theorem test_decode_atbashDec : decodeTableWord 32 0b00000000000000000000000000010100 = some .atbashDec := by decide
theorem test_decode_railEnc : decodeTableWord 32 0b00000000000000000000000000000101 = some .railEnc := by decide
theorem test_decode_railDec : decodeTableWord 32 0b00000000000000000000000000010101 = some .railDec := by decide
theorem test_decode_blkaEnc : decodeTableWord 32 0b00000000000000000000000000000110 = some .blkaEnc := by decide
theorem test_decode_blkaDec : decodeTableWord 32 0b00000000000000000000000000010110 = some .blkaDec := by decide
theorem test_decode_blkbEnc : decodeTableWord 32 0b00000000000000000000000000000111 = some .blkbEnc := by decide
theorem test_decode_blkbDec : decodeTableWord 32 0b00000000000000000000000000010111 = some .blkbDec := by decide

/-- The invalid words of vector D2, and those at the edges of the fields. -/
theorem test_decode_refuses :
    [0x00, 0x08, 0x0F, 0x10, 0x18, 0x1F, 0x20, 0x21, 0x106, 0x80000001].map (decodeTableWord 32) =
      List.replicate 10 none := by decide

theorem test_decode_truncated : decodeTableWord 32 0x07 = some .blkbEnc ∧
    (match decodeBytes [1, 0, 0] with | .error .truncated => true | _ => false) = true := by decide

/-! ### Commands: vectors of spec/95_test_vectors.md -/

/-- H4: a positive offset above 26 with spaces and a sign. -/
theorem test_shiftEnc_H4 : result .shiftEnc (loaded Params.referenceConfig (chars ['x', 'y', 'z', 'X', 'Y', 'Z'])
    (chars [' ', '+', '2', '9', ' '])) = some (0, chars ['a', 'b', 'c', 'A', 'B', 'C']) := by decide +kernel

/-- H13: the key is checked even for an empty text. -/
theorem test_shiftEnc_H13 : result .shiftEnc (loaded Params.referenceConfig [] (chars ['3', '.', '0'])) = some (2, []) := by
  decide +kernel

/-- H2. -/
theorem test_shiftDec_H2 : result .shiftDec (loaded Params.referenceConfig (chars ['d', 'e', 'f']) (chars ['3'])) =
    some (0, chars ['a', 'b', 'c']) := by decide +kernel

/-- V4: the comma and the space use up key letters (C1). -/
theorem test_vigEnc_V4 : result .vigEnc (loaded Params.referenceConfig
    (chars ['H', 'e', 'l', 'l', 'o', ',', ' ', 'W', 'o', 'r', 'l', 'd', '!']) (chars ['k', 'e', 'y'])) =
    some (0, chars ['R', 'i', 'j', 'v', 's', ',', ' ', 'A', 'm', 'b', 'p', 'b', '!']) := by decide +kernel

/-- V8: a space in the key. -/
theorem test_vigEnc_V8 : result .vigEnc (loaded Params.referenceConfig (chars ['a', 'b', 'c'])
    (chars ['k', 'e', ' ', 'y'])) = some (2, []) := by decide +kernel

/-- V5: the key's case does not matter. -/
theorem test_vigDec_V5 : result .vigDec (loaded Params.referenceConfig
    (chars ['R', 'i', 'j', 'v', 's', ',', ' ', 'A', 'm', 'b', 'p', 'b', '!']) (chars ['K', 'E', 'Y'])) =
    some (0, chars ['H', 'e', 'l', 'l', 'o', ',', ' ', 'W', 'o', 'r', 'l', 'd', '!']) := by decide +kernel

/-- O4: the space is changed (C4). -/
theorem test_otpEnc_O4 : result .otpEnc (loaded Params.referenceConfig (chars ['a', ' ', 'b']) (chars ['x', 'y', 'z'])) =
    some (0, [0x19, 0x59, 0x18]) := by decide +kernel

/-- O10: an XOR above the code points. -/
theorem test_otpEnc_O10 : result .otpEnc (loaded Params.referenceConfig [0x100000] [0x0FFFFF]) = some (6, []) := by
  decide +kernel

/-- O3: the tail of a longer key is unused. -/
theorem test_otpDec_O3 : result .otpDec (loaded Params.referenceConfig (chars ['a', 'b', 'c'])
    (chars ['x', 'y', 'z', 'w'])) = some (0, [0x19, 0x1B, 0x19]) := by decide +kernel

/-- O5: KeyTooShort. -/
theorem test_otpDec_O5 : result .otpDec (loaded Params.referenceConfig (chars ['a', 'b', 'c', 'd'])
    (chars ['x', 'y', 'z'])) = some (3, []) := by decide +kernel

/-- A5: KEY cells are not checked (D42). -/
theorem test_atbashEnc_A5 : result .atbashEnc (loaded Params.referenceConfig (chars ['a', 'b']) [0x110000]) =
    some (0, chars ['z', 'y']) := by decide +kernel

/-- A6: IN cells are. -/
theorem test_atbashEnc_A6 : result .atbashEnc (loaded Params.referenceConfig [0x110000] []) = some (6, []) := by
  decide +kernel

/-- A2. -/
theorem test_atbashDec_A2 : result .atbashDec (loaded Params.referenceConfig (chars ['S', 'v', 'o', 'o', 'l']) []) =
    some (0, chars ['H', 'e', 'l', 'l', 'o']) := by decide +kernel

/-- F4. -/
theorem test_railEnc_F4 : result .railEnc (loaded Params.referenceConfig
    (chars ['a', 'b', 'c', 'd', 'e', 'f', 'g', 'h', 'i', 'j']) (chars [' ', '4', ' '])) =
    some (0, chars ['a', 'g', 'b', 'f', 'h', 'c', 'e', 'i', 'd', 'j']) := by decide +kernel

/-- F12: a negative rail count. -/
theorem test_railEnc_F12 : result .railEnc (loaded Params.referenceConfig (chars ['a', 'b', 'c']) (chars ['-', '2'])) =
    some (2, []) := by decide +kernel

/-- F5. -/
theorem test_railDec_F5 : result .railDec (loaded Params.referenceConfig
    (chars ['a', 'g', 'b', 'f', 'h', 'c', 'e', 'i', 'd', 'j']) (chars ['4'])) =
    some (0, chars ['a', 'b', 'c', 'd', 'e', 'f', 'g', 'h', 'i', 'j']) := by decide +kernel

/-- The ciphertext of BA1. -/
def ba1 : Text :=
  chars ['A', 'A', 'E', 'C', 'A', 'w', 'Q', 'F', 'B', 'g', 'c', 'I', 'C', 'Q', 'o', 'L', 'D', 'A', '0', 'O', 'D', 'w',
    '/', 'j', 'N', 'q', 'A', 'I', 'L', 'h', 'r', '4', 'f', 'u', 'L', 'l', '8', 'H', 'G', '+', 'e', 'f', 'o', '=']

/-- The ciphertext of BB1. -/
def bb1 : Text :=
  chars ['A', 'A', 'E', 'C', 'A', 'w', 'Q', 'F', 'B', 'g', 'c', '5', 'G', 'Q', 'q', '/', 'Q', 'i', '5', 'B', '1', 'g',
    '=', '=']

def hello : Text := chars ['H', 'e', 'l', 'l', 'o']
def secret : Text := chars ['s', 'e', 'c', 'r', 'e', 't']

/-- A plaintext of one whole block of BlockCipherA, so that a block of pad follows. -/
def sixteen : Text :=
  chars ['0', '1', '2', '3', '4', '5', '6', '7', '8', '9', 'a', 'b', 'c', 'd', 'e', 'f']

/-- The ciphertext of BA4: two blocks. -/
def ba4 : Text :=
  chars ['A', 'A', 'E', 'C', 'A', 'w', 'Q', 'F', 'B', 'g', 'c', 'I', 'C', 'Q', 'o', 'L', 'D', 'A', '0', 'O',
    'D', 'y', 'V', 'D', 'a', 'H', '7', 'I', 'L', 'a', 'F', 'Y', 'U', 'T', 'y', 'S', 'x', 'd', '2', 'K', 'y',
    'O', 'q', 't', '6', 'Z', 't', 'T', '3', 'L', 'c', 'z', 'r', 'm', 'a', '1', 'B', 'A', 'x', 'b', 'x', 'j',
    'Y', 'Y']

/-- The ciphertext of BB4: three blocks. -/
def bb4 : Text :=
  chars ['A', 'A', 'E', 'C', 'A', 'w', 'Q', 'F', 'B', 'g', 'e', 'w', 'N', '8', 'r', 'C', 'x', '4', '+', 'C',
    'S', '4', 'v', '5', 'V', 'Z', 'm', 'W', 'g', 'h', 'W', 'P', 'h', 'o', 'T', 'H', 'g', 'F', 'N', 'o', 'B',
    't', 'o', '=']

/-- BA4: the second block is chained to the first. -/
theorem test_blkaEnc_BA4 : result .blkaEnc (loaded Params.referenceConfig sixteen secret (countingIv 16)) = some (0, ba4) := by
  decide +kernel

/-- BA8: InvalidKey before the draw. -/
theorem test_blkaEnc_BA8 : result .blkaEnc (loaded Params.referenceConfig hello []) = some (2, []) := by decide +kernel

/-- BA6, on the text of BA4. -/
theorem test_blkaDec_BA6 : result .blkaDec (loaded Params.referenceConfig ba4 secret) = some (0, sixteen) := by
  decide +kernel

/-- BA11: fewer bytes than an IV. -/
theorem test_blkaDec_BA11 : result .blkaDec (loaded Params.referenceConfig (chars ['A', 'A', 'A', 'A']) (chars ['k'])) =
    some (4, []) := by decide +kernel

/-- BB4. -/
theorem test_blkbEnc_BB4 : result .blkbEnc (loaded Params.referenceConfig sixteen secret (countingIv 8)) = some (0, bb4) := by
  decide +kernel

/-- BB6, on the text of BB4. -/
theorem test_blkbDec_BB6 : result .blkbDec (loaded Params.referenceConfig bb4 secret) = some (0, sixteen) := by
  decide +kernel

/-- BB10: an IV only. -/
theorem test_blkbDec_BB10 : result .blkbDec (loaded Params.referenceConfig
    (chars ['A', 'A', 'E', 'C', 'A', 'w', 'Q', 'F', 'B', 'g', 'c', '=']) (chars ['k'])) = some (5, []) := by decide +kernel

/-! ### Reference primitives: E16, E17, E19 -/

theorem test_sha256_abc : (sha256 (chars ['a', 'b', 'c'] |>.map byte)).take 8 =
    [0xba#8, 0x78#8, 0x16#8, 0xbf#8, 0x8f#8, 0x01#8, 0xcf#8, 0xea#8] := by decide +kernel

theorem test_aes_fips197 : aesEncrypt (countingIv 16)
    [0x00#8, 0x11#8, 0x22#8, 0x33#8, 0x44#8, 0x55#8, 0x66#8, 0x77#8, 0x88#8, 0x99#8, 0xaa#8, 0xbb#8, 0xcc#8, 0xdd#8,
      0xee#8, 0xff#8] =
    [0x69#8, 0xc4#8, 0xe0#8, 0xd8#8, 0x6a#8, 0x7b#8, 0x04#8, 0x30#8, 0xd8#8, 0xcd#8, 0xb7#8, 0x80#8, 0x70#8, 0xb4#8,
      0xc5#8, 0x5a#8] := by decide +kernel

theorem test_tdea_E19 : tdeaEncrypt
    [0x01#8, 0x23#8, 0x45#8, 0x67#8, 0x89#8, 0xab#8, 0xcd#8, 0xef#8, 0x23#8, 0x45#8, 0x67#8, 0x89#8, 0xab#8, 0xcd#8,
      0xef#8, 0x01#8, 0x45#8, 0x67#8, 0x89#8, 0xab#8, 0xcd#8, 0xef#8, 0x01#8, 0x23#8]
    [0x54#8, 0x68#8, 0x65#8, 0x20#8, 0x71#8, 0x75#8, 0x66#8, 0x63#8] =
    [0xa8#8, 0x26#8, 0xfd#8, 0x8c#8, 0xe5#8, 0x3b#8, 0x85#8, 0x5f#8] := by decide +kernel

/-! ### Codec: E3, E7, E8, E10 -/

/-- Whether a function raised. -/
def raised {α : Type} : Except ErrorKind α → Option ErrorKind
  | .error e => some e
  | .ok _ => none

theorem test_utf8_E3 : [[0xc3#8], [0xc0#8, 0xaf#8], [0xed#8, 0xa0#8, 0x80#8], [0xf4#8, 0x90#8, 0x80#8, 0x80#8],
    [0xe2#8, 0x82#8], [0xff#8]].map (fun b => raised (utf8Decode b)) = List.replicate 6 (some .encodingError) := by
  decide +kernel

theorem test_base64_E7 : [chars ['Z', 'g', '='], chars ['Z', '=', '=', '='], chars ['=', 'Z', 'g', '='],
    chars ['Z', 'g', '=', '=', 'Z', 'g', '=', '='], chars ['=', '=', '=', '=']].map (fun t => raised (base64Decode t)) =
    List.replicate 5 (some .malformedCiphertext) := by decide +kernel

theorem test_base64_E8 : (base64Decode (chars ['Z', 'h', '=', '='])).toOption = some [0x66#8] := by decide +kernel

theorem test_parseInt_E10 : [[], chars ['3', '.', '0'], chars ['+'], chars ['-', ' ', '3'], chars ['3', ' ', '3'],
    [0x663]].map (fun t => raised (parseInt t)) = List.replicate 6 (some .invalidKey) := by decide +kernel

/-! ### Host accesses and steps: section 10 of the vectors -/

/-- D1: a START after reset completes with UnsupportedAlgorithm. -/
theorem test_placed_word_0 : (nextOf (step (State.reset.withFetchWord 32 0))).errcode = 1 := by decide +kernel

/-- D12. -/
theorem test_ctrl_4 : (nextOf (step (facing State.reset [.write 4 4 4]))).ctrlWord = 4 ∧
    (nextOf (step (facing State.reset [.write 4 4 4]))).busy = false := by decide +kernel

/-- D9: an 8-bit read is a BusError. -/
theorem test_byte_read : (nextOf (step (facing State.reset [.read 0 1]))).response = .busError := by decide +kernel

/-- D13: SRST wins over START. -/
theorem test_ctrl_7 : (nextOf (step (facing (running (loaded small hello secret) 1) [.write 0x80004 4 7]))).busy = false ∧
    (nextOf (step (facing (running (loaded small hello secret) 1) [.write 0x80004 4 7]))).irqen = false := by
  decide +kernel

/-- An address at the end of the aperture is outside it. -/
theorem test_outside_aperture : (match step (facing State.reset [.read 0x40000 4]) with
    | .fault (.outsideAperture 0x40000) => true | _ => false) = true := by decide +kernel

/-! ### Witnesses: for each statement with hypotheses, a state and operands that meet them together -/

theorem small_legal : small.Legal := by decide

/-- A loaded core whose operands pass the checks. -/
theorem valid_of (t k : Text) (iv : Bytes) (h : (loaded small t k iv).inLen.toNat ≤ 64 ∧
    (loaded small t k iv).keyLen.toNat ≤ 6 ∧ (∀ c ∈ (loaded small t k iv).inText, c ≤ maxCodePoint) ∧
    (∀ c ∈ (loaded small t k iv).keyText, c ≤ maxCodePoint)) (kr : Bool) : OperandsValid (loaded small t k iv) kr :=
  ⟨h.1, h.2.1, h.2.2.1, fun _ => h.2.2.2⟩

/-- A command in progress, an idle core and a delivery, each with the core's turn or the delivery next. -/
theorem witness_StepRunsTheDecodedCommand :
    ((running (loaded small hello secret) 6).busy = true ∧
      (running (loaded small hello secret) 6).pending.headD .core = .core ∧
      decode (running (loaded small hello secret) 6).cmd = .ok .blkaEnc ∧
      ({ running (loaded small hello secret) 6 with pending := [] } : State).pending.headD .core = .core) ∧
    (State.reset.busy = false ∧ State.reset.pending.headD .core = .core) ∧
    (facing (running (loaded small hello secret) 6) [.entropy [1, 2]]).pending = .entropy [1, 2] :: [] := by
  refine ⟨⟨rfl, rfl, rfl, rfl⟩, ⟨rfl, rfl⟩, rfl⟩

/-- The three kinds of invalid word, at the edge of each. -/
theorem witness_InvalidWordIsUnsupportedAlgorithm :
    (∀ w ∈ [0x21#32, 0x10#32, 0x08#32], (running (loaded small hello secret) w).params.Legal ∧
      (running (loaded small hello secret) w).busy = true ∧
      (running (loaded small hello secret) w).pending.headD .core = .core) ∧
    (0x21#32).toNat / 32 ≠ 0 ∧ (0x10#32).toNat % 16 = 0 ∧ 8 ≤ (0x08#32).toNat % 16 :=
  ⟨fun _ _ => ⟨small_legal, rfl, rfl⟩, by decide, by decide, by decide⟩

theorem witness_EveryCommandCompletesOrWaits : (loaded small hello secret).params.Legal := small_legal

/-- A command in progress whose step completes: with a text for ATBASH.ENC, with an error for SHIFT.ENC without a
numeric key. -/
theorem witness_EveryCompletionZeroesTheKey :
    ∃ t, (running (loaded small hello secret) 4).params.Legal ∧ (running (loaded small hello secret) 4).busy = true ∧
      (running (loaded small hello secret) 4).pending.headD .core = .core ∧
      step (running (loaded small hello secret) 4) = .next t ∧ t.busy = false :=
  ⟨_, small_legal, rfl, rfl, rfl, rfl⟩

theorem witness_ErrorCompletionWritesOnlyWhatItMust :
    ∃ t, (running (loaded small hello secret) 1).params.Legal ∧ (running (loaded small hello secret) 1).busy = true ∧
      (running (loaded small hello secret) 1).pending.headD .core = .core ∧
      step (running (loaded small hello secret) 1) = .next t ∧ t.busy = false ∧ t.errcode ≠ 0 :=
  ⟨nextOf (step (running (loaded small hello secret) 1)), small_legal, rfl, rfl, rfl, by decide +kernel, by decide +kernel⟩

/-- Two states that differ in a register no outcome reads and in the entropy beyond the draw, for a command that draws; and
two states that differ in all of the entropy, for one that does not. -/
theorem witness_OutcomeDependsOnlyOnTheOperands :
    (∃ s s' t t' : State, s ≠ s' ∧ s.params.Legal ∧ s'.params = s.params ∧ s'.inLen = s.inLen ∧ s'.keyLen = s.keyLen ∧
      (∀ j, j < s.inLen.toNat → s'.inCell j = s.inCell j) ∧ (∀ j, j < s.keyLen.toNat → s'.keyCell j = s.keyCell j) ∧
      s'.entropy.take (drawLength .blkbEnc) = s.entropy.take (drawLength .blkbEnc) ∧ s'.entropy ≠ s.entropy ∧
      drawLength .blkbEnc ≤ s.entropy.length ∧ exec .blkbEnc s = .next t ∧ exec .blkbEnc s' = .next t') ∧
    ∃ s s' t t' : State, s.params.Legal ∧ s'.params = s.params ∧
      (∀ j, j < s.inLen.toNat → s'.inCell j = s.inCell j) ∧
      s'.entropy.take (drawLength .atbashEnc) = s.entropy.take (drawLength .atbashEnc) ∧ s'.entropy ≠ s.entropy ∧
      exec .atbashEnc s = .next t ∧ exec .atbashEnc s' = .next t' := by
  obtain ⟨t, ht⟩ := exec_next .blkbEnc (loaded small hello secret (countingIv 8))
  obtain ⟨t', ht'⟩ := exec_next .blkbEnc { loaded small hello secret (countingIv 9) with wlost := true }
  exact ⟨⟨loaded small hello secret (countingIv 8), { loaded small hello secret (countingIv 9) with wlost := true }, t, t',
    by decide, small_legal, rfl, rfl, rfl, fun _ _ => rfl, fun _ _ => rfl, rfl, by decide, by decide,
    ht, ht'⟩, loaded small hello secret (countingIv 9), loaded small hello secret [], _, _, small_legal, rfl,
    fun _ _ => rfl, rfl, by decide, rfl, rfl⟩

theorem threeIsThree : ReadsAsInteger (chars ['3']) 3 :=
  ⟨[], [], chars ['3'], [], rfl, by simp, by simp, by decide, by decide, .inl ⟨.inl rfl, by decide⟩⟩

/-- A key that is an integer, with an output that just fits, and a key that is none. -/
theorem witness_ShiftEncryptRotatesLetters :
    OperandsValid (loaded small hello (chars ['3'])) true ∧
      ReadsAsInteger (loaded small hello (chars ['3'])).keyText 3 ∧
      (loaded small hello (chars ['3'])).inLen.toNat ≤ small.outCap ∧
      OperandsValid (loaded small hello []) true ∧ ¬ ∃ off, ReadsAsInteger (loaded small hello []).keyText off := by
  refine ⟨valid_of _ _ _ (by decide +kernel) _, ?_, by decide, valid_of _ _ _ (by decide +kernel) _, ?_⟩
  · have : (loaded small hello (chars ['3'])).keyText = chars ['3'] := by decide +kernel
    rw [this]; exact threeIsThree
  · have : (loaded small hello []).keyText = [] := by decide +kernel
    rw [this]
    rintro ⟨_, b, sg, d, a, h, -, -, hd, -⟩
    have := congrArg List.length h
    simp only [List.length_nil, List.length_append] at this
    exact hd (List.length_eq_zero_iff.mp (by omega))

/-- The hypotheses of SHIFT.DEC are those of SHIFT.ENC. -/
theorem witness_ShiftDecryptRotatesBack :
    OperandsValid (loaded small hello (chars ['3'])) true ∧
      ReadsAsInteger (loaded small hello (chars ['3'])).keyText 3 ∧
      (loaded small hello (chars ['3'])).inLen.toNat ≤ small.outCap ∧
      OperandsValid (loaded small hello []) true ∧ ¬ ∃ off, ReadsAsInteger (loaded small hello []).keyText off :=
  witness_ShiftEncryptRotatesLetters

/-- Keys at the ends of both alphabets; an empty key and one with the character after "z". -/
theorem witness_VigenereEncryptUsesPositionalKey :
    (OperandsValid (loaded small hello (chars ['A', 'Z', 'a', 'z'])) true ∧
      (loaded small hello (chars ['A', 'Z', 'a', 'z'])).keyText ≠ [] ∧
      (∀ c ∈ (loaded small hello (chars ['A', 'Z', 'a', 'z'])).keyText, IsLetter c) ∧
      (loaded small hello (chars ['A', 'Z', 'a', 'z'])).inLen.toNat ≤ small.outCap) ∧
    (OperandsValid (loaded small hello []) true ∧ (loaded small hello []).keyText = []) ∧
    OperandsValid (loaded small hello [0x61, 0x7B]) true ∧ ∃ c ∈ (loaded small hello [0x61, 0x7B]).keyText, ¬ IsLetter c :=
  ⟨⟨valid_of _ _ _ (by decide +kernel) _, by decide +kernel, by decide +kernel, by decide⟩,
    ⟨valid_of _ _ _ (by decide +kernel) _, by decide +kernel⟩, valid_of _ _ _ (by decide +kernel) _, by decide +kernel⟩

theorem witness_VigenereDecryptUsesPositionalKey :
    OperandsValid (loaded small hello (chars ['k', 'e', 'y'])) true ∧
      (loaded small hello (chars ['k', 'e', 'y'])).keyText ≠ [] ∧
      (∀ c ∈ (loaded small hello (chars ['k', 'e', 'y'])).keyText, IsLetter c) ∧
      (loaded small hello (chars ['k', 'e', 'y'])).inLen.toNat ≤ small.outCap ∧
      OperandsValid (loaded small hello []) true ∧ (loaded small hello []).keyText = [] :=
  ⟨valid_of _ _ _ (by decide +kernel) _, by decide +kernel, by decide +kernel, by decide,
    valid_of _ _ _ (by decide +kernel) _, by decide +kernel⟩

/-- No key; a key one too short; an XOR that is the first above the code points' planes; a key exactly as long. -/
theorem witness_OneTimePadXorsCodePoints :
    (OperandsValid (loaded small hello []) true ∧ (loaded small hello []).keyText = []) ∧
    (OperandsValid (loaded small hello (chars ['a', 'b', 'c', 'd'])) true ∧
      (loaded small hello (chars ['a', 'b', 'c', 'd'])).keyText.length + 1 =
        (loaded small hello (chars ['a', 'b', 'c', 'd'])).inText.length) ∧
    (OperandsValid (loaded small [0x100000] [0x10000]) true ∧
      maxCodePoint < (loaded small [0x100000] [0x10000]).inText.getD 0 0 ^^^
        (loaded small [0x100000] [0x10000]).keyText.getD 0 0) ∧
    OperandsValid (loaded small [0x10FFFF] [1]) true ∧ (loaded small [0x10FFFF] [1]).keyText ≠ [] ∧
      (loaded small [0x10FFFF] [1]).inText.length = (loaded small [0x10FFFF] [1]).keyText.length ∧
      (∀ j, j < 1 → (loaded small [0x10FFFF] [1]).inText.getD j 0 ^^^
        (loaded small [0x10FFFF] [1]).keyText.getD j 0 ≤ maxCodePoint) :=
  ⟨⟨valid_of _ _ _ (by decide +kernel) _, by decide +kernel⟩, ⟨valid_of _ _ _ (by decide +kernel) _, by decide +kernel⟩,
    ⟨valid_of _ _ _ (by decide +kernel) _, by decide +kernel⟩, valid_of _ _ _ (by decide +kernel) _, by decide +kernel,
    by decide +kernel, by decide +kernel⟩

/-- A key cell above the code points is no obstacle to ATBASH. -/
theorem witness_AtbashReflectsLetters : OperandsValid (loaded small hello [0x110000]) false ∧
    (loaded small hello [0x110000]).inLen.toNat ≤ small.outCap :=
  ⟨⟨by decide, by decide, by decide +kernel, by simp⟩, by decide⟩

theorem witness_RailEncryptWritesTheZigzag :
    OperandsValid (loaded small hello (chars ['3'])) true ∧
      ReadsAsInteger (loaded small hello (chars ['3'])).keyText (3 : Nat) ∧
      (loaded small hello (chars ['3'])).inLen.toNat ≤ small.outCap ∧
      OperandsValid (loaded small hello []) true ∧
      ¬ ∃ r : Nat, 1 ≤ r ∧ ReadsAsInteger (loaded small hello []).keyText r :=
  ⟨witness_ShiftEncryptRotatesLetters.1, witness_ShiftEncryptRotatesLetters.2.1, by decide,
    witness_ShiftEncryptRotatesLetters.2.2.2.1,
    fun ⟨r, _, h⟩ => witness_ShiftEncryptRotatesLetters.2.2.2.2 ⟨r, h⟩⟩

theorem witness_RailDecryptUndoesTheZigzag :
    OperandsValid (loaded small hello (chars ['3'])) true ∧
      ReadsAsInteger (loaded small hello (chars ['3'])).keyText (3 : Nat) ∧
      (loaded small hello (chars ['3'])).inLen.toNat ≤ small.outCap ∧
      OperandsValid (loaded small hello []) true ∧
      ¬ ∃ r : Nat, 1 ≤ r ∧ ReadsAsInteger (loaded small hello []).keyText r := witness_RailEncryptWritesTheZigzag

/-- SHIFT.ENC of "ab" by 3, then a core that holds its output and the same key. -/
theorem witness_ClassicalRoundTrip :
    ∃ s s₁ s₂ : State, s.params.Legal ∧ exec (Instr.of .shift .enc) s = .next s₁ ∧ s₁.errcode = 0 ∧
      s₂.params = s.params ∧ s₂.inText = s₁.outText ∧ s₂.keyText = s.keyText ∧ s₂.inLen.toNat ≤ s.params.inCap :=
  ⟨loaded small (chars ['a', 'b']) (chars ['3']), nextOf (exec .shiftEnc (loaded small (chars ['a', 'b']) (chars ['3']))),
    loaded small (chars ['d', 'e']) (chars ['3']), small_legal, rfl, by decide +kernel, rfl, by decide +kernel,
    by decide +kernel, by decide⟩

/-- A plaintext of 5 bytes under a passphrase, with exactly the bytes of one draw ready. -/
theorem witness_BlockAEncryptCompletes :
    OperandsValid (loaded small hello secret (countingIv 16)) true ∧
      (loaded small hello secret (countingIv 16)).keyText ≠ [] ∧
      NoSurrogates (loaded small hello secret (countingIv 16)).keyText ∧
      NoSurrogates (loaded small hello secret (countingIv 16)).inText ∧
      16 ≤ (loaded small hello secret (countingIv 16)).entropy.length ∧
      encryptedLength 16 (utf8Length (loaded small hello secret (countingIv 16)).inText) ≤ small.outCap :=
  ⟨valid_of _ _ _ (by decide +kernel) _, by decide +kernel, by decide +kernel, by decide +kernel, by decide,
    by decide +kernel⟩

theorem witness_BlockBEncryptCompletes :
    OperandsValid (loaded small hello secret (countingIv 8)) true ∧
      (loaded small hello secret (countingIv 8)).keyText ≠ [] ∧
      NoSurrogates (loaded small hello secret (countingIv 8)).keyText ∧
      NoSurrogates (loaded small hello secret (countingIv 8)).inText ∧
      8 ≤ (loaded small hello secret (countingIv 8)).entropy.length ∧
      encryptedLength 8 (utf8Length (loaded small hello secret (countingIv 8)).inText) ≤ small.outCap ∧
      ¬ DegenerateBytes ((digest .reference (utf8Of (loaded small hello secret (countingIv 8)).keyText)).take 24) :=
  ⟨valid_of _ _ _ (by decide +kernel) _, by decide +kernel, by decide +kernel, by decide +kernel, by decide,
    by decide +kernel, by decide +kernel⟩

theorem witness_BlockADecryptRecoversThePlaintext :
    OperandsValid (loaded small ba1 secret) true ∧ (loaded small ba1 secret).keyText ≠ [] ∧
      NoSurrogates (loaded small ba1 secret).keyText ∧ NoSurrogates hello ∧ (∀ c ∈ hello, c ≤ maxCodePoint) ∧
      (countingIv 16).length = 16 ∧ hello.length ≤ small.outCap ∧
      (loaded small ba1 secret).inText = base64Encode (countingIv 16 ++ cbcEncrypt (encryptA .reference
        ((digest .reference (utf8Of (loaded small ba1 secret).keyText)).take 16)) 16 (countingIv 16)
        (pad (utf8Of hello) 16)) :=
  ⟨valid_of _ _ _ (by decide +kernel) _, by decide +kernel, by decide +kernel, by decide, by decide, by decide, by decide,
    by decide +kernel⟩

theorem witness_BlockBDecryptRecoversThePlaintext :
    OperandsValid (loaded small bb1 secret) true ∧ (loaded small bb1 secret).keyText ≠ [] ∧
      NoSurrogates (loaded small bb1 secret).keyText ∧ NoSurrogates hello ∧ (∀ c ∈ hello, c ≤ maxCodePoint) ∧
      (countingIv 8).length = 8 ∧ hello.length ≤ small.outCap ∧
      ¬ DegenerateBytes ((digest .reference (utf8Of (loaded small bb1 secret).keyText)).take 24) ∧
      (loaded small bb1 secret).inText = base64Encode (countingIv 8 ++ cbcEncrypt (encryptB .reference
        ((digest .reference (utf8Of (loaded small bb1 secret).keyText)).take 24)) 8 (countingIv 8)
        (pad (utf8Of hello) 8)) :=
  ⟨valid_of _ _ _ (by decide +kernel) _, by decide +kernel, by decide +kernel, by decide, by decide, by decide, by decide,
    by decide +kernel, by decide +kernel⟩

theorem witness_BlockRoundTrip :
    (∀ c ∈ hello, c ≤ maxCodePoint) ∧ (countingIv 16).length = 16 ∧
      (blockEncrypt (blockCipherA small) (countingIv 16) hello secret).toOption = some ba1 ∧
      (blockEncrypt (blockCipherB small) (countingIv 8) hello secret).toOption = some bb1 := by
  refine ⟨by decide, by decide, by decide +kernel, by decide +kernel⟩

/-- One byte fewer than each draw takes. -/
theorem witness_BlockEncryptWaitsForEntropy :
    (OperandsValid (loaded small hello secret (countingIv 15)) true ∧
      (loaded small hello secret (countingIv 15)).keyText ≠ [] ∧
      NoSurrogates (loaded small hello secret (countingIv 15)).keyText ∧
      (loaded small hello secret (countingIv 15)).entropy.length < 16) ∧
    OperandsValid (loaded small hello secret (countingIv 7)) true ∧
      (loaded small hello secret (countingIv 7)).entropy.length < 8 ∧
      (loaded small hello secret (countingIv 7)).params.rejectDegenerate = false :=
  ⟨⟨valid_of _ _ _ (by decide +kernel) _, by decide +kernel, by decide +kernel, by decide⟩,
    valid_of _ _ _ (by decide +kernel) _, by decide, rfl⟩

/-- A core with the degenerate-key check, and as its input an IV alone, the shortest text that BLKB.DEC transports (BB10). -/
def checking : State :=
  { loaded small (chars ['A', 'A', 'E', 'C', 'A', 'w', 'Q', 'F', 'B', 'g', 'c', '=']) secret with
    params := { small with rejectDegenerate := true } }

/-- A digest whose first two DES keys are equal but for bit 0 of each byte, and one whose last two are. -/
def firstTwoEqual : Bytes → Bytes := fun _ => List.replicate 8 6 ++ List.replicate 8 7 ++ List.replicate 8 9
def lastTwoEqual : Bytes → Bytes := fun _ => List.replicate 8 9 ++ List.replicate 8 6 ++ List.replicate 8 7

/-- Each half of R124's condition alone. -/
theorem witness_DegenerateKeyIsRejected :
    checking.params.Legal ∧ OperandsValid checking true ∧ checking.keyText ≠ [] ∧ NoSurrogates checking.keyText ∧
      checking.params.rejectDegenerate = true ∧
      (DegenerateBytes ((firstTwoEqual (utf8Of checking.keyText)).take 24) ∧
        ¬ DegenerateBytes (List.replicate 8 6 ++ List.replicate 8 8 ++ List.replicate 8 10)) ∧
      DegenerateBytes ((lastTwoEqual (utf8Of checking.keyText)).take 24) ∧
      (base64Decode checking.inText).toOption = some (countingIv 8) ∧ 8 ≤ (countingIv 8).length ∧
      ((countingIv 8).length - 8) % 8 = 0 :=
  ⟨by decide, ⟨by decide, by decide, by decide +kernel, fun _ => by decide +kernel⟩, by decide +kernel, by decide +kernel,
    rfl, ⟨.inl (by decide), by decide⟩, .inr (by decide), by decide +kernel, by decide, by decide⟩

/-- The two commands are the statement's instances at the implementation's digest. -/
theorem blkb_at_digest (s : State) :
    exec .blkbEnc s = runBlockEncrypt { blockCipherB s.params with digest := digest s.params.primitives } s ∧
      exec .blkbDec s =
        s.runBody true (blockDecrypt { blockCipherB s.params with digest := digest s.params.primitives }) := ⟨rfl, rfl⟩

/-- The last surrogate in the key, and the first in the plaintext with exactly the bytes of each draw ready. -/
theorem witness_BlockEncryptRefusesSurrogates :
    (OperandsValid (loaded small hello [0xDFFF]) true ∧ (loaded small hello [0xDFFF]).keyText ≠ [] ∧
      ∃ c ∈ (loaded small hello [0xDFFF]).keyText, isSurrogate c = true) ∧
    (OperandsValid (loaded small [0xD800] secret (countingIv 16)) true ∧
      KeyAccepted .blkaEnc (loaded small [0xD800] secret (countingIv 16)) ∧
      (∃ c ∈ (loaded small [0xD800] secret (countingIv 16)).inText, isSurrogate c = true) ∧
      16 ≤ (loaded small [0xD800] secret (countingIv 16)).entropy.length) ∧
    OperandsValid (loaded small [0xD800] secret (countingIv 8)) true ∧
      KeyAccepted .blkbEnc (loaded small [0xD800] secret (countingIv 8)) ∧
      (∃ c ∈ (loaded small [0xD800] secret (countingIv 8)).inText, isSurrogate c = true) ∧
      8 ≤ (loaded small [0xD800] secret (countingIv 8)).entropy.length :=
  ⟨⟨valid_of _ _ _ (by decide +kernel) _, by decide +kernel, by decide +kernel⟩,
    ⟨valid_of _ _ _ (by decide +kernel) _, ⟨by decide +kernel, nofun⟩, by decide +kernel, by decide⟩,
    valid_of _ _ _ (by decide +kernel) _, ⟨by decide +kernel, nofun⟩, by decide +kernel, by decide⟩

/-- What the grammar of R116 lets stand in a text. -/
theorem grammar_chars {t : Text} {vs : List Nat} {n : Nat} (h : Base64Grammar t vs n) :
    ∀ c ∈ t, c = 0x3D ∨ ∃ v, IsBase64Char c v := by
  obtain ⟨-, -, body, rfl, hf⟩ := h
  intro c hc
  rcases List.mem_append.mp hc with hc | hc
  · refine .inr ?_
    induction hf with
    | nil => cases hc
    | cons h _ ih =>
      rcases List.mem_cons.mp hc with rfl | hc
      · exact ⟨_, h⟩
      · exact ih (by simp [hc]) hc
  · exact .inl (List.eq_of_mem_replicate hc)

/-- No base64; 3 bytes; 18 bytes (BA11, BA12, BA14); and for BLKB.DEC 6 bytes (BB12). -/
theorem witness_BlockDecryptRefusesMalformedCiphertext :
    (OperandsValid (loaded small (chars ['a', 'b', 'c', '!']) secret) true ∧
      ¬ ∃ vs n, Base64Grammar (loaded small (chars ['a', 'b', 'c', '!']) secret).inText vs n) ∧
    (OperandsValid (loaded small (List.replicate 24 0x41) secret) true ∧
      (base64Decode (loaded small (List.replicate 24 0x41) secret).inText).toOption = some (List.replicate 18 0) ∧
      (18 - 16) % 16 ≠ 0) ∧
    OperandsValid (loaded small (chars ['A', 'A', 'E', 'C', 'A', 'w', 'Q', 'F']) secret) true ∧
      (base64Decode (loaded small (chars ['A', 'A', 'E', 'C', 'A', 'w', 'Q', 'F']) secret).inText).toOption =
        some (countingIv 6) := by
  refine ⟨⟨valid_of _ _ _ (by decide +kernel) _, ?_⟩, ⟨valid_of _ _ _ (by decide +kernel) _, by decide +kernel, by decide⟩,
    valid_of _ _ _ (by decide +kernel) _, by decide +kernel⟩
  rintro ⟨vs, n, h⟩
  rcases grammar_chars h 0x21 (by decide +kernel) with h | ⟨v, h⟩
  · cases h
  · have h : (v ≤ 25 ∧ (0x21 : Nat) = 0x41 + v) ∨ (26 ≤ v ∧ v ≤ 51 ∧ (0x21 : Nat) = 0x61 + (v - 26)) ∨
        (52 ≤ v ∧ v ≤ 61 ∧ (0x21 : Nat) = 0x30 + (v - 52)) ∨ (v = 62 ∧ (0x21 : Nat) = 0x2B) ∨
        (v = 63 ∧ (0x21 : Nat) = 0x2F) := h
    omega

/-- The bytes of a ciphertext text. -/
def transported (t : Text) : Bytes := (base64Decode t).toOption.getD []

/-- Bytes none of whose ends is a pad. -/
theorem no_pad_of {n : Nat} {q : Bytes}
    (h : ∀ p, p < n + 1 → 1 ≤ p → q.drop (q.length - p) ≠ List.replicate p (BitVec.ofNat 8 p)) :
    ¬ ∃ b, EndsInPad n q b := by
  rintro ⟨b, p, h1, h2, rfl⟩
  exact h p (by omega) h1 (by simp)

def zeroIv : Text := List.replicate 22 0x41 ++ [0x3D, 0x3D]
def wrong : Text := chars ['w', 'r', 'o', 'n', 'g']
def k410 : Text := chars ['k', '4', '1', '0']

/-- The two rows of the block decrypt commands. -/
theorem rowA (p : Params) : BlockDecryptRow p .blkaDec 16 16 (decryptA p.primitives) := .inl ⟨rfl, rfl, rfl, rfl⟩
theorem rowB (p : Params) : BlockDecryptRow p .blkbDec 8 24 (decryptB p.primitives) := .inr ⟨rfl, rfl, rfl, rfl⟩

/-- A surrogate in the key, and an IV alone (BA13). -/
theorem witness_IvAloneIsAPaddingError :
    (OperandsValid (loaded small zeroIv [0xD800]) true ∧
      (base64Decode (loaded small zeroIv [0xD800]).inText).toOption = some (List.replicate 16 0) ∧
      ∃ c ∈ (loaded small zeroIv [0xD800]).keyText, isSurrogate c = true) ∧
    OperandsValid (loaded small zeroIv secret) true ∧ (loaded small zeroIv secret).keyText ≠ [] ∧
      KeyAccepted .blkaDec (loaded small zeroIv secret) ∧
      (base64Decode (loaded small zeroIv secret).inText).toOption = some (List.replicate 16 0) :=
  ⟨⟨valid_of _ _ _ (by decide +kernel) _, by decide +kernel, by decide +kernel⟩, valid_of _ _ _ (by decide +kernel) _,
    by decide +kernel, ⟨by decide +kernel, nofun⟩, by decide +kernel⟩

/-- A wrong key whose bytes end in no pad (the worked example of R172). -/
theorem witness_IvAloneIsAPaddingError_pad :
    OperandsValid (loaded small ba1 wrong) true ∧ KeyAccepted .blkaDec (loaded small ba1 wrong) ∧
      (transported (loaded small ba1 wrong).inText).length = 32 ∧
      ¬ ∃ pb, EndsInPad 16 (paddedPlaintext (loaded small ba1 wrong) 16 16 (decryptA .reference)
        (transported (loaded small ba1 wrong).inText)) pb :=
  ⟨valid_of _ _ _ (by decide +kernel) _, ⟨by decide +kernel, nofun⟩, by decide +kernel, no_pad_of (by decide +kernel)⟩

/-- A wrong key whose unpadded bytes are no UTF-8 (the worked example of R174). -/
theorem witness_IvAloneIsAPaddingError_text :
    OperandsValid (loaded small bb1 k410) true ∧ KeyAccepted .blkbDec (loaded small bb1 k410) ∧
      (transported (loaded small bb1 k410).inText).length = 16 ∧
      EndsInPad 8 (paddedPlaintext (loaded small bb1 k410) 8 24 (decryptB .reference)
        (transported (loaded small bb1 k410).inText)) [76, 245, 75, 121, 52, 86, 6] ∧
      ¬ ∃ t, utf8Decode [76, 245, 75, 121, 52, 86, 6] = .ok t :=
  ⟨valid_of _ _ _ (by decide +kernel) _, ⟨by decide +kernel, nofun⟩, by decide +kernel,
    ⟨1, by decide, by decide, by decide +kernel⟩, by
      rintro ⟨t, h⟩
      have e : (utf8Decode [76, 245, 75, 121, 52, 86, 6]).toOption = none := by decide +kernel
      rw [h] at e
      cases e⟩

/-- The right key: a text of five characters, which fits OUT. -/
theorem witness_IvAloneIsAPaddingError_ok :
    OperandsValid (loaded small ba1 secret) true ∧ KeyAccepted .blkaDec (loaded small ba1 secret) ∧
      (transported (loaded small ba1 secret).inText).length = 32 ∧
      EndsInPad 16 (paddedPlaintext (loaded small ba1 secret) 16 16 (decryptA .reference)
        (transported (loaded small ba1 secret).inText)) [72, 101, 108, 108, 111] ∧
      (utf8Decode [72, 101, 108, 108, 111]).toOption = some hello ∧ hello.length ≤ small.outCap :=
  ⟨valid_of _ _ _ (by decide +kernel) _, ⟨by decide +kernel, nofun⟩, by decide +kernel,
    ⟨11, by decide, by decide, by decide +kernel⟩, by decide +kernel, by decide⟩

/-- Lengths one above each capacity. -/
theorem witness_OversizeLengthIsCapacityError :
    small.inCap < ({ loaded small [] [] with inLen := 65 } : State).inLen.toNat ∧
      small.keyCap < ({ loaded small [] [] with keyLen := 7 } : State).keyLen.toNat := by decide

/-- The first value that is no character, in an IN cell and in a KEY cell. -/
theorem witness_NonCharacterCellIsEncodingError :
    ((loaded small [0x110000] []).inLen.toNat ≤ small.inCap ∧ (loaded small [0x110000] []).keyLen.toNat ≤ small.keyCap ∧
      ∃ c ∈ (loaded small [0x110000] []).inText, maxCodePoint < c) ∧
    readsKey .otpDec = true ∧ ∃ c ∈ (loaded small [] [0x110000]).keyText, maxCodePoint < c := by decide +kernel

theorem witness_MissingKeyIsInvalidKey :
    OperandsValid (loaded small hello []) true ∧ readsKey .blkbDec = true ∧ (loaded small hello []).keyLen = 0 :=
  ⟨valid_of _ _ _ (by decide +kernel) _, rfl, rfl⟩

/-- Configurations whose OUT buffer is one cell short: the classical commands with each kind of key, and the block encrypt
commands with exactly the bytes of a draw ready. -/
theorem witness_OversizeOutputIsCapacityError :
    (Params.Legal { small with outCap := 4 } ∧ 4 < (loaded { small with outCap := 4 } hello []).inLen.toNat ∧
      OperandsValid (loaded { small with outCap := 4 } hello []) false) ∧
    (OperandsValid (loaded { small with outCap := 4 } hello (chars ['3'])) true ∧
      ReadsAsInteger (loaded { small with outCap := 4 } hello (chars ['3'])).keyText (3 : Nat)) ∧
    (OperandsValid (loaded { small with outCap := 4 } hello secret) true ∧
      (∀ c ∈ (loaded { small with outCap := 4 } hello secret).keyText, IsLetter c) ∧
      (loaded { small with outCap := 4 } hello secret).inText.length ≤
        (loaded { small with outCap := 4 } hello secret).keyText.length ∧
      ∀ j, j < 5 → (loaded { small with outCap := 4 } hello secret).inText.getD j 0 ^^^
        (loaded { small with outCap := 4 } hello secret).keyText.getD j 0 ≤ maxCodePoint) ∧
    (Params.Legal { small with outCap := 43 } ∧
      OperandsValid (loaded { small with outCap := 43 } hello secret (countingIv 16)) true ∧
      KeyAccepted .blkaEnc (loaded { small with outCap := 43 } hello secret (countingIv 16)) ∧
      NoSurrogates (loaded { small with outCap := 43 } hello secret (countingIv 16)).inText ∧
      43 < encryptedLength 16 (utf8Length (loaded { small with outCap := 43 } hello secret (countingIv 16)).inText)) ∧
    Params.Legal { small with outCap := 23 } ∧
      OperandsValid (loaded { small with outCap := 23 } hello secret (countingIv 8)) true ∧
      KeyAccepted .blkbEnc (loaded { small with outCap := 23 } hello secret (countingIv 8)) ∧
      23 < encryptedLength 8 (utf8Length (loaded { small with outCap := 23 } hello secret (countingIv 8)).inText) :=
  ⟨⟨by decide, by decide, ⟨by decide, by decide, by decide +kernel, by simp⟩⟩,
    ⟨⟨by decide, by decide, by decide +kernel, fun _ => by decide +kernel⟩, by
      have h : (loaded { small with outCap := 4 } hello (chars ['3'])).keyText = chars ['3'] := by decide +kernel
      rw [h]
      exact threeIsThree⟩,
    ⟨⟨by decide, by decide, by decide +kernel, fun _ => by decide +kernel⟩, by decide +kernel, by decide +kernel,
      by decide +kernel⟩,
    ⟨by decide, ⟨by decide, by decide, by decide +kernel, fun _ => by decide +kernel⟩, ⟨by decide +kernel, nofun⟩,
      by decide +kernel, by decide +kernel⟩,
    by decide, ⟨by decide, by decide, by decide +kernel, fun _ => by decide +kernel⟩, ⟨by decide +kernel, nofun⟩,
    by decide +kernel⟩

/-- BLKA.DEC of a text of five characters, where OUT has four cells. -/
theorem witness_OversizeOutputIsCapacityError_decrypt :
    Params.Legal { small with outCap := 4 } ∧ OperandsValid (loaded { small with outCap := 4 } ba1 secret) true ∧
      (loaded { small with outCap := 4 } ba1 secret).keyText ≠ [] ∧
      KeyAccepted .blkaDec (loaded { small with outCap := 4 } ba1 secret) ∧
      (transported (loaded { small with outCap := 4 } ba1 secret).inText).length = 32 ∧
      EndsInPad 16 (paddedPlaintext (loaded { small with outCap := 4 } ba1 secret) 16 16 (decryptA .reference)
        (transported (loaded { small with outCap := 4 } ba1 secret).inText)) [72, 101, 108, 108, 111] ∧
      (utf8Decode [72, 101, 108, 108, 111]).toOption = some hello ∧ 4 < hello.length :=
  ⟨by decide, ⟨by decide, by decide, by decide +kernel, fun _ => by decide +kernel⟩, by decide +kernel,
    ⟨by decide +kernel, nofun⟩, by decide +kernel, ⟨11, by decide, by decide, by decide +kernel⟩, by decide +kernel,
    by decide⟩

/-- The least legal number of rails. -/
theorem witness_RailRowFollowsTheWalk : 1 ≤ 1 := by decide

/-- The ends of the four ranges of R112, and a text that UTF-8 cannot encode. -/
theorem witness_Utf8DecodeInvertsEncode :
    (∀ c ∈ [0x00, 0x7F, 0x80, 0x7FF, 0x800, 0xD7FF, 0xE000, 0xFFFF, 0x10000, 0x10FFFF],
      c ≤ maxCodePoint ∧ isSurrogate c = false) ∧
    (utf8Encode [0x7F, 0x80, 0x7FF, 0x800, 0xFFFF, 0x10000, 0x10FFFF]).toOption =
      some [0x7F#8, 0xC2#8, 0x80#8, 0xDF#8, 0xBF#8, 0xE0#8, 0xA0#8, 0x80#8, 0xEF#8, 0xBF#8, 0xBF#8, 0xF0#8, 0x90#8, 0x80#8,
        0x80#8, 0xF4#8, 0x8F#8, 0xBF#8, 0xBF#8] ∧ (∃ c ∈ [0xDFFF], isSurrogate c = true) := by decide

/-- "Zh==" of E8 in the grammar: two characters of values 25 and 33, two "=", and low bits that are not 0. -/
theorem witness_Base64DecodeInvertsEncode : Base64Grammar (chars ['Z', 'h', '=', '=']) [25, 33] 2 ∧
    [0x66#8].length + 2 = 3 * (4 / 4) ∧ 0x66 = (64 * 25 + 33) / 4 ^ 2 ∧ ¬ ∃ vs n, Base64Grammar [0x5A] vs n :=
  ⟨⟨rfl, by decide, chars ['Z', 'h'], rfl, .cons (.inl ⟨by decide, rfl⟩) (.cons (.inr (.inl ⟨by decide, by decide, rfl⟩)) .nil)⟩,
    rfl, rfl, fun ⟨_, _, h, _⟩ => by cases h⟩

/-- The ends of the block lengths, and bytes at the edge of each refusal: a last byte 0, one above the block, and a pad whose
first byte differs. -/
theorem witness_UnpadInvertsPad : ((1 ≤ 1 ∧ 1 ≤ 255) ∧ 1 ≤ 255 ∧ 255 ≤ 255) ∧
    [raised (unpad [] 2), raised (unpad [1] 2), raised (unpad [7, 0] 2), raised (unpad [3, 3] 2), raised (unpad [1, 2] 2)] =
      List.replicate 5 (some .paddingError) ∧ (unpad [2, 2] 2).toOption = some [] := by decide

theorem witness_BlockCipherAInverts : (countingIv 16).length = 16 := by decide

theorem witness_BlockCipherBInverts : (countingIv 24).length = 24 ∧ (countingIv 8).length = 8 := by decide

/-- The exclusive or with a constant is its own inverse and keeps the length; two blocks. -/
theorem witness_CbcDecryptInvertsEncrypt :
    (∀ x : Bytes, x.length = 8 → (x.map (· ^^^ 0x5A#8)).map (· ^^^ 0x5A#8) = x ∧ (x.map (· ^^^ 0x5A#8)).length = 8) ∧
      (countingIv 8).length = 8 ∧ (pad (countingIv 8) 8).length % 8 = 0 ∧ 1 < (pad (countingIv 8) 8).length / 8 := by
  refine ⟨fun x hx => ⟨?_, by simpa using hx⟩, by decide, by decide, by decide⟩
  rw [List.map_map]
  conv_rhs => rw [← List.map_id x]
  exact List.map_congr_left fun b _ => by simp

theorem witness_AcceptedStartEffect :
    (facing (loaded small hello secret) [.write (small.base + 0x04) 4 5]).busy = false ∧ (5#32).getLsbD 0 = true ∧
      (5#32).getLsbD 1 = false := by decide

theorem witness_StartWhileBusyIsDropped :
    (facing (running (loaded small hello secret) 1) [.write (small.base + 0x04) 4 1]).busy = true ∧
      (1#32).getLsbD 0 = true ∧ (1#32).getLsbD 1 = false := by decide

theorem witness_ResetSetsEveryState :
    (∃ t, step (facing (running (loaded small hello secret) 1) [.write (small.base + 0x04) 4 7]) = .next t ∧
      (7#32).getLsbD 1 = true) ∧
    ∃ t, step (facing (running (loaded small hello secret) 1) [.hardwareReset]) = .next t := by
  refine ⟨⟨nextOf (step (facing (running (loaded small hello secret) 1) [.write (small.base + 0x04) 4 7])), by rfl,
    by decide⟩, ⟨_, rfl⟩⟩

/-- The last cell of each buffer, and the registers. -/
theorem witness_WritesWhileBusyAreDropped :
    (facing (running (loaded small hello secret) 1) [.write (small.base + 0x100FC) 4 9]).busy = true ∧ 63 < small.inCap ∧
      0x100FC = 0x10000 + 4 * 63 ∧ 5 < small.keyCap ∧ 0x20014 = 0x20000 + 4 * 5 := by decide

theorem witness_RegisterWritesStoreAllBits :
    (facing (loaded small hello secret) [.write (small.base + 0x08) 4 0xFFFFFFFF]).busy = false ∧
      (facing (running (loaded small hello secret) 1) [.write (small.base + 0x04) 4 0xFFFFFFFC]).busy = true ∧
      (0xFFFFFFFC#32).getLsbD 0 = false ∧ (0xFFFFFFFC#32).getLsbD 1 = false := by decide

theorem witness_CellWriteIsReadBack :
    (facing (loaded small hello secret)
      [.write (small.base + 0x20014) 4 9, .read (small.base + 0x20014) 4]).busy = false ∧
      5 < small.keyCap ∧ 0x20014 = 0x20000 + 4 * 5 ∧ 63 < small.inCap := by decide

/-- The edges of each ignored range of the small configuration. -/
theorem witness_IgnoredWritesChangeNothing :
    small.Legal ∧ ∀ off ∈ [0x00, 0x10, 0x1C, 0xFFFC, 0x10000 + 4 * 64, 0x1FFFC, 0x20000 + 4 * 6, 0x2FFFC, 0x30000, 0x3FFFC],
      off % 4 = 0 ∧ off < 0x40000 ∧ (off = 0x00 ∨ off = 0x10 ∨ (0x1C ≤ off ∧ off < 0x10000) ∨
        (0x10000 + 4 * small.inCap ≤ off ∧ off < 0x20000) ∨ (0x20000 + 4 * small.keyCap ≤ off ∧ off < 0x30000) ∨
        0x30000 ≤ off) := by decide

theorem witness_StatusBitsClearByWritingOne :
    (facing (loaded small hello secret) [.write (small.base + 0x0C) 4 0xF]).pending =
      .write ((loaded small hello secret).params.base + 0x0C) 4 0xF :: [] := rfl

theorem witness_RegisterReadsReturnTheirFields :
    (facing (loaded small hello secret) [.read (small.base + 0x28) 4]).pending =
      .read ((loaded small hello secret).params.base + 0x28) 4 :: [] := rfl

/-- A reserved offset, the cells just above the capacities, OUT cells while BUSY and not, and the last IN and KEY cells. -/
theorem witness_WindowReadsFollowTheMap :
    small.Legal ∧ (∀ off ∈ [0x2C, 0x10000 + 4 * 64, 0x20000 + 4 * 6, 0x30000 + 4 * 64, 0x30000, 0x100FC, 0x20014],
      off % 4 = 0 ∧ off < 0x40000) ∧ 63 < small.inCap ∧ 0x100FC = 0x10000 + 4 * 63 ∧ 5 < small.keyCap ∧
      0x20014 = 0x20000 + 4 * 5 := by decide

/-- A wide access at an aligned offset, and a word access at an unaligned one, at the ends of the aperture. -/
theorem witness_RefusedAccessIsBusError :
    (0x00 < 0x40000 ∧ (8 ≠ 4 ∨ 0x00 % 4 ≠ 0)) ∧ 0x3FFFF < 0x40000 ∧ (4 ≠ 4 ∨ 0x3FFFF % 4 ≠ 0) ∧
    (match step (facing (loaded small hello secret) [.write (small.base + 0x3FFFF) 4 1]) with
      | .next t => t.response == .busError | _ => false) = true := by decide +kernel

theorem witness_ReadsHaveNoSideEffect :
    ∃ t, step (facing (loaded small hello secret) [.read small.base 4]) = .next t :=
  ⟨nextOf (step (facing (loaded small hello secret) [.read small.base 4])), by rfl⟩

/-- A write while BUSY, after which BUSY is still 1. -/
theorem witness_OperandsAreFixedWhileBusy :
    ∃ t, step (facing (running (loaded small hello secret) 1) [.write (small.base + 0x08) 4 2]) = .next t ∧
      t.busy = true :=
  ⟨nextOf (step (facing (running (loaded small hello secret) 1) [.write (small.base + 0x08) 4 2])), by rfl,
    by decide +kernel⟩

/-- A completion, by which BUSY ends and DONE rises. -/
theorem witness_BusyEndsByCompletionOrReset :
    ∃ t, (running (loaded small hello secret) 4).busy = true ∧
      step (running (loaded small hello secret) 4) = .next t ∧ t.busy = false := ⟨_, rfl, rfl, rfl⟩

theorem witness_DoneRisesOnlyByCompletion :
    ∃ t, step (running (loaded small hello secret) 4) = .next t ∧ (running (loaded small hello secret) 4).done = false ∧
      t.done = true := ⟨_, rfl, rfl, rfl⟩

/-- A core with three OUT cells that has answered the text "z", about to be read. -/
def answered : State :=
  { State.reset with
    params := { small with outCap := 3 }
    done := true
    outLen := 1
    mem := [(0x10000, 0x61), (0x30000, 0x7A)]
    inLen := 1
    pending := [.read (small.base + 0x30000) 4] }

theorem witness_StepKeepsTheInvariant : answered.Inv ∧ ∃ t, step answered = .next t := by
  refine ⟨⟨by decide, by decide, by decide, by decide, by decide, ?_, ?_, by decide⟩, nextOf (step answered), by rfl⟩
  · intro _ i h1 h2
    have h3 : i = 1 ∨ i = 2 := by
      have : i < 3 := h2
      have : 1 ≤ i := h1
      omega
    rcases h3 with rfl | rfl <;> decide +kernel
  · intro i h2
    have h3 : i = 0 ∨ i = 1 ∨ i = 2 := by
      have : i < 3 := h2
      omega
    rcases h3 with rfl | rfl | rfl <;> decide +kernel

end Sys2Proof.Tests
end

section
/-! Host accesses that the core refuses (spec/20_memory.md R64): the answer is BusError and nothing of the core changes. -/

namespace Sys2Proof.Machine

theorem accessAccepted_eq_false {off size : Nat} (h : size ≠ 4 ∨ off % 4 ≠ 0) : accessAccepted off size = false := by
  rw [Bool.eq_false_iff, ne_eq, accessAccepted_iff]
  omega

/-- `HostRead` of R64 on an access of a refused width or alignment. -/
theorem hostRead_of_refused (s : State) {off size : Nat} (h : size ≠ 4 ∨ off % 4 ≠ 0) :
    s.hostRead (s.params.base + off) size = { s with response := .busError } := by
  simp only [State.hostRead, Nat.add_sub_cancel_left, accessAccepted_eq_false h, Bool.false_eq_true, if_false]

/-- `HostWrite` of R64 on an access of a refused width or alignment. -/
theorem hostWrite_of_refused (s : State) {off size : Nat} (v : Word) (h : size ≠ 4 ∨ off % 4 ≠ 0) :
    s.hostWrite (s.params.base + off) size v = { s with response := .busError } := by
  simp only [State.hostWrite, Nat.add_sub_cancel_left, accessAccepted_eq_false h, Bool.false_eq_true, if_false]

/-- A read in the aperture is answered by `HostRead`. -/
theorem applyEvent_read (s : State) {off : Nat} (size : Nat) (ho : off < Config.apertureSize) :
    s.applyEvent (.read (s.params.base + off) size) = .next (s.hostRead (s.params.base + off) size) :=
  if_pos (reaches_offset ho)

/-- A write in the aperture is answered by `HostWrite`. -/
theorem applyEvent_write (s : State) {off : Nat} (size : Nat) (v : Word) (ho : off < Config.apertureSize) :
    s.applyEvent (.write (s.params.base + off) size v) = .next (s.hostWrite (s.params.base + off) size v) :=
  if_pos (reaches_offset ho)

/-- Settles O53: the step applies the event, the address reaches the core, and the core refuses a read and a write alike. -/
theorem refusedAccessIsBusError : Obligations.RefusedAccessIsBusError := by
  intro s off size v es ho hr hp
  rcases hp with hread | hwrite
  · rw [step_of_event hread nofun]
    exact (applyEvent_read _ size ho).trans (congrArg _ (hostRead_of_refused _ hr))
  · rw [step_of_event hwrite nofun]
    exact (applyEvent_write _ size v ho).trans (congrArg _ (hostWrite_of_refused _ v hr))

end Sys2Proof.Machine
end

section
/-! Command words (spec/30_encoding.md R90 to R94): the decoder and the encoder, field by field. The word of a command is
the only word that decodes to it, so the valid words are those of the fourteen commands. -/

namespace Sys2Proof

/-! ### Fields of a word (R90) -/

/-- Bit `n` of a word with given fields. -/
theorem getLsbD_wordOfFields (f : CommandFields) (n : Nat) : (wordOfFields f).getLsbD n =
    if n < 4 then f.alg.getLsbD n else if n - 4 < 1 then f.dir.getLsbD (n - 4) else f.rsv.getLsbD (n - 4 - 1) :=
  BitVec.getLsbD_append.trans (by rw [BitVec.getLsbD_append])

/-- A word is its fields. -/
theorem wordOfFields_fieldsOf (w : Word) : wordOfFields (fieldsOf w) = w := by
  apply BitVec.eq_of_getLsbD_eq
  intro n hn
  rw [getLsbD_wordOfFields]
  simp only [fieldsOf, BitVec.getLsbD_extractLsb']
  split
  next halg => simp [halg]
  next halg =>
    split
    next hdir => simp [hdir, show 4 + (n - 4) = n by omega]
    next hdir => simp [show n - 4 - 1 < 27 by omega, show 5 + (n - 4 - 1) = n by omega]

/-- The fields of a word are those it is made of. -/
@[simp] theorem fieldsOf_wordOfFields (f : CommandFields) : fieldsOf (wordOfFields f) = f := by
  have hrsv : (fieldsOf (wordOfFields f)).rsv = f.rsv := BitVec.eq_of_getLsbD_eq fun n hn => by
    simp [fieldsOf, getLsbD_wordOfFields, hn, show ¬ 5 + n < 4 by omega, show ¬ 5 + n - 4 < 1 by omega,
      show 5 + n - 4 - 1 = n by omega]
  have hdir : (fieldsOf (wordOfFields f)).dir = f.dir := BitVec.eq_of_getLsbD_eq fun n hn => by
    simp [fieldsOf, getLsbD_wordOfFields, hn]
  have halg : (fieldsOf (wordOfFields f)).alg = f.alg := BitVec.eq_of_getLsbD_eq fun n hn => by
    simp [fieldsOf, getLsbD_wordOfFields, hn]
  exact congr (congr (congrArg CommandFields.mk hrsv) hdir) halg

theorem fieldsOf_eq_iff {w : Word} {f : CommandFields} : fieldsOf w = f ↔ w = wordOfFields f := by
  constructor
  · rintro rfl
    exact (wordOfFields_fieldsOf w).symm
  · rintro rfl
    exact fieldsOf_wordOfFields f

/-! ### Codes of algorithms and operations (R91, R92) -/

@[simp] theorem algOf_code (a : Alg) : algOf a.code = some a := by cases a <;> rfl

/-- An assigned ALG code is the code of its algorithm. -/
theorem code_of_algOf {c : BitVec 4} {a : Alg} (h : algOf c = some a) : a.code = c := by
  have assigned : ∀ c : BitVec 4, ∀ a ∈ algOf c, a.code = c := by decide
  exact assigned c a h

@[simp] theorem dirOf_code (d : Dir) : dirOf d.code = d := by cases d <;> rfl

@[simp] theorem code_dirOf : ∀ d : BitVec 1, (dirOf d).code = d := by decide

/-! ### The dispatch table (R194) -/

@[simp] theorem Instr.of_alg_dir (i : Instr) : Instr.of i.alg i.dir = i := by cases i <;> rfl

@[simp] theorem Instr.fields_of (a : Alg) (d : Dir) :
    (Instr.of a d).fields = { rsv := 0, dir := d.code, alg := a.code } := by
  cases a <;> cases d <;> rfl

/-! ### The decoder (R94) -/

/-- A word decodes to a command exactly when its fields are the command's. -/
theorem decode_eq_ok_iff_fields {w : Word} {i : Instr} : decode w = .ok i ↔ fieldsOf w = i.fields := by
  constructor
  · intro h
    simp only [decode] at h
    split at h
    · cases h
    next hrsv =>
      split at h
      · cases h
      next a halg =>
        cases h
        rw [Instr.fields_of, code_dirOf, code_of_algOf halg, ← not_not.mp hrsv]
  · intro h
    simp [decode, h, Instr.fields]

/-- The word of a command, and no other, decodes to it. -/
theorem decode_eq_ok_iff {w : Word} {i : Instr} : decode w = .ok i ↔ w = encode i :=
  decode_eq_ok_iff_fields.trans fieldsOf_eq_iff

/-! ### The table of command words (R93) -/

/-- The fourteen commands, in the order of the rows of R93. -/
def allCommands : List Instr :=
  [.shiftEnc, .shiftDec, .vigEnc, .vigDec, .otpEnc, .otpDec, .atbashEnc, .atbashDec, .railEnc, .railDec,
    .blkaEnc, .blkaDec, .blkbEnc, .blkbDec]

theorem mem_allCommands (i : Instr) : i ∈ allCommands := by cases i <;> decide

theorem mem_commandTable_iff {w : Word} {i : Instr} :
    (w, i) ∈ allCommands.map (fun j => (encode j, j)) ↔ w = encode i := by
  simp only [List.mem_map, Prod.mk.injEq]
  constructor
  · rintro ⟨j, -, rfl, rfl⟩
    rfl
  · rintro rfl
    exact ⟨i, mem_allCommands i, rfl, rfl⟩

/-- Settles O2: the rows of R93 are, by evaluation of the encoder, the commands with their words, and only its word decodes
to a command. -/
theorem validWordsAreExactlyFourteen : Obligations.ValidWordsAreExactlyFourteen := by
  intro w i
  show decode w = .ok i ↔ (w, i) ∈ allCommands.map fun j => (encode j, j)
  exact decode_eq_ok_iff.trans mem_commandTable_iff.symm

end Sys2Proof
end

section
/-! The decimal key parser (spec/40_codec.md R117): `parseInt` splits a text into spaces, sign, digits and spaces as the
grammar does. A digit is neither a space nor a sign, so that the split is the only one. -/

namespace Sys2Proof.Machine

/-! ### The parser (R117) -/

/-- The integer of a digit string after a sign: negated after "-". -/
def signedDecimal (neg : Bool) (ds : Text) : Int := if neg then -(decimal ds : Int) else (decimal ds : Int)

/-- When `ParseInt` answers, and with what. -/
theorem parseInt_eq_ok_iff {s : Text} {n : Int} : parseInt s = .ok n ↔
    ∃ neg body, splitSign (s.dropWhile isSpace) = (neg, body) ∧ body.takeWhile isDigit ≠ [] ∧
      (∀ c ∈ body.dropWhile isDigit, isSpace c = true) ∧ n = signedDecimal neg (body.takeWhile isDigit) := by
  obtain ⟨neg, body, hsplit⟩ : ∃ neg body, splitSign (s.dropWhile isSpace) = (neg, body) := ⟨_, _, rfl⟩
  simp only [parseInt, hsplit, Prod.mk.injEq, and_assoc, exists_and_left, exists_eq_left', List.isEmpty_iff,
    Bool.not_eq_true', List.isEmpty_eq_false_iff, ← List.dropWhile_eq_nil_iff]
  split
  next hdigits => simp only [hdigits, reduceCtorEq, ne_eq, not_true_eq_false, false_and]
  next hdigits =>
    split
    next hafter => simp only [hafter, reduceCtorEq, false_and, and_false]
    next hafter => simp only [hdigits, not_not.mp hafter, signedDecimal, ne_eq, not_false_eq_true, true_and,
      Except.ok.injEq, eq_comm]

/-- The only error of `ParseInt`. -/
theorem parseInt_eq_ok_or_invalidKey (s : Text) : (∃ n, parseInt s = .ok n) ∨ parseInt s = .error .invalidKey := by
  simp only [parseInt]
  split
  · exact .inr rfl
  · split
    · exact .inr rfl
    · exact .inl ⟨_, rfl⟩

/-! ### Digits -/

/-- The parser's fold reads a digit string as the number it writes in base ten. -/
theorem decimal_eq_ofDigits (ds : Text) : decimal ds = Nat.ofDigits 10 (ds.reverse.map (· - 0x30)) := by
  rw [Nat.ofDigits_eq_foldr, List.foldr_map, List.foldr_reverse]
  simp only [decimal, Nat.cast_id, Nat.add_comm]

theorem isDigit_iff {c : Nat} : isDigit c = true ↔ 0x30 ≤ c ∧ c ≤ 0x39 := by simp [isDigit]

theorem isSpace_iff {c : Nat} : isSpace c = true ↔ c = 0x20 ∨ 0x09 ≤ c ∧ c ≤ 0x0D := by simp [isSpace]

theorem not_isSpace_of_isDigit {c : CodePoint} (h : isDigit c = true) : ¬ isSpace c = true := by
  rw [isDigit_iff] at h
  rw [isSpace_iff]
  omega

/-! ### Signs -/

/-- A text is the sign of the grammar, "-" when `neg` holds and "+" or nothing when not. -/
def IsSign (sign : Text) (neg : Bool) : Prop :=
  (sign = [] ∨ sign = [0x2B]) ∧ neg = false ∨ sign = [0x2D] ∧ neg = true

/-- The sign and the body that `splitSign` finds make up its text. -/
theorem splitSign_sound {t body : Text} {neg : Bool} (h : splitSign t = (neg, body)) :
    ∃ sign, IsSign sign neg ∧ t = sign ++ body := by
  cases t with
  | nil =>
    cases h
    exact ⟨[], .inl ⟨.inl rfl, rfl⟩, rfl⟩
  | cons c t =>
    simp only [splitSign] at h
    split at h
    next hminus =>
      cases h
      exact ⟨[0x2D], .inr ⟨rfl, rfl⟩, by rw [hminus]; rfl⟩
    next =>
      split at h
      next hplus =>
        cases h
        exact ⟨[0x2B], .inl ⟨.inr rfl, rfl⟩, by rw [hplus]; rfl⟩
      next =>
        cases h
        exact ⟨[], .inl ⟨.inl rfl, rfl⟩, rfl⟩

section
variable {sign : Text} {neg : Bool} {d : CodePoint}

/-- A sign before a digit is not skipped as a space, and neither is the digit. -/
theorem dropWhile_isSpace_sign (hsign : IsSign sign neg) (hd : isDigit d = true) (t : Text) :
    (sign ++ d :: t).dropWhile isSpace = sign ++ d :: t := by
  obtain ⟨rfl | rfl, -⟩ | ⟨rfl, -⟩ := hsign
  · exact List.dropWhile_cons_of_neg (not_isSpace_of_isDigit hd)
  · rfl
  · rfl

/-- `splitSign` finds the sign that stands before a digit. -/
theorem splitSign_sign (hsign : IsSign sign neg) (hd : isDigit d = true) (t : Text) :
    splitSign (sign ++ d :: t) = (neg, d :: t) := by
  obtain ⟨rfl | rfl, rfl⟩ | ⟨rfl, rfl⟩ := hsign
  · have hminus : d ≠ 0x2D := by rintro rfl; cases hd
    have hplus : d ≠ 0x2B := by rintro rfl; cases hd
    simp [splitSign, hminus, hplus]
  · rfl
  · rfl

end

/-! ### The grammar (R117) -/

/-- The grammar with the parser's value: spaces, a sign, digits, spaces. -/
theorem readsAsInteger_iff {s : Text} {n : Int} : ReadsAsInteger s n ↔
    ∃ before sign digits after neg, s = before ++ (sign ++ (digits ++ after)) ∧
      (∀ c ∈ before, isSpace c = true) ∧ (∀ c ∈ after, isSpace c = true) ∧
      digits ≠ [] ∧ (∀ c ∈ digits, isDigit c = true) ∧ IsSign sign neg ∧ n = signedDecimal neg digits := by
  simp only [ReadsAsInteger, ← decimal_eq_ofDigits, List.append_assoc, IsSign, Bool.exists_bool, signedDecimal]
  simp [← and_or_left]

/-- The text after the digits, when it is spaces, begins with no digit. -/
theorem takeWhile_isDigit_of_forall_isSpace {t : Text} (h : ∀ c ∈ t, isSpace c = true) : t.takeWhile isDigit = [] := by
  cases t with
  | nil => rfl
  | cons c t => exact List.takeWhile_cons_of_neg fun hd => not_isSpace_of_isDigit hd (h c List.mem_cons_self)

theorem takeWhile_isDigit_append {digits after : Text} (hdigits : ∀ c ∈ digits, isDigit c = true)
    (hafter : ∀ c ∈ after, isSpace c = true) : (digits ++ after).takeWhile isDigit = digits := by
  rw [List.takeWhile_append_of_pos hdigits, takeWhile_isDigit_of_forall_isSpace hafter, List.append_nil]

/-- What the parser accepts is of the grammar: the parts are those it cuts the text into. -/
theorem readsAsInteger_of_parseInt {s : Text} {n : Int} (h : parseInt s = .ok n) : ReadsAsInteger s n := by
  obtain ⟨neg, body, hsplit, hne, hafter, hn⟩ := parseInt_eq_ok_iff.mp h
  obtain ⟨sign, hsign, hrest⟩ := splitSign_sound hsplit
  have hs : s = s.takeWhile isSpace ++ (sign ++ (body.takeWhile isDigit ++ body.dropWhile isDigit)) := by
    rw [List.takeWhile_append_dropWhile, ← hrest, List.takeWhile_append_dropWhile]
  exact readsAsInteger_iff.mpr ⟨_, sign, _, _, neg, hs, fun _ => List.mem_takeWhile_imp, hafter, hne,
    fun _ => List.mem_takeWhile_imp, hsign, hn⟩

/-- What is of the grammar is accepted, with its value: the parser cuts the text where the grammar does. -/
theorem parseInt_of_readsAsInteger {s : Text} {n : Int} (h : ReadsAsInteger s n) : parseInt s = .ok n := by
  obtain ⟨before, sign, digits, after, neg, rfl, hbefore, hafter, hne, hdigits, hsign, rfl⟩ := readsAsInteger_iff.mp h
  obtain ⟨d, ds, rfl⟩ := List.exists_cons_of_ne_nil hne
  have hd : isDigit d = true := hdigits d List.mem_cons_self
  have hsplit : splitSign ((before ++ (sign ++ (d :: ds ++ after))).dropWhile isSpace) = (neg, d :: ds ++ after) := by
    rw [List.dropWhile_append_of_pos hbefore, List.cons_append, dropWhile_isSpace_sign hsign hd, splitSign_sign hsign hd]
  have htake : (d :: ds ++ after).takeWhile isDigit = d :: ds := takeWhile_isDigit_append hdigits hafter
  have hspaces : ∀ c ∈ (d :: ds ++ after).dropWhile isDigit, isSpace c = true := by
    rw [List.dropWhile_append_of_pos hdigits]
    exact fun c hc => hafter c (List.dropWhile_subset _ hc)
  exact parseInt_eq_ok_iff.mpr ⟨neg, _, hsplit, htake.trans_ne hne, hspaces, congrArg _ htake.symm⟩

/-- Settles O36: parser and grammar cut a text into the same parts, and the parser has no other error. -/
theorem parseIntAcceptsExactlyTheGrammar : Obligations.ParseIntAcceptsExactlyTheGrammar := by
  intro s
  refine ⟨fun n => ⟨readsAsInteger_of_parseInt, parseInt_of_readsAsInteger⟩, fun hnone => ?_⟩
  rcases parseInt_eq_ok_or_invalidKey s with ⟨n, hok⟩ | herror
  · exact absurd ⟨n, readsAsInteger_of_parseInt hok⟩ hnone
  · exact herror

end Sys2Proof.Machine
end

section
/-! The completion step of a command that draws no IV (spec/43_dispatch.md R192 to R196), from the answer of its body: a text
that fits OUT, or an error. -/

namespace Sys2Proof.Machine

@[simp] theorem length_inText (s : State) : s.inText.length = s.inLen.toNat := by simp [State.inText]

section
variable {i : Instr} {s : State} {keyRead : Bool} {body : Text → Text → Except ErrorKind Text}

/-- A command whose body answers a text that fits OUT completes with it. -/
theorem runsTo_of_body_eq_ok {o : Text} (hexec : exec i s = s.runBody keyRead body) (hp : s.params.Legal)
    (hv : OperandsValid s keyRead) (hbody : body s.inText s.keyText = .ok o) (hfit : o.length ≤ s.params.outCap) :
    RunsTo i s o := by
  have hout : s.outcome keyRead body = .ok o := (outcome_ok_iff ..).mpr ⟨hv, hbody, hfit⟩
  exact ⟨s.completeOk o, by rw [hexec, runBody_next, hout, complete_ok], completeOk_completed hp hfit, rfl⟩

/-- A command whose body answers an error completes with it. -/
theorem failsWith_of_body_eq_error {e : ErrorKind} (hexec : exec i s = s.runBody keyRead body) (hp : s.params.Legal)
    (hv : OperandsValid s keyRead) (hbody : body s.inText s.keyText = .error e) : FailsWith i s e := by
  have hout : s.outcome keyRead body = .error e := outcome_error_of_body hv hbody
  exact ⟨s.completeError e, by rw [hexec, runBody_next, hout, complete_error], completeError_completed e hp, rfl⟩

end

end Sys2Proof.Machine
end

section
/-! The letter ciphers (spec/41_classical.md R140 to R148): a shift by a number is the rotation of R141 by any integer that
is the same modulo 26, which serves the offset, the key letters and both negations. -/

namespace Sys2Proof.Machine

/-! ### Classes of letters (R111) -/

theorem isUpper_iff {c : Nat} : isUpper c = true ↔ 0x41 ≤ c ∧ c ≤ 0x5A := by simp [isUpper]

theorem isLower_iff {c : Nat} : isLower c = true ↔ 0x61 ≤ c ∧ c ≤ 0x7A := by simp [isLower]

theorem isLetter_iff {c : CodePoint} : isLetter c = true ↔ IsLetter c := by
  rw [isLetter, Bool.or_eq_true, isUpper_iff, isLower_iff]

/-- The alphabetic position counts from "A" or from "a" (R143). -/
theorem letterPosition_cases {c : Nat} (h : IsLetter c) :
    (0x41 ≤ c ∧ c ≤ 0x5A ∧ letterPosition c = c - 0x41) ∨ (0x61 ≤ c ∧ c ≤ 0x7A ∧ letterPosition c = c - 0x61) := by
  rcases h with ⟨hlo, hhi⟩ | ⟨hlo, hhi⟩
  · exact .inl ⟨hlo, hhi, if_neg (Nat.not_le.mpr (Nat.lt_of_le_of_lt hhi (by decide)))⟩
  · exact .inr ⟨hlo, hhi, if_pos hlo⟩

/-! ### One character -/

/-- `ShiftChar` (R140) rotates by any integer that leaves the remainder of its shift. -/
theorem shiftChar_eq_rotateLetter {n : Nat} {off : Int} (h : (n : Int) ≡ off [ZMOD 26]) (c : Nat) :
    shiftChar c n = rotateLetter off c := by
  have hmod : (n : Int) % 26 = off % 26 := h
  simp only [shiftChar, rotateLetter, isLower_iff, isUpper_iff, Config.alphabetSize]
  split
  · show (_ : Nat) = _
    omega
  · split
    · show (_ : Nat) = _
      omega
    · rfl

/-- An offset and its shift of 0 to 25 have the same remainder (R141). -/
theorem shiftOf_modEq (off : Int) : (shiftOf off : Int) ≡ off [ZMOD 26] := by
  rw [shiftOf, Int.toNat_of_nonneg (Int.emod_nonneg off (by decide))]
  exact Int.mod_modEq off 26

/-- The shift of a key letter is its alphabetic position (R143). -/
theorem keyShift_eq_letterPosition {c : Nat} (h : IsLetter c) : (keyShift c : Int) = letterPosition c := by
  have table : ∀ c < 0x7B, IsLetter c → (keyShift c : Int) = letterPosition c := by decide
  have hlt : c < 0x7B := by
    have hcases := letterPosition_cases h
    omega
  exact table c hlt h

theorem keyShift_lt {c : Nat} (h : IsLetter c) : keyShift c < 26 := by
  have hpos := keyShift_eq_letterPosition h
  have hcases := letterPosition_cases h
  omega

/-- The shift that decrypts under a key letter is its position negated (R144). -/
theorem keyShift_complement_modEq {c : CodePoint} (h : IsLetter c) :
    (((Config.alphabetSize - keyShift c) % Config.alphabetSize : Nat) : Int) ≡ -letterPosition c [ZMOD 26] := by
  have hlt := keyShift_lt h
  rw [← keyShift_eq_letterPosition h]
  simp only [Int.ModEq, Config.alphabetSize]
  omega

/-- The map of Atbash (R147), with its classes and constants written out. -/
theorem atbashChar_eq (c : CodePoint) : atbashChar c =
    if 0x41 ≤ c ∧ c ≤ 0x5A then 155 - c else if 0x61 ≤ c ∧ c ≤ 0x7A then 219 - c else c := by
  simp only [atbashChar, isUpper_iff, isLower_iff, Config.atbashUpper, Config.atbashLower]

/-! ### Shift (R141, R142) -/

theorem parseInt_eq_error_of_not_reads {k : Text} (h : ¬ ∃ n, ReadsAsInteger k n) : parseInt k = .error .invalidKey :=
  (parseIntAcceptsExactlyTheGrammar k).2 h

theorem shiftEncrypt_eq_ok {k : Text} {off : Int} (t : Text) (h : ReadsAsInteger k off) :
    shiftEncrypt t k = .ok (t.map (rotateLetter off)) := by
  simp only [shiftEncrypt, parseInt_of_readsAsInteger h, shiftChar_eq_rotateLetter (shiftOf_modEq off)]

theorem shiftDecrypt_eq_ok {k : Text} {off : Int} (t : Text) (h : ReadsAsInteger k off) :
    shiftDecrypt t k = .ok (t.map (rotateLetter (-off))) := by
  simp only [shiftDecrypt, parseInt_of_readsAsInteger h, shiftChar_eq_rotateLetter (shiftOf_modEq (-off))]

theorem shiftEncrypt_eq_error {k : Text} (t : Text) (h : ¬ ∃ off, ReadsAsInteger k off) :
    shiftEncrypt t k = .error .invalidKey := by
  simp only [shiftEncrypt, parseInt_eq_error_of_not_reads h]

theorem shiftDecrypt_eq_error {k : Text} (t : Text) (h : ¬ ∃ off, ReadsAsInteger k off) :
    shiftDecrypt t k = .error .invalidKey := by
  simp only [shiftDecrypt, parseInt_eq_error_of_not_reads h]

/-- Settles O12: the shift of 0 to 25 has the remainder of the offset. -/
theorem shiftEncryptRotatesLetters : Obligations.ShiftEncryptRotatesLetters := by
  intro s hp hv
  exact ⟨fun off hkey hfit => runsTo_of_body_eq_ok rfl hp hv (shiftEncrypt_eq_ok _ hkey) (by simpa using hfit),
    fun hkey => failsWith_of_body_eq_error rfl hp hv (shiftEncrypt_eq_error _ hkey)⟩

/-- Settles O13: as O12, for the negated offset. -/
theorem shiftDecryptRotatesBack : Obligations.ShiftDecryptRotatesBack := by
  intro s hp hv
  exact ⟨fun off hkey hfit => runsTo_of_body_eq_ok rfl hp hv (shiftDecrypt_eq_ok _ hkey) (by simpa using hfit),
    fun hkey => failsWith_of_body_eq_error rfl hp hv (shiftDecrypt_eq_error _ hkey)⟩

/-! ### Vigenère (R143, R144) -/

/-- The shifts of a key text that is one or more letters. -/
theorem vigenereKey_eq_ok {k : Text} (hne : k ≠ []) (hletters : ∀ c ∈ k, IsLetter c) :
    vigenereKey k = .ok (k.map keyShift) := by
  have hall : k.all isLetter = true := List.all_eq_true.mpr fun c hc => isLetter_iff.mpr (hletters c hc)
  rw [vigenereKey, if_neg (by simpa using hne), if_pos hall]

theorem vigenereKey_eq_error {k : Text} (h : k = [] ∨ ∃ c ∈ k, ¬ IsLetter c) : vigenereKey k = .error .invalidKey := by
  rcases h with rfl | ⟨c, hc, hnot⟩
  · rfl
  · have hall : ¬ k.all isLetter = true := fun hall => hnot (isLetter_iff.mp (List.all_eq_true.mp hall c hc))
    rw [vigenereKey, if_neg hall, ite_self]

/-- `shiftAlong` takes the shift of each character from its position alone (R143). -/
theorem shiftAlong_eq_mapIdx (ks : List Nat) (i : Nat) (t : Text) :
    shiftAlong ks i t = t.mapIdx fun j c => shiftChar c (ks.getD ((i + j) % ks.length) 0) := by
  induction t generalizing i with
  | nil => rfl
  | cons c t ih => simp only [shiftAlong, ih, List.mapIdx_cons, Nat.add_zero, Nat.add_assoc, Nat.add_comm 1]

/-- The letter of a key at a position of the text is one of its letters. -/
theorem getD_mod_length_mem {k : Text} (hne : k ≠ []) (i : Nat) : k.getD (i % k.length) 0 ∈ k := by
  have hlt : i % k.length < k.length := Nat.mod_lt i (List.length_pos_iff.mpr hne)
  rw [List.getD_eq_getElem _ _ hlt]
  exact List.getElem_mem hlt

/-- Shifts that have the remainders of the offsets `off` of the key characters rotate by those offsets. -/
theorem shiftAlong_map_eq_rotate {k : Text} {shift : CodePoint → Nat} {off : CodePoint → Int} (t : Text) (hne : k ≠ [])
    (h : ∀ c ∈ k, (shift c : Int) ≡ off c [ZMOD 26]) :
    shiftAlong (k.map shift) 0 t = t.mapIdx fun i c => rotateLetter (off (k.getD (i % k.length) 0)) c := by
  have hshift (i : Nat) : (k.map shift).getD (i % k.length) 0 = shift (k.getD (i % k.length) 0) := by
    have hlt : i % k.length < k.length := Nat.mod_lt i (List.length_pos_iff.mpr hne)
    simp [List.getD_eq_getElem?_getD, hlt]
  simp only [shiftAlong_eq_mapIdx, Nat.zero_add, List.length_map, hshift]
  congr 1
  funext i c
  exact shiftChar_eq_rotateLetter (h _ (getD_mod_length_mem hne i)) c

section
variable {k : Text} (t : Text)

theorem vigenereEncrypt_eq_ok (hne : k ≠ []) (hletters : ∀ c ∈ k, IsLetter c) : vigenereEncrypt t k =
    .ok (t.mapIdx fun i c => rotateLetter (letterPosition (k.getD (i % k.length) 0)) c) := by
  have hshift : ∀ c ∈ k, (keyShift c : Int) ≡ letterPosition c [ZMOD 26] := fun c hc => by
    rw [keyShift_eq_letterPosition (hletters c hc)]
  simp only [vigenereEncrypt, vigenereKey_eq_ok hne hletters, shiftAlong_map_eq_rotate t hne hshift]

theorem vigenereDecrypt_eq_ok (hne : k ≠ []) (hletters : ∀ c ∈ k, IsLetter c) : vigenereDecrypt t k =
    .ok (t.mapIdx fun i c => rotateLetter (-letterPosition (k.getD (i % k.length) 0)) c) := by
  simp only [vigenereDecrypt, vigenereKey_eq_ok hne hletters, List.map_map]
  exact congrArg _ (shiftAlong_map_eq_rotate t hne fun c hc => keyShift_complement_modEq (hletters c hc))

theorem vigenereEncrypt_eq_error (h : k = [] ∨ ∃ c ∈ k, ¬ IsLetter c) : vigenereEncrypt t k = .error .invalidKey := by
  simp only [vigenereEncrypt, vigenereKey_eq_error h]

theorem vigenereDecrypt_eq_error (h : k = [] ∨ ∃ c ∈ k, ¬ IsLetter c) : vigenereDecrypt t k = .error .invalidKey := by
  simp only [vigenereDecrypt, vigenereKey_eq_error h]

end

/-- Settles O14: the shift of a key letter is its alphabetic position. -/
theorem vigenereEncryptUsesPositionalKey : Obligations.VigenereEncryptUsesPositionalKey := by
  intro s hp hv
  exact ⟨fun hne hletters hfit =>
      runsTo_of_body_eq_ok rfl hp hv (vigenereEncrypt_eq_ok _ hne hletters) (by simpa using hfit),
    fun hkey => failsWith_of_body_eq_error rfl hp hv (vigenereEncrypt_eq_error _ hkey)⟩

/-- Settles O15: the complement of a key letter's shift to 26 is its position negated, modulo 26. -/
theorem vigenereDecryptUsesPositionalKey : Obligations.VigenereDecryptUsesPositionalKey := by
  intro s hp hv
  exact ⟨fun hne hletters hfit =>
      runsTo_of_body_eq_ok rfl hp hv (vigenereDecrypt_eq_ok _ hne hletters) (by simpa using hfit),
    fun hkey => failsWith_of_body_eq_error rfl hp hv (vigenereDecrypt_eq_error _ hkey)⟩

/-! ### Atbash (R147, R148) -/

/-- Settles O17: both commands have the one body, which looks at no key. -/
theorem atbashReflectsLetters : Obligations.AtbashReflectsLetters := by
  intro i s hi hp hv hfit
  have hexec : exec i s = s.runBody false atbash := by rcases hi with rfl | rfl <;> rfl
  simp only [← atbashChar_eq]
  exact runsTo_of_body_eq_ok hexec hp hv rfl (by simpa using hfit)

end Sys2Proof.Machine
end

section
/-! The one-time pad (spec/41_classical.md R145, R146): the error checks in their order, and the exclusive or of the code
points by position. -/

namespace Sys2Proof.Machine

/-- The exclusive or by position, for a key at least as long as the text. -/
theorem zipWith_xor_eq_mapIdx {t k : Text} (h : t.length ≤ k.length) :
    List.zipWith (fun a b => a ^^^ b) t k = t.mapIdx fun j c => c ^^^ k.getD j 0 := by
  refine List.ext_getElem (by simpa using h) fun j hj _ => ?_
  have hk : j < k.length := List.lt_length_right_of_zipWith hj
  simp [hk]

theorem forall_mem_mapIdx_iff {f : Nat → CodePoint → CodePoint} {t : Text} {P : CodePoint → Prop} :
    (∀ c ∈ t.mapIdx f, P c) ↔ ∀ j, j < t.length → P (f j (t.getD j 0)) := by
  simp only [List.mem_mapIdx, forall_exists_index]
  constructor
  · intro h j hj
    rw [List.getD_eq_getElem _ _ hj]
    exact h _ j hj rfl
  · rintro h _ j hj rfl
    rw [← List.getD_eq_getElem _ 0 hj]
    exact h j hj

/-- The body of both commands (R145), its checks one after the other. -/
theorem oneTimePad_eq (t k : Text) : oneTimePad t k =
    if k = [] then .error .invalidKey
    else if k.length < t.length then .error .keyTooShort
    else if ∀ j, j < t.length → t.getD j 0 ^^^ k.getD j 0 ≤ maxCodePoint then
      .ok (t.mapIdx fun j c => c ^^^ k.getD j 0)
    else .error .encodingError := by
  simp only [oneTimePad, List.isEmpty_iff]
  refine ite_congr rfl (fun _ => rfl) fun _ => ite_congr rfl (fun _ => rfl) fun hlong => ?_
  rw [zipWith_xor_eq_mapIdx (Nat.le_of_not_lt hlong)]
  refine ite_congr (propext ?_) (fun _ => rfl) fun _ => rfl
  rw [allCharacters_iff, forall_mem_mapIdx_iff]

/-- Settles O16: both commands have the one body, whose checks stand in the order of the statement. -/
theorem oneTimePadXorsCodePoints : Obligations.OneTimePadXorsCodePoints := by
  intro i s hi hp hv
  have hexec : exec i s = s.runBody true oneTimePad := by rcases hi with rfl | rfl <;> rfl
  refine ⟨fun hempty => ?_, fun hne hshort => ?_, fun hne hlong => ⟨fun ⟨j, hj, hbig⟩ => ?_, fun hchars hfit => ?_⟩⟩
  · exact failsWith_of_body_eq_error hexec hp hv (by rw [oneTimePad_eq, if_pos hempty])
  · exact failsWith_of_body_eq_error hexec hp hv (by rw [oneTimePad_eq, if_neg hne, if_pos hshort])
  · refine failsWith_of_body_eq_error hexec hp hv ?_
    rw [oneTimePad_eq, if_neg hne, if_neg (Nat.not_lt.mpr hlong), if_neg fun hall => Nat.not_le.mpr hbig (hall j hj)]
  · refine runsTo_of_body_eq_ok hexec hp hv ?_ (by simpa using hfit)
    rw [oneTimePad_eq, if_neg hne, if_neg (Nat.not_lt.mpr hlong), if_pos hchars]

end Sys2Proof.Machine
end

section
/-! The rail fence (spec/41_classical.md R149, R150): the closed form of the row against the walk, and the text that
RAIL.ENC answers against the walk's own writing. -/

namespace Sys2Proof.Machine

/-! ### The row of a position (R149) -/

/-- On one rail every position is on row 0. -/
theorem zigzagRow_one (i : Nat) : (zigzagRow 1 i).1 = 0 := by
  induction i with
  | zero => rfl
  | succ i ih =>
    rw [zigzagRow]
    generalize zigzagRow 1 i = w at ih ⊢
    obtain ⟨row, down⟩ := w
    subst ih
    cases down <;> rfl

/-! The four kinds of step on two or more rails: from the top row, on the way down, from the bottom row, on the way up. -/

theorem zigzagStep_top {r : Nat} (hr : 2 ≤ r) (down : Bool) : zigzagStep r (0, down) = (1, true) := by
  cases down <;> simp [zigzagStep, show 1 < r from hr]

theorem zigzagStep_down {r row : Nat} (h : row + 1 < r) : zigzagStep r (row, true) = (row + 1, true) := if_pos h

theorem zigzagStep_bottom {r row : Nat} (h : r ≤ row + 1) : zigzagStep r (row, true) = (row - 1, false) :=
  if_neg (Nat.not_lt.mpr h)

theorem zigzagStep_up {r row : Nat} (h : 0 < row) : zigzagStep r (row, false) = (row - 1, false) := if_pos h

/-- Where the walk over `r` rails is after `q` steps of a period: on row `q`, going down unless it has just come to row 0;
or past the bottom row, going up. -/
def OnZigzag (r q : Nat) (w : Nat × Bool) : Prop :=
  (q < r ∧ w.1 = q ∧ (q = 0 ∨ w.2 = true)) ∨ (r ≤ q ∧ w = (2 * (r - 1) - q, false))

/-- The row is the closed form's. -/
theorem OnZigzag.row {r q : Nat} {w : Nat × Bool} (h : OnZigzag r q w) :
    w.1 = if q < r then q else 2 * (r - 1) - q := by
  obtain ⟨hlt, hrow, -⟩ | ⟨hle, rfl⟩ := h
  · rw [hrow, if_pos hlt]
  · rw [if_neg (Nat.not_lt.mpr hle)]

/-- A step of the walk goes to the next place of the period, and after the last to the first. -/
theorem zigzagStep_onZigzag {r q : Nat} {w : Nat × Bool} (hr : 2 ≤ r) (hq : q < 2 * (r - 1)) (h : OnZigzag r q w) :
    OnZigzag r (if q + 1 = 2 * (r - 1) then 0 else q + 1) (zigzagStep r w) := by
  have arrive_up (row : Nat) (hle : r ≤ q + 1) (hrow : row = 2 * (r - 1) - (q + 1)) :
      OnZigzag r (if q + 1 = 2 * (r - 1) then 0 else q + 1) (row, false) := by
    split
    next hlast => exact .inl ⟨by omega, by simp only; omega, .inl rfl⟩
    next => exact .inr ⟨hle, by rw [hrow]⟩
  obtain ⟨row, down⟩ := w
  obtain ⟨hlt, rfl, hdown⟩ | ⟨hle, hw⟩ := h
  · by_cases hnext : row + 1 < r
    · have hstep : zigzagStep r (row, down) = (row + 1, true) := by
        obtain rfl | rfl := hdown
        · exact zigzagStep_top hr down
        · exact zigzagStep_down hnext
      rw [if_neg (by omega), hstep]
      exact .inl ⟨hnext, rfl, .inr rfl⟩
    · obtain rfl : down = true := hdown.resolve_left (by omega)
      rw [zigzagStep_bottom (by omega)]
      exact arrive_up _ (by omega) (by omega)
  · rw [hw, zigzagStep_up (by omega)]
    exact arrive_up _ (by omega) (by omega)

/-- The place in a period of the next position. -/
theorem add_one_mod_eq_ite {i p : Nat} (hp : 0 < p) : (i + 1) % p = if i % p + 1 = p then 0 else i % p + 1 := by
  have hlt : i % p < p := Nat.mod_lt i hp
  rw [← Nat.mod_add_mod]
  split
  next hlast => rw [hlast, Nat.mod_self]
  next hnext => exact Nat.mod_eq_of_lt (by omega)

/-- The walk has the period of the closed form. -/
theorem zigzagRow_onZigzag {r : Nat} (hr : 2 ≤ r) (i : Nat) : OnZigzag r (i % (2 * (r - 1))) (zigzagRow r i) := by
  induction i with
  | zero => exact .inl ⟨by simp only [Nat.zero_mod]; omega, (Nat.zero_mod _).symm, .inr rfl⟩
  | succ i ih =>
    have hpos : 0 < 2 * (r - 1) := by omega
    rw [add_one_mod_eq_ite hpos]
    exact zigzagStep_onZigzag hr (Nat.mod_lt i hpos) ih

/-- The row on two or more rails, without the case of one rail. -/
theorem railRow_of_two_le {r : Nat} (hr : 2 ≤ r) (i : Nat) : railRow i r =
    if i % (2 * (r - 1)) < r then i % (2 * (r - 1)) else 2 * (r - 1) - i % (2 * (r - 1)) :=
  if_neg (by omega)

@[simp] theorem railRow_one (i : Nat) : railRow i 1 = 0 := rfl

/-- Settles O18: by induction on the position, with the walk's direction; one rail is a case of its own. -/
theorem railRowFollowsTheWalk : Obligations.RailRowFollowsTheWalk := by
  intro r i hr
  rcases hr.eq_or_lt with rfl | hr
  · rw [railRow_one, zigzagRow_one]
  · rw [railRow_of_two_le hr, (zigzagRow_onZigzag hr i).row]

theorem railRow_lt {r : Nat} (hr : 1 ≤ r) (i : Nat) : railRow i r < r := by
  rcases hr.eq_or_lt with rfl | hr
  · simp
  · rw [railRow_of_two_le hr]
    split <;> omega

/-- The walk needs as many steps as there are rows above. -/
theorem railRow_le {r : Nat} (hr : 1 ≤ r) (i : Nat) : railRow i r ≤ i := by
  rcases hr.eq_or_lt with rfl | hr
  · simp
  · have hmod := Nat.mod_le i (2 * (r - 1))
    rw [railRow_of_two_le hr]
    split <;> omega

/-! ### The order of the positions (R150) -/

/-- A list sorted into rows by `row` is the part of it that lies on those rows, in another order. -/
theorem flatMap_range_filter_perm {α : Type} (row : α → Nat) (l : List α) (r : Nat) :
    ((List.range r).flatMap fun ρ => l.filter fun x => row x == ρ).Perm (l.filter fun x => row x < r) := by
  induction r with
  | zero => simp
  | succ r ih =>
    have hlow : (l.filter fun x => row x < r + 1).filter (fun x => row x < r) = l.filter fun x => row x < r := by
      rw [List.filter_filter]
      refine List.filter_congr fun x _ => Bool.eq_iff_iff.mpr ?_
      simp only [Bool.and_eq_true, decide_eq_true_eq]
      omega
    have hlast : (l.filter fun x => row x < r + 1).filter (fun x => !decide (row x < r)) =
        l.filter fun x => row x == r := by
      rw [List.filter_filter]
      refine List.filter_congr fun x _ => Bool.eq_iff_iff.mpr ?_
      simp only [Bool.and_eq_true, decide_eq_true_eq, Bool.not_eq_true', decide_eq_false_iff_not, beq_iff_eq]
      omega
    have hsplit := List.filter_append_perm (fun x => decide (row x < r)) (l.filter fun x => row x < r + 1)
    rw [hlow, hlast] at hsplit
    simp only [List.range_succ, List.flatMap_append, List.flatMap_singleton]
    exact (ih.append_right _).trans hsplit

/-- No position below `n` lies on a row at or above `n`. -/
theorem railPositions_eq_nil {r n ρ : Nat} (hr : 1 ≤ r) (h : n ≤ ρ) : railPositions r n ρ = [] := by
  refine List.filter_eq_nil_iff.mpr fun i hi => ?_
  have hlt : i < n := List.mem_range.mp hi
  have hle := railRow_le hr i
  simp only [beq_iff_eq]
  omega

/-- The rows that `railOrder` leaves out are empty. -/
theorem railOrder_eq_flatMap {r : Nat} (hr : 1 ≤ r) (n : Nat) :
    railOrder r n = (List.range r).flatMap fun ρ => railPositions r n ρ := by
  rw [railOrder]
  rcases Nat.le_total r n with hle | hle
  · rw [Nat.min_eq_left hle]
  · obtain ⟨d, rfl⟩ := Nat.exists_eq_add_of_le hle
    have hempty : ((List.range d).map (n + ·)).flatMap (railPositions (n + d) n) = [] := by
      simp [List.flatMap_eq_nil_iff, railPositions_eq_nil hr]
    rw [Nat.min_eq_right hle, List.range_add, List.flatMap_append, hempty, List.append_nil]

/-- Every position is written once. -/
theorem railOrder_perm_range {r : Nat} (hr : 1 ≤ r) (n : Nat) : (railOrder r n).Perm (List.range n) := by
  have hperm := flatMap_range_filter_perm (fun i => railRow i r) (List.range n) r
  rw [List.filter_eq_self.mpr fun i _ => decide_eq_true (railRow_lt hr i)] at hperm
  rw [railOrder_eq_flatMap hr]
  exact hperm

theorem length_railWrite {r : Nat} (hr : 1 ≤ r) (t : Text) : (railWrite r t).length = t.length := by
  rw [railWrite, List.length_map, (railOrder_perm_range hr _).length_eq, List.length_range]

/-! ### The text (R150) -/

/-- The characters of a text with their positions. -/
theorem zipIdx_eq_map_range (t : Text) : t.zipIdx = (List.range t.length).map fun i => (t.getD i 0, i) := by
  refine List.ext_getElem (by simp) fun i hi _ => ?_
  have ht : i < t.length := by simpa using hi
  simp [ht]

/-- The characters of a row, picked by their positions or met along the walk. -/
theorem map_railPositions {r : Nat} (hr : 1 ≤ r) (t : Text) (ρ : Nat) :
    (railPositions r t.length ρ).map (fun i => t.getD i 0) =
      (t.zipIdx.filter fun p => (zigzagRow r p.2).1 == ρ).map fun p => p.1 := by
  rw [zipIdx_eq_map_range, List.filter_map, List.map_map]
  simp only [railPositions, railRowFollowsTheWalk r _ hr]
  rfl

/-- The text of RAIL.ENC is the zig-zag's. -/
theorem railWrite_eq_zigzagWrite {r : Nat} (hr : 1 ≤ r) (t : Text) : railWrite r t = zigzagWrite r t := by
  rw [railWrite, railOrder_eq_flatMap hr, List.map_flatMap]
  simp only [map_railPositions hr]
  rfl

/-! ### The key (R150) -/

theorem railCount_eq_ok {k : Text} {r : Nat} (hr : 1 ≤ r) (h : ReadsAsInteger k r) : railCount k = .ok r := by
  simp only [railCount, parseInt_of_readsAsInteger h, Int.toNat_natCast]
  exact if_neg (by omega)

theorem railCount_eq_error {k : Text} (h : ¬ ∃ r : Nat, 1 ≤ r ∧ ReadsAsInteger k r) :
    railCount k = .error .invalidKey := by
  rcases parseInt_eq_ok_or_invalidKey k with ⟨n, hparse⟩ | hparse
  · have hsmall : n < 1 := by
      by_contra hn
      obtain ⟨r, rfl⟩ := Int.eq_ofNat_of_zero_le (a := n) (by omega)
      exact h ⟨r, by omega, readsAsInteger_of_parseInt hparse⟩
    simp only [railCount, hparse, if_pos hsmall]
  · simp only [railCount, hparse]

theorem railEncrypt_eq_ok {k : Text} {r : Nat} (t : Text) (hr : 1 ≤ r) (h : ReadsAsInteger k r) :
    railEncrypt t k = .ok (zigzagWrite r t) := by
  simp only [railEncrypt, railCount_eq_ok hr h, railWrite_eq_zigzagWrite hr]

theorem railEncrypt_eq_error {k : Text} (t : Text) (h : ¬ ∃ r : Nat, 1 ≤ r ∧ ReadsAsInteger k r) :
    railEncrypt t k = .error .invalidKey := by
  simp only [railEncrypt, railCount_eq_error h]

/-- Settles O19: row by row the positions of the closed form are those of the walk (O18), and the text keeps its length. -/
theorem railEncryptWritesTheZigzag : Obligations.RailEncryptWritesTheZigzag := by
  intro s hp hv
  refine ⟨fun r hr hkey hfit => ?_, fun hkey => failsWith_of_body_eq_error rfl hp hv (railEncrypt_eq_error _ hkey)⟩
  refine runsTo_of_body_eq_ok rfl hp hv (railEncrypt_eq_ok _ hr hkey) ?_
  rwa [← railWrite_eq_zigzagWrite hr, length_railWrite hr, length_inText]

end Sys2Proof.Machine
end

section
/-! The completion step (spec/43_dispatch.md R192, R199): a command either waits or completes, and every completion zeroes
the key. -/

namespace Sys2Proof.Machine

/-- Every KEY cell reads 0 after a completion, whatever its outcome (R199). -/
theorem complete_keyCell (s : State) (r : Except ErrorKind Text) {i : Nat} (hi : i < s.params.keyCap) :
    (s.complete r).keyCell i = 0 := by
  cases r with
  | ok o => exact completionMem_key hi
  | error e => exact completionMem_key hi

/-- A block encrypt command waits for entropy or completes; it has drawn nothing or one IV (R170, R245). -/
theorem runBlockEncrypt_waits_or_completes (c : BlockCipher) (s : State) : runBlockEncrypt c s = .next s ∨
    ∃ n r, runBlockEncrypt c s = .next (({ s with entropy := s.entropy.drop n } : State).complete r) := by
  rcases runBlockEncrypt_cases c s with ⟨e, _, herr⟩ | ⟨_, e, _, herr⟩ | ⟨_, _, _, hwait⟩ | ⟨_, key, _, _, hdone⟩
  · exact .inr ⟨0, .error e, herr⟩
  · exact .inr ⟨0, .error e, herr⟩
  · exact .inl hwait
  · exact .inr ⟨_, _, hdone⟩

/-- Every command leaves the state as it is, waiting for entropy, or completes, with some bytes of entropy used up
(R192, R245). -/
theorem exec_waits_or_completes (i : Instr) (s : State) : exec i s = .next s ∨
    ∃ n r, exec i s = .next (({ s with entropy := s.entropy.drop n } : State).complete r) := by
  by_cases hdraw : drawLength i = 0
  · obtain ⟨body, hbody⟩ := exec_eq_runBody i s hdraw
    exact .inr ⟨0, _, hbody.trans (runBody_next ..)⟩
  · cases i with
    | blkaEnc => exact runBlockEncrypt_waits_or_completes _ s
    | blkbEnc => exact runBlockEncrypt_waits_or_completes _ s
    | _ => exact absurd rfl hdraw

/-- The core's turn while BUSY: the command in progress waits for entropy or completes (R192, R193, R245). -/
theorem coreTurn_waits_or_completes {s : State} (hbusy : s.busy = true) : coreTurn s = .next s ∨
    ∃ n r, coreTurn s = .next (({ s with entropy := s.entropy.drop n } : State).complete r) := by
  unfold coreTurn
  rw [if_pos hbusy]
  cases s.fetch with
  | ok i => exact exec_waits_or_completes i s
  | error _ => exact .inr ⟨0, .error .unsupportedAlgorithm, rfl⟩

/-- Settles O9: a wait would leave BUSY at 1, so the turn is a completion, which zeroes the key. -/
theorem everyCompletionZeroesTheKey : Obligations.EveryCompletionZeroesTheKey := by
  intro s t _ hbusy hcore hstep hidle
  rw [step_of_core hcore] at hstep
  rcases coreTurn_waits_or_completes (s := { s with pending := s.pending.tail, response := .silent }) hbusy with
    hwait | ⟨n, r, hdone⟩
  · cases hwait.symm.trans hstep
    exact absurd (hbusy.symm.trans hidle) nofun
  · cases hdone.symm.trans hstep
    exact ⟨complete_keyLen _ r, fun i hi => complete_keyCell _ r hi, complete_done _ r⟩

end Sys2Proof.Machine
end

section
/-! The host's write of CTRL (spec/43_dispatch.md R190, R191). -/

namespace Sys2Proof.Machine

theorem targetAt_offCtrl (p : Params) : targetAt p Config.offCtrl = .ctrl := rfl

/-- `HostWriteCTRL` of R190 on a START while a command is in progress (R191). -/
theorem writeCtrl_start_of_busy {s : State} {v : Word} (hbusy : s.busy = true) (hstart : v.getLsbD 0 = true)
    (hsrst : v.getLsbD 1 = false) : s.writeCtrl v = { s with irqen := v.getLsbD 2, wlost := true } := by
  simp only [State.writeCtrl, hsrst, hstart, hbusy, Bool.false_eq_true, if_false, if_true, State.dropWrite]

/-- Settles O44: the write reaches CTRL, where a START while BUSY is dropped. -/
theorem startWhileBusyIsDropped : Obligations.StartWhileBusyIsDropped := by
  intro s v es hwrite hbusy hstart hsrst
  have hctrl : ({ s with pending := es, response := .silent } : State).writeCtrl v = _ :=
    writeCtrl_start_of_busy hbusy hstart hsrst
  rw [step_of_write (off := Config.offCtrl) hwrite (by decide) (by decide), targetAt_offCtrl, State.writeTarget, hctrl]

end Sys2Proof.Machine
end

section
/-! UTF-8 (spec/40_codec.md R112, R113): the bytes of a code point in numbers, and the strict decoder's first sequence, which
is found exactly where the bytes of a code point stand. -/

namespace Sys2Proof.Machine

/-! ### Bytes and ranges in numbers -/

theorem toNat_byte (n : Nat) : (byte n).toNat = n % 256 := BitVec.toNat_ofNat n 8

theorem byte_eq_iff (n : Nat) (b : Byte) : byte n = b ↔ n % 256 = b.toNat := by
  rw [← BitVec.toNat_inj, toNat_byte]

theorem byteIn_iff {b : Byte} {lo hi : Nat} : byteIn b lo hi = true ↔ lo ≤ b.toNat ∧ b.toNat ≤ hi := by
  simp [byteIn]

theorem isSurrogate_eq_false_iff {c : Nat} : isSurrogate c = false ↔ c < 0xD800 ∨ 0xDFFF < c := by
  simp only [isSurrogate, Bool.and_eq_false_iff, decide_eq_false_iff_not, Nat.not_le]

/-- The second bytes of R113 after the first byte of three. -/
theorem secondOfThree_iff {b0 b1 : Byte} : secondOfThree b0 b1 = true ↔
    (b0.toNat = 0xE0 ∧ 0xA0 ≤ b1.toNat ∧ b1.toNat ≤ 0xBF) ∨ (b0.toNat = 0xED ∧ 0x80 ≤ b1.toNat ∧ b1.toNat ≤ 0x9F) ∨
      (b0.toNat ≠ 0xE0 ∧ b0.toNat ≠ 0xED ∧ 0xE1 ≤ b0.toNat ∧ b0.toNat ≤ 0xEF ∧ 0x80 ≤ b1.toNat ∧ b1.toNat ≤ 0xBF) := by
  simp only [secondOfThree, ← BitVec.toNat_inj, BitVec.reduceToNat]
  split
  · rw [byteIn_iff]
    omega
  · split
    · rw [byteIn_iff]
      omega
    · rw [Bool.and_eq_true, byteIn_iff, byteIn_iff]
      omega

/-- The second bytes of R113 after the first byte of four. -/
theorem secondOfFour_iff {b0 b1 : Byte} : secondOfFour b0 b1 = true ↔
    (b0.toNat = 0xF0 ∧ 0x90 ≤ b1.toNat ∧ b1.toNat ≤ 0xBF) ∨ (b0.toNat = 0xF4 ∧ 0x80 ≤ b1.toNat ∧ b1.toNat ≤ 0x8F) ∨
      (0xF1 ≤ b0.toNat ∧ b0.toNat ≤ 0xF3 ∧ 0x80 ≤ b1.toNat ∧ b1.toNat ≤ 0xBF) := by
  simp only [secondOfFour, ← BitVec.toNat_inj, BitVec.reduceToNat]
  split
  · rw [byteIn_iff]
    omega
  · split
    · rw [byteIn_iff]
      omega
    · rw [Bool.and_eq_true, byteIn_iff, byteIn_iff]
      omega

/-! ### The bytes of a code point (R112) -/

section
variable {c : Nat}

theorem utf8Bytes_eq : utf8Bytes c =
    if c ≤ 0x7F then [byte c]
    else if c ≤ 0x7FF then [byte (0xC0 + c / 0x40), byte (0x80 + c % 0x40)]
    else if c ≤ 0xFFFF then [byte (0xE0 + c / 0x1000), byte (0x80 + c / 0x40 % 0x40), byte (0x80 + c % 0x40)]
    else
      [byte (0xF0 + c / 0x40000), byte (0x80 + c / 0x1000 % 0x40), byte (0x80 + c / 0x40 % 0x40),
        byte (0x80 + c % 0x40)] := rfl

theorem utf8Bytes_one (h : c ≤ 0x7F) : utf8Bytes c = [byte c] := if_pos h

theorem utf8Bytes_two (hlo : 0x80 ≤ c) (hhi : c ≤ 0x7FF) :
    utf8Bytes c = [byte (0xC0 + c / 0x40), byte (0x80 + c % 0x40)] := by
  rw [utf8Bytes_eq, if_neg (by omega), if_pos hhi]

theorem utf8Bytes_three (hlo : 0x800 ≤ c) (hhi : c ≤ 0xFFFF) :
    utf8Bytes c = [byte (0xE0 + c / 0x1000), byte (0x80 + c / 0x40 % 0x40), byte (0x80 + c % 0x40)] := by
  rw [utf8Bytes_eq, if_neg (by omega), if_neg (by omega), if_pos hhi]

theorem utf8Bytes_four (hlo : 0x10000 ≤ c) :
    utf8Bytes c = [byte (0xF0 + c / 0x40000), byte (0x80 + c / 0x1000 % 0x40), byte (0x80 + c / 0x40 % 0x40),
      byte (0x80 + c % 0x40)] := by
  rw [utf8Bytes_eq, if_neg (by omega), if_neg (by omega), if_neg (by omega)]

end

/-- A code point that is no surrogate: UTF-8 encodes these. -/
abbrev IsScalar (c : CodePoint) : Prop := c ≤ maxCodePoint ∧ isSurrogate c = false

theorem isScalar_iff {c : Nat} : IsScalar c ↔ c ≤ 0x10FFFF ∧ (c < 0xD800 ∨ 0xDFFF < c) :=
  and_congr Iff.rfl isSurrogate_eq_false_iff

/-- The bytes of a code point are found as its sequence, whatever follows them (R113). -/
theorem utf8First_append {c : Nat} (hc : IsScalar c) (r : Bytes) : utf8First (utf8Bytes c ++ r) = some (c, r) := by
  obtain ⟨hmax, hsur⟩ := isScalar_iff.mp hc
  rcases Nat.lt_or_ge c 0x80 with h1 | h1
  · simp only [utf8Bytes_one (show c ≤ 0x7F by omega), List.cons_append, List.nil_append, utf8First, byteIn_iff,
      toNat_byte]
    rw [if_pos (by omega), Nat.mod_eq_of_lt (by omega)]
  rcases Nat.lt_or_ge c 0x800 with h2 | h2
  · simp only [utf8Bytes_two h1 (show c ≤ 0x7FF by omega), List.cons_append, List.nil_append, utf8First, byteIn_iff,
      toNat_byte, tail6]
    rw [if_neg (by omega), if_pos (by omega), if_pos (by omega)]
    refine congrArg (fun x : Nat => some (x, r)) ?_
    omega
  rcases Nat.lt_or_ge c 0x10000 with h3 | h3
  · simp only [utf8Bytes_three h2 (show c ≤ 0xFFFF by omega), List.cons_append, List.nil_append, utf8First, byteIn_iff,
      toNat_byte, tail6, Bool.and_eq_true, secondOfThree_iff]
    rw [if_neg (by omega), if_neg (by omega), if_pos (by omega), if_pos (by omega)]
    refine congrArg (fun x : Nat => some (x, r)) ?_
    omega
  · simp only [utf8Bytes_four h3, List.cons_append, List.nil_append, utf8First, byteIn_iff,
      toNat_byte, tail6, Bool.and_eq_true, secondOfFour_iff]
    rw [if_neg (by omega), if_neg (by omega), if_neg (by omega), if_pos (by omega)]
    refine congrArg (fun x : Nat => some (x, r)) ?_
    omega

/-! Each well-formed sequence of R113 is the bytes of the code point that the decoder reads from it. -/

theorem utf8Bytes_of_two {b0 b1 : Byte} {c : Nat} (h0 : byteIn b0 0xC2 0xDF = true) (h1 : byteIn b1 0x80 0xBF = true)
    (hc : c = b0.toNat % 0x20 * 0x40 + tail6 b1) : IsScalar c ∧ utf8Bytes c = [b0, b1] := by
  rw [byteIn_iff] at h0 h1
  simp only [tail6] at hc
  rw [utf8Bytes_two (by omega) (by omega), isScalar_iff]
  simp only [List.cons.injEq, byte_eq_iff, and_true]
  omega

theorem utf8Bytes_of_three {b0 b1 b2 : Byte} {c : Nat} (h0 : byteIn b0 0xE0 0xEF = true)
    (h1 : secondOfThree b0 b1 = true) (h2 : byteIn b2 0x80 0xBF = true)
    (hc : c = b0.toNat % 0x10 * 0x1000 + tail6 b1 * 0x40 + tail6 b2) : IsScalar c ∧ utf8Bytes c = [b0, b1, b2] := by
  rw [byteIn_iff] at h0 h2
  rw [secondOfThree_iff] at h1
  simp only [tail6] at hc
  rw [utf8Bytes_three (by omega) (by omega), isScalar_iff]
  simp only [List.cons.injEq, byte_eq_iff, and_true]
  omega

theorem utf8Bytes_of_four {b0 b1 b2 b3 : Byte} {c : Nat} (h1 : secondOfFour b0 b1 = true)
    (h2 : byteIn b2 0x80 0xBF = true) (h3 : byteIn b3 0x80 0xBF = true)
    (hc : c = b0.toNat % 0x08 * 0x40000 + tail6 b1 * 0x1000 + tail6 b2 * 0x40 + tail6 b3) :
    IsScalar c ∧ utf8Bytes c = [b0, b1, b2, b3] := by
  rw [byteIn_iff] at h2 h3
  rw [secondOfFour_iff] at h1
  simp only [tail6] at hc
  rw [utf8Bytes_four (by omega), isScalar_iff]
  simp only [List.cons.injEq, byte_eq_iff, and_true]
  omega

/-- What the decoder takes off the front is the bytes of its code point (R113). -/
theorem utf8First_sound {b r : Bytes} {c : CodePoint} (h : utf8First b = some (c, r)) :
    IsScalar c ∧ b = utf8Bytes c ++ r := by
  rcases b with _ | ⟨b0, r0⟩
  · cases h
  simp only [utf8First] at h
  split at h
  next h0 =>
    cases h
    rw [byteIn_iff] at h0
    rw [utf8Bytes_one h0.2, isScalar_iff, (byte_eq_iff _ b0).mpr (by omega)]
    exact ⟨by omega, rfl⟩
  rcases r0 with _ | ⟨b1, r1⟩
  · cases h
  simp only at h
  split at h
  next h0 =>
    split at h
    next h1 =>
      cases h
      obtain ⟨hscalar, hbytes⟩ := utf8Bytes_of_two h0 h1 rfl
      exact ⟨hscalar, by rw [hbytes]; rfl⟩
    next => cases h
  rcases r1 with _ | ⟨b2, r2⟩
  · cases h
  simp only at h
  split at h
  next h0 =>
    split at h
    next h12 =>
      cases h
      rw [Bool.and_eq_true] at h12
      obtain ⟨hscalar, hbytes⟩ := utf8Bytes_of_three h0 h12.1 h12.2 rfl
      exact ⟨hscalar, by rw [hbytes]; rfl⟩
    next => cases h
  rcases r2 with _ | ⟨b3, r3⟩
  · cases h
  simp only at h
  split at h
  next h123 =>
    cases h
    rw [Bool.and_eq_true, Bool.and_eq_true] at h123
    obtain ⟨⟨h1, h2⟩, h3⟩ := h123
    obtain ⟨hscalar, hbytes⟩ := utf8Bytes_of_four h1 h2 h3 rfl
    exact ⟨hscalar, by rw [hbytes]; rfl⟩
  next => cases h

/-! ### Texts -/

theorem utf8Bytes_ne_nil (c : CodePoint) : utf8Bytes c ≠ [] := by
  rw [utf8Bytes_eq]
  split_ifs <;> exact List.cons_ne_nil _ _

/-- A text without surrogates is encoded as the bytes of its code points (R112). -/
theorem utf8Encode_eq_ok {t : Text} (h : NoSurrogates t) : utf8Encode t = .ok (utf8Of t) := by
  induction t with
  | nil => rfl
  | cons c t ih =>
    rw [utf8Encode, if_neg (by simp [h c List.mem_cons_self]), ih fun d hd => h d (List.mem_cons_of_mem c hd)]
    rfl

/-- A text with a surrogate cannot be encoded (R112). -/
theorem utf8Encode_eq_error {t : Text} (h : ∃ c ∈ t, isSurrogate c = true) :
    utf8Encode t = .error .encodingError := by
  induction t with
  | nil => simp at h
  | cons c t ih =>
    rw [utf8Encode]
    split
    · rfl
    next hc =>
      obtain ⟨d, hd, hsur⟩ := h
      rcases List.mem_cons.mp hd with rfl | hd
      · exact absurd hsur hc
      · rw [ih ⟨d, hd, hsur⟩]

theorem not_noSurrogates_iff {t : Text} : ¬ NoSurrogates t ↔ ∃ c ∈ t, isSurrogate c = true := by
  simp [NoSurrogates]

theorem utf8Encode_eq_ok_iff {t : Text} {b : Bytes} : utf8Encode t = .ok b ↔ NoSurrogates t ∧ b = utf8Of t := by
  by_cases h : NoSurrogates t
  · rw [utf8Encode_eq_ok h, and_iff_right h, Except.ok.injEq, eq_comm]
  · simp [utf8Encode_eq_error (not_noSurrogates_iff.mp h), h]

theorem utf8Encode_eq_error_iff {t : Text} : utf8Encode t = .error .encodingError ↔ ∃ c ∈ t, isSurrogate c = true := by
  refine ⟨fun h => not_noSurrogates_iff.mp fun hn => ?_, utf8Encode_eq_error⟩
  cases (utf8Encode_eq_ok hn).symm.trans h

/-- With enough rounds the decoder reads back the bytes of a text (R113). -/
theorem utf8DecodeUpTo_utf8Of {t : Text} (h : ∀ c ∈ t, IsScalar c) {n : Nat} (hn : (utf8Of t).length ≤ n) :
    utf8DecodeUpTo n (utf8Of t) = .ok t := by
  induction t generalizing n with
  | nil => simp [utf8Of, utf8DecodeUpTo]
  | cons c t ih =>
    have hfirst := utf8First_append (h c List.mem_cons_self) (utf8Of t)
    have hlen : 1 ≤ (utf8Bytes c).length := List.length_pos_iff.mpr (utf8Bytes_ne_nil c)
    have happend : utf8Of (c :: t) = utf8Bytes c ++ utf8Of t := rfl
    rw [happend, List.length_append] at hn
    obtain ⟨n, rfl⟩ : ∃ m, n = m + 1 := ⟨n - 1, by omega⟩
    obtain ⟨b, bs, hcons⟩ := List.exists_cons_of_ne_nil (l := utf8Bytes c ++ utf8Of t) (by simp [utf8Bytes_ne_nil])
    rw [happend, hcons, utf8DecodeUpTo, ← hcons, hfirst]
    simp only [ih (fun d hd => h d (List.mem_cons_of_mem c hd)) (show (utf8Of t).length ≤ n by omega)]

/-- What the decoder accepts is the bytes of the text it answers (R113). -/
theorem utf8DecodeUpTo_sound {n : Nat} {b : Bytes} {t : Text} (h : utf8DecodeUpTo n b = .ok t) :
    (∀ c ∈ t, IsScalar c) ∧ b = utf8Of t := by
  induction n generalizing b t with
  | zero =>
    cases b with
    | nil => cases h; exact ⟨by simp, rfl⟩
    | cons b bs => cases h
  | succ n ih =>
    cases b with
    | nil => cases h; exact ⟨by simp, rfl⟩
    | cons b bs =>
      simp only [utf8DecodeUpTo] at h
      split at h
      · cases h
      next c rest hfirst =>
        split at h
        · cases h
        next u hrest =>
          cases h
          obtain ⟨hscalar, hbytes⟩ := utf8First_sound hfirst
          obtain ⟨hu, rfl⟩ := ih hrest
          exact ⟨List.forall_mem_cons.mpr ⟨hscalar, hu⟩, hbytes⟩

theorem utf8Decode_eq_ok_iff {b : Bytes} {t : Text} : utf8Decode b = .ok t ↔ (∀ c ∈ t, IsScalar c) ∧ b = utf8Of t := by
  refine ⟨utf8DecodeUpTo_sound, ?_⟩
  rintro ⟨h, rfl⟩
  exact utf8DecodeUpTo_utf8Of h le_rfl

/-- The only error of the decoder. -/
theorem utf8DecodeUpTo_eq_ok_or_error (n : Nat) (b : Bytes) :
    (∃ t, utf8DecodeUpTo n b = .ok t) ∨ utf8DecodeUpTo n b = .error .encodingError := by
  induction n generalizing b with
  | zero =>
    cases b with
    | nil => exact .inl ⟨_, rfl⟩
    | cons b bs => exact .inr rfl
  | succ n ih =>
    cases b with
    | nil => exact .inl ⟨_, rfl⟩
    | cons b bs =>
      simp only [utf8DecodeUpTo]
      split
      · exact .inr rfl
      next c rest hfirst =>
        rcases ih rest with ⟨t, hok⟩ | herror
        · exact .inl ⟨c :: t, by simp only [hok]⟩
        · exact .inr (by simp only [herror])

theorem utf8Decode_eq_error {b : Bytes} (h : ¬ ∃ t, utf8Decode b = .ok t) : utf8Decode b = .error .encodingError :=
  (utf8DecodeUpTo_eq_ok_or_error _ b).resolve_left h

/-- Settles O37: a sequence is decoded exactly where the bytes of a code point that is no surrogate stand, and so for texts. -/
theorem utf8DecodeInvertsEncode : Obligations.Utf8DecodeInvertsEncode := by
  refine ⟨fun t => utf8Encode_eq_ok, fun (c : Nat) => ⟨utf8Bytes_one, fun hlo hhi => ?_, fun hlo hhi => ?_, fun hlo hhi => ?_⟩,
    fun t b hmax => ?_, fun t b h c hc => ((utf8Decode_eq_ok_iff.mp h).1 c hc).1, fun t => utf8Encode_eq_error_iff.symm⟩
  · rw [utf8Bytes_two hlo hhi, Nat.mod_eq_of_lt (a := c / 2 ^ 6) (Nat.div_lt_of_lt_mul (Nat.lt_of_le_of_lt hhi (by decide)))]
    rfl
  · rw [utf8Bytes_three hlo hhi, Nat.mod_eq_of_lt (a := c / 2 ^ 12) (Nat.div_lt_of_lt_mul (Nat.lt_of_le_of_lt hhi (by decide)))]
    rfl
  · rw [utf8Bytes_four hlo, Nat.mod_eq_of_lt (a := c / 2 ^ 18) (Nat.div_lt_of_lt_mul (Nat.lt_of_le_of_lt hhi (by decide)))]
    rfl
  · rw [utf8Encode_eq_ok_iff, utf8Decode_eq_ok_iff]
    exact and_congr_left fun _ => forall₂_congr fun c hc => (and_iff_right (hmax c hc)).symm

end Sys2Proof.Machine
end

section
/-! Numbers written in a base, the first digit the highest: what base64 compares (spec/40_codec.md R116), and the bits of a
block of BlockCipherB. -/

namespace Sys2Proof.Machine

/-- The number that a list writes in a base. -/
def numberOf {α : Type} (base : Nat) (digit : α → Nat) (l : List α) : Nat := l.foldl (fun a x => base * a + digit x) 0

section
variable {α : Type} {base : Nat} {digit : α → Nat}

theorem foldl_mul_add (l : List α) (a : Nat) :
    l.foldl (fun a x => base * a + digit x) a = base ^ l.length * a + numberOf base digit l := by
  induction l generalizing a with
  | nil => simp [numberOf]
  | cons x l ih =>
    rw [numberOf, List.foldl_cons, List.foldl_cons, ih, ih (base * 0 + digit x), List.length_cons]
    ring

@[simp] theorem numberOf_nil : numberOf base digit [] = 0 := rfl

theorem numberOf_cons (x : α) (l : List α) :
    numberOf base digit (x :: l) = base ^ l.length * digit x + numberOf base digit l := by
  rw [numberOf, List.foldl_cons, foldl_mul_add, Nat.mul_zero, Nat.zero_add]

theorem numberOf_append (l m : List α) :
    numberOf base digit (l ++ m) = base ^ m.length * numberOf base digit l + numberOf base digit m := by
  rw [numberOf, List.foldl_append, foldl_mul_add]
  rfl

theorem numberOf_lt (hlt : ∀ x, digit x < base) (l : List α) : numberOf base digit l < base ^ l.length := by
  induction l with
  | nil => simp
  | cons x l ih =>
    have hx : base ^ l.length * (digit x + 1) ≤ base ^ l.length * base := Nat.mul_le_mul_left _ (hlt x)
    rw [numberOf_cons, List.length_cons, pow_succ]
    rw [Nat.mul_add, Nat.mul_one] at hx
    omega

/-- The number and the length determine the digits. -/
theorem numberOf_inj (hlt : ∀ x, digit x < base) (hinj : Function.Injective digit) {l m : List α}
    (hlen : l.length = m.length) (h : numberOf base digit l = numberOf base digit m) : l = m := by
  induction l generalizing m with
  | nil => exact (List.length_eq_zero_iff.mp hlen.symm).symm
  | cons x l ih =>
    obtain ⟨y, m, rfl⟩ := List.exists_cons_of_length_eq_add_one hlen.symm
    have hlen : l.length = m.length := Nat.succ.inj hlen
    rw [numberOf_cons, numberOf_cons, ← hlen] at h
    have hl := numberOf_lt hlt l
    have hm := numberOf_lt hlt m
    rw [← hlen] at hm
    have hpos : 0 < base ^ l.length := by omega
    have hdigit := congrArg (· / base ^ l.length) h
    simp only [Nat.mul_add_div hpos, Nat.div_eq_of_lt hl, Nat.div_eq_of_lt hm, Nat.add_zero] at hdigit
    rw [hdigit, Nat.add_left_cancel_iff] at h
    rw [hinj hdigit, ih hlen h]

end

/-- The number of a byte string. -/
theorem bytes_eq_of_numberOf_eq {x y : Bytes} (hlen : x.length = y.length)
    (h : numberOf 256 BitVec.toNat x = numberOf 256 BitVec.toNat y) : x = y :=
  numberOf_inj (fun b : Byte => b.isLt) (fun _ _ => BitVec.eq_of_toNat_eq) hlen h

end Sys2Proof.Machine
end

section
/-! Base64 (spec/40_codec.md R114 to R116): the alphabet, and encoder and decoder group by group. -/

namespace Sys2Proof.Machine

/-! ### The alphabet (R114) -/

theorem isBase64Char_iff {c v : Nat} : IsBase64Char c v ↔
    (v ≤ 25 ∧ c = 0x41 + v) ∨ (26 ≤ v ∧ v ≤ 51 ∧ c = 0x61 + (v - 26)) ∨ (52 ≤ v ∧ v ≤ 61 ∧ c = 0x30 + (v - 52)) ∨
      (v = 62 ∧ c = 0x2B) ∨ (v = 63 ∧ c = 0x2F) := Iff.rfl

theorem b64Value_eq (c : Nat) : b64Value c =
    if isUpper c then some (c - 0x41) else if isLower c then some (c - 0x61 + 26)
    else if isDigit c then some (c - 0x30 + 52) else if c = 0x2B then some 62 else if c = 0x2F then some 63
    else none := rfl

/-- The value of a character is the one that the alphabet gives it. -/
theorem b64Value_eq_some_iff {c v : Nat} : b64Value c = some v ↔ IsBase64Char c v := by
  rw [b64Value_eq, isBase64Char_iff]
  simp only [isUpper_iff, isLower_iff, isDigit_iff]
  split_ifs <;> simp only [Option.some.injEq, false_iff] <;> omega

/-- The character of a value. -/
theorem isBase64Char_b64Char {v : Nat} (hv : v < 64) : IsBase64Char (b64Char v) v := by
  have table : ∀ v < 64, IsBase64Char (b64Char v) v := by
    unfold IsBase64Char
    decide
  exact table v hv

theorem isBase64Char_lt {c v : Nat} (h : IsBase64Char c v) : v < 64 := by
  rw [isBase64Char_iff] at h
  omega

theorem isBase64Char_ne_pad {c v : Nat} (h : IsBase64Char c v) : c ≠ 0x3D := by
  rw [isBase64Char_iff] at h
  omega

theorem isBase64Char_sextet (v j : Nat) : IsBase64Char (sextet v j) (v / 0x40 ^ (3 - j) % 0x40) :=
  isBase64Char_b64Char (Nat.mod_lt _ (by decide))

@[simp] theorem b64Value_sextet (v j : Nat) : b64Value (sextet v j) = some (v / 0x40 ^ (3 - j) % 0x40) :=
  b64Value_eq_some_iff.mpr (isBase64Char_sextet v j)

/-! ### The bytes of a group (R115, R116) -/

theorem numberOf_groupBytes {v : Nat} (hv : v < 2 ^ 24) : numberOf 256 BitVec.toNat (groupBytes v) = v := by
  simp only [groupBytes, numberOf, List.foldl_cons, List.foldl_nil, toNat_byte]
  omega

theorem numberOf_groupBytes_take_two {v : Nat} (hv : v < 2 ^ 24) :
    numberOf 256 BitVec.toNat ((groupBytes v).take 2) = v / 256 := by
  simp only [groupBytes, numberOf, List.take_succ_cons, List.take_zero, List.foldl_cons, List.foldl_nil, toNat_byte]
  omega

theorem numberOf_groupBytes_take_one {v : Nat} (hv : v < 2 ^ 24) :
    numberOf 256 BitVec.toNat ((groupBytes v).take 1) = v / 65536 := by
  simp only [groupBytes, numberOf, List.take_succ_cons, List.take_zero, List.foldl_cons, List.foldl_nil, toNat_byte]
  omega

theorem groupBytes_group24 (a b c : Byte) : groupBytes (group24 a b c) = [a, b, c] := by
  have ha := a.isLt
  have hb := b.isLt
  have hc := c.isLt
  simp only [groupBytes, group24, List.cons.injEq, byte_eq_iff, and_true]
  omega

/-- The four sextets of a 24-bit group make it up. -/
theorem sextets_eq {v : Nat} (hv : v < 2 ^ 24) :
    v / 0x40 ^ 3 % 0x40 * 0x40000 + v / 0x40 ^ 2 % 0x40 * 0x1000 + v / 0x40 ^ 1 % 0x40 * 0x40 + v / 0x40 ^ 0 % 0x40 = v := by
  omega

theorem group24_lt (a b c : Byte) : group24 a b c < 2 ^ 24 := by
  have ha := a.isLt
  have hb := b.isLt
  have hc := c.isLt
  simp only [group24]
  omega

/-! ### The decoder, group by group (R116) -/

section
variable {c0 c1 c2 c3 : CodePoint}

theorem padCount_zero (h : c3 ≠ b64Pad) : padCount c2 c3 = 0 := if_neg h

theorem padCount_one (h : c2 ≠ b64Pad) : padCount c2 b64Pad = 1 := by rw [padCount, if_pos rfl, if_neg h]

/-- A group before the last, and a last group without padding. -/
theorem base64Groups_full {rest : Text} {v0 v1 v2 v3 : Nat} (h0 : b64Value c0 = some v0) (h1 : b64Value c1 = some v1)
    (h2 : b64Value c2 = some v2) (h3 : b64Value c3 = some v3) :
    base64Groups (c0 :: c1 :: c2 :: c3 :: rest) = match base64Groups rest with
      | .error e => .error e
      | .ok bs => .ok (groupBytes (v0 * 0x40000 + v1 * 0x1000 + v2 * 0x40 + v3) ++ bs) := by
  have hpad : padCount c2 c3 = 0 := padCount_zero (isBase64Char_ne_pad (b64Value_eq_some_iff.mp h3))
  simp only [base64Groups, hpad, ite_self, groupValue, h0, h1, h2, h3, Nat.zero_le, if_true]
  rfl

/-- A last group that ends in one "=". -/
theorem base64Groups_one {v0 v1 v2 : Nat} (h0 : b64Value c0 = some v0) (h1 : b64Value c1 = some v1)
    (h2 : b64Value c2 = some v2) : base64Groups [c0, c1, c2, b64Pad] =
      .ok ((groupBytes (v0 * 0x40000 + v1 * 0x1000 + v2 * 0x40)).take 2) := by
  have hpad : padCount c2 b64Pad = 1 := padCount_one (isBase64Char_ne_pad (b64Value_eq_some_iff.mp h2))
  simp [base64Groups, hpad, groupValue, h0, h1, h2]

/-- A last group that ends in two "=". -/
theorem base64Groups_two {v0 v1 : Nat} (h0 : b64Value c0 = some v0) (h1 : b64Value c1 = some v1) :
    base64Groups [c0, c1, b64Pad, b64Pad] = .ok ((groupBytes (v0 * 0x40000 + v1 * 0x1000)).take 1) := by
  have hpad : padCount b64Pad b64Pad = 2 := rfl
  simp [base64Groups, hpad, groupValue, h0, h1]

/-- The characters of a group that the decoder accepts. -/
theorem groupValue_eq_some {np v : Nat} (h : groupValue c0 c1 c2 c3 np = some v) :
    (∃ v0, b64Value c0 = some v0) ∧ (∃ v1, b64Value c1 = some v1) ∧ (np ≤ 1 → ∃ v2, b64Value c2 = some v2) ∧
      (np = 0 → ∃ v3, b64Value c3 = some v3) := by
  unfold groupValue at h
  split at h
  next v0 v1 v2 v3 h0 h1 h2 h3 =>
    exact ⟨⟨v0, h0⟩, ⟨v1, h1⟩, fun hnp => ⟨v2, by rwa [if_pos hnp] at h2⟩, fun hnp => ⟨v3, by rwa [if_pos hnp] at h3⟩⟩
  next => cases h

end

/-- The only error of the decoder. -/
theorem base64Groups_eq_ok_or_error (t : Text) :
    (∃ d, base64Groups t = .ok d) ∨ base64Groups t = .error .malformedCiphertext := by
  fun_induction base64Groups t with
  | case1 => exact .inl ⟨_, rfl⟩
  | case2 => exact .inr rfl
  | case3 _ _ _ _ _ _ _ _ e herror ih =>
    refine .inr (herror.symm.trans (ih.resolve_left ?_))
    rintro ⟨d, hok⟩
    cases hok.symm.trans herror
  | case4 => exact .inl ⟨_, rfl⟩
  | case5 => exact .inr rfl

theorem base64Decode_eq_ok_iff {t : Text} {d : Bytes} :
    base64Decode t = .ok d ↔ t.length % 4 = 0 ∧ base64Groups t = .ok d := by
  rw [base64Decode]
  split
  next h => simp [h]
  next h => simp [not_not.mp h]

theorem base64Decode_eq_ok_or_error (t : Text) :
    (∃ d, base64Decode t = .ok d) ∨ base64Decode t = .error .malformedCiphertext := by
  rw [base64Decode]
  split
  · exact .inr rfl
  · exact base64Groups_eq_ok_or_error t

/-! ### The strict grammar (R116) -/

/-- A last group that is of the grammar, by the number of its "=". -/
theorem base64Grammar_last {c0 c1 c2 c3 : CodePoint} {vs : List Nat} {n : Nat}
    (h : Base64Grammar [c0, c1, c2, c3] vs n) : ∃ v0 v1, IsBase64Char c0 v0 ∧ IsBase64Char c1 v1 ∧
      ((n = 0 ∧ ∃ v2 v3, IsBase64Char c2 v2 ∧ IsBase64Char c3 v3 ∧ vs = [v0, v1, v2, v3]) ∨
        (n = 1 ∧ c3 = b64Pad ∧ ∃ v2, IsBase64Char c2 v2 ∧ vs = [v0, v1, v2]) ∨
        (n = 2 ∧ c2 = b64Pad ∧ c3 = b64Pad ∧ vs = [v0, v1])) := by
  obtain ⟨-, hn, body, ht, hbody⟩ := h
  obtain rfl | rfl | rfl : n = 0 ∨ n = 1 ∨ n = 2 := by omega
  · obtain rfl : body = [c0, c1, c2, c3] := by simpa using ht.symm
    rcases hbody with _ | ⟨h0, _ | ⟨h1, _ | ⟨h2, _ | ⟨h3, _ | _⟩⟩⟩⟩
    exact ⟨_, _, h0, h1, .inl ⟨rfl, _, _, h2, h3, rfl⟩⟩
  · obtain ⟨rfl, hc3⟩ : body = [c0, c1, c2] ∧ c3 = b64Pad := by
      have hinj := List.append_inj' (s₁ := [c0, c1, c2]) (t₁ := [c3]) ht rfl
      exact ⟨hinj.1.symm, by simpa [b64Pad] using hinj.2⟩
    rcases hbody with _ | ⟨h0, _ | ⟨h1, _ | ⟨h2, _ | _⟩⟩⟩
    exact ⟨_, _, h0, h1, .inr (.inl ⟨rfl, hc3, _, h2, rfl⟩)⟩
  · obtain ⟨rfl, hc2, hc3⟩ : body = [c0, c1] ∧ c2 = b64Pad ∧ c3 = b64Pad := by
      have hinj := List.append_inj' (s₁ := [c0, c1]) (t₁ := [c2, c3]) ht rfl
      exact ⟨hinj.1.symm, by simpa [b64Pad] using hinj.2⟩
    rcases hbody with _ | ⟨h0, _ | ⟨h1, _ | _⟩⟩
    exact ⟨_, _, h0, h1, .inr (.inr ⟨rfl, hc2, hc3, rfl⟩)⟩

/-- A group before the last, in the grammar. -/
theorem base64Grammar_cons {c0 c1 c2 c3 : CodePoint} {rest : Text} (hrest : rest ≠ []) {vs : List Nat} {n : Nat}
    (h : Base64Grammar (c0 :: c1 :: c2 :: c3 :: rest) vs n) : ∃ v0 v1 v2 v3 ws, IsBase64Char c0 v0 ∧ IsBase64Char c1 v1 ∧
      IsBase64Char c2 v2 ∧ IsBase64Char c3 v3 ∧ vs = v0 :: v1 :: v2 :: v3 :: ws ∧ Base64Grammar rest ws n := by
  obtain ⟨hmod, hn, body, ht, hbody⟩ := h
  have hpos : 0 < rest.length := List.length_pos_iff.mpr hrest
  have hlen := congrArg List.length ht
  simp only [List.length_cons, List.length_append, List.length_replicate] at hlen hmod
  rcases hbody with _ | ⟨h0, _ | ⟨h1, _ | ⟨h2, _ | ⟨h3, hws⟩⟩⟩⟩
  case nil => simp at hlen; omega
  all_goals simp only [List.length_cons, List.length_nil] at hlen
  case cons.nil => omega
  case cons.cons.nil => omega
  case cons.cons.cons.nil => omega
  simp only [List.cons_append, List.cons.injEq] at ht
  obtain ⟨rfl, rfl, rfl, rfl, hrest⟩ := ht
  exact ⟨_, _, _, _, _, h0, h1, h2, h3, rfl, by omega, hn, _, hrest, hws⟩

theorem base64Grammar_length {t : Text} {vs : List Nat} {n : Nat} (h : Base64Grammar t vs n) :
    vs.length + n = t.length := by
  obtain ⟨-, -, body, rfl, hbody⟩ := h
  rw [List.length_append, List.length_replicate, hbody.length_eq]

section
variable {c0 c1 c2 c3 v0 v1 v2 v3 : Nat}

/-- A full group before a text of the grammar. -/
theorem base64Grammar_cons_intro (h0 : IsBase64Char c0 v0) (h1 : IsBase64Char c1 v1) (h2 : IsBase64Char c2 v2)
    (h3 : IsBase64Char c3 v3) {rest : Text} {ws : List Nat} {n : Nat} (h : Base64Grammar rest ws n) :
    Base64Grammar (c0 :: c1 :: c2 :: c3 :: rest) (v0 :: v1 :: v2 :: v3 :: ws) n := by
  obtain ⟨hmod, hn, body, rfl, hbody⟩ := h
  refine ⟨?_, hn, c0 :: c1 :: c2 :: c3 :: body, rfl, .cons h0 (.cons h1 (.cons h2 (.cons h3 hbody)))⟩
  simp only [List.length_cons]
  omega

theorem base64Grammar_nil : Base64Grammar [] [] 0 := ⟨rfl, by decide, [], rfl, .nil⟩

theorem base64Grammar_one (h0 : IsBase64Char c0 v0) (h1 : IsBase64Char c1 v1) (h2 : IsBase64Char c2 v2) :
    Base64Grammar [c0, c1, c2, b64Pad] [v0, v1, v2] 1 :=
  ⟨Nat.mod_self 4, by decide, [c0, c1, c2], rfl, .cons h0 (.cons h1 (.cons h2 .nil))⟩

theorem base64Grammar_two (h0 : IsBase64Char c0 v0) (h1 : IsBase64Char c1 v1) :
    Base64Grammar [c0, c1, b64Pad, b64Pad] [v0, v1] 2 :=
  ⟨Nat.mod_self 4, by decide, [c0, c1], rfl, .cons h0 (.cons h1 .nil)⟩

end

/-- The padding that the decoder allows in a group (R116). -/
theorem padCount_cases (c2 c3 : CodePoint) :
    (padCount c2 c3 = 0) ∨ (padCount c2 c3 = 1 ∧ c3 = b64Pad) ∨ (padCount c2 c3 = 2 ∧ c2 = b64Pad ∧ c3 = b64Pad) := by
  unfold padCount
  split
  next h3 =>
    split
    next h2 => exact .inr (.inr ⟨rfl, h2, h3⟩)
    next => exact .inr (.inl ⟨rfl, h3⟩)
  next => exact .inl rfl

/-- What the decoder accepts is of the grammar. -/
theorem base64Grammar_of_base64Groups {t : Text} {d : Bytes} (h : base64Groups t = .ok d) :
    ∃ vs n, Base64Grammar t vs n := by
  fun_induction base64Groups t generalizing d with
  | case1 => exact ⟨[], 0, base64Grammar_nil⟩
  | case2 => cases h
  | case3 => cases h
  | case4 c0 c1 c2 c3 rest np v hv bs hrest =>
    rename_i ih
    obtain ⟨⟨v0, h0⟩, ⟨v1, h1⟩, h2, h3⟩ := groupValue_eq_some hv
    simp only [b64Value_eq_some_iff] at h0 h1 h2 h3
    obtain ⟨ws, n, hws⟩ := ih hrest
    have full : np = 0 → ∃ vs n, Base64Grammar (c0 :: c1 :: c2 :: c3 :: rest) vs n := fun hnp => by
      obtain ⟨v2, h2⟩ := h2 (by omega)
      obtain ⟨v3, h3⟩ := h3 hnp
      exact ⟨_, n, base64Grammar_cons_intro h0 h1 h2 h3 hws⟩
    cases rest with
    | cons c rest => exact full rfl
    | nil =>
      rcases padCount_cases c2 c3 with hnp | ⟨hnp, rfl⟩ | ⟨-, rfl, rfl⟩
      · exact full hnp
      · obtain ⟨v2, h2⟩ := h2 hnp.le
        exact ⟨_, _, base64Grammar_one h0 h1 h2⟩
      · exact ⟨_, _, base64Grammar_two h0 h1⟩
  | case5 => cases h

/-- The digits of the characters and those of the bytes after `m` groups: six bits a character, eight a byte. -/
theorem pow_base64_digits {a b n m : Nat} (ha : a + n = 4 * m) (hb : b + n = 3 * m) : 64 ^ a = 4 ^ n * 256 ^ b := by
  have hexp : 6 * a = 2 * n + 8 * b := by omega
  calc 64 ^ a = 2 ^ (6 * a) := (pow_mul 2 6 a).symm
    _ = 2 ^ (2 * n) * 2 ^ (8 * b) := by rw [hexp, pow_add]
    _ = 4 ^ n * 256 ^ b := congrArg₂ (· * ·) (pow_mul 2 2 n) (pow_mul 2 8 b)

/-- The value of a full group before characters of value `w` is the value of its bytes before bytes of value `w / 4 ^ n`. -/
theorem base64_value_cons {v0 v1 v2 v3 n : Nat} {ws : List Nat} {d : Bytes} (hv0 : v0 < 64) (hv1 : v1 < 64)
    (hv2 : v2 < 64) (hv3 : v3 < 64) (hpow : 64 ^ ws.length = 4 ^ n * 256 ^ d.length)
    (hd : numberOf 256 BitVec.toNat d = numberOf 64 id ws / 4 ^ n) :
    numberOf 256 BitVec.toNat (groupBytes (v0 * 0x40000 + v1 * 0x1000 + v2 * 0x40 + v3) ++ d) =
      numberOf 64 id (v0 :: v1 :: v2 :: v3 :: ws) / 4 ^ n := by
  have hgroup : numberOf 64 id [v0, v1, v2, v3] = v0 * 0x40000 + v1 * 0x1000 + v2 * 0x40 + v3 := by
    simp only [numberOf, List.foldl_cons, List.foldl_nil, id_eq]
    omega
  rw [numberOf_append, numberOf_groupBytes (by omega), hd]
  rw [show v0 :: v1 :: v2 :: v3 :: ws = [v0, v1, v2, v3] ++ ws from rfl, numberOf_append, hgroup, hpow, Nat.mul_assoc,
    Nat.mul_add_div (by positivity)]

/-- The grammar's texts are accepted, and the value is the one R116 gives. -/
theorem base64Groups_of_grammar {m : Nat} {t : Text} (ht : t.length = 4 * m) {vs : List Nat} {n : Nat}
    (h : Base64Grammar t vs n) : ∃ d, base64Groups t = .ok d ∧ d.length + n = 3 * m ∧
      numberOf 256 BitVec.toNat d = numberOf 64 id vs / 4 ^ n := by
  induction m generalizing t vs with
  | zero =>
    have hlen := base64Grammar_length h
    obtain rfl : t = [] := List.length_eq_zero_iff.mp ht
    obtain ⟨rfl, rfl⟩ : vs = [] ∧ n = 0 := by simpa using hlen
    exact ⟨[], rfl, rfl, rfl⟩
  | succ m ih =>
    rcases t with _ | ⟨c0, _ | ⟨c1, _ | ⟨c2, _ | ⟨c3, rest⟩⟩⟩⟩
    all_goals simp only [List.length_cons, List.length_nil] at ht
    all_goals try omega
    by_cases hrest : rest = []
    · subst hrest
      obtain rfl : m = 0 := by simp only [List.length_nil] at ht; omega
      obtain ⟨v0, v1, h0, h1, hlast⟩ := base64Grammar_last h
      have hv0 := isBase64Char_lt h0
      have hv1 := isBase64Char_lt h1
      rw [← b64Value_eq_some_iff] at h0 h1
      obtain ⟨rfl, v2, v3, h2, h3, rfl⟩ | ⟨rfl, rfl, v2, h2, rfl⟩ | ⟨rfl, rfl, rfl, rfl⟩ := hlast
      · have hv2 := isBase64Char_lt h2
        have hv3 := isBase64Char_lt h3
        rw [← b64Value_eq_some_iff] at h2 h3
        exact ⟨_, base64Groups_full h0 h1 h2 h3, rfl, base64_value_cons (d := []) hv0 hv1 hv2 hv3 rfl rfl⟩
      · have hv2 := isBase64Char_lt h2
        rw [← b64Value_eq_some_iff] at h2
        refine ⟨_, base64Groups_one h0 h1 h2, rfl, ?_⟩
        rw [numberOf_groupBytes_take_two (by omega)]
        simp only [numberOf, List.foldl_cons, List.foldl_nil, id_eq]
        omega
      · refine ⟨_, base64Groups_two h0 h1, rfl, ?_⟩
        rw [numberOf_groupBytes_take_one (by omega)]
        simp only [numberOf, List.foldl_cons, List.foldl_nil, id_eq]
        omega
    · obtain ⟨v0, v1, v2, v3, ws, h0, h1, h2, h3, rfl, hws⟩ := base64Grammar_cons hrest h
      have hlen := base64Grammar_length hws
      obtain ⟨d, hd, hdlen, hdnum⟩ := ih (by omega) hws
      have hnum := base64_value_cons (isBase64Char_lt h0) (isBase64Char_lt h1) (isBase64Char_lt h2)
        (isBase64Char_lt h3) (pow_base64_digits (m := m) (by omega) hdlen) hdnum
      rw [← b64Value_eq_some_iff] at h0 h1 h2 h3
      refine ⟨_, by rw [base64Groups_full h0 h1 h2 h3, hd], ?_, hnum⟩
      simp only [groupBytes, List.length_append, List.length_cons, List.length_nil]
      omega

/-- The decoder accepts exactly the strict grammar, with its value (R116). -/
theorem base64Decode_eq_ok_iff_grammar {t : Text} {d : Bytes} : base64Decode t = .ok d ↔
    ∃ vs n, Base64Grammar t vs n ∧ d.length + n = 3 * (t.length / 4) ∧
      numberOf 256 BitVec.toNat d = numberOf 64 id vs / 4 ^ n := by
  rw [base64Decode_eq_ok_iff]
  constructor
  · rintro ⟨hmod, hok⟩
    obtain ⟨vs, n, hgrammar⟩ := base64Grammar_of_base64Groups hok
    obtain ⟨e, he, hlen, hnum⟩ := base64Groups_of_grammar (m := t.length / 4) (by omega) hgrammar
    cases hok.symm.trans he
    exact ⟨vs, n, hgrammar, hlen, hnum⟩
  · rintro ⟨vs, n, hgrammar, hlen, hnum⟩
    have hmod := hgrammar.1
    obtain ⟨e, he, helen, henum⟩ := base64Groups_of_grammar (m := t.length / 4) (by omega) hgrammar
    obtain rfl : d = e := bytes_eq_of_numberOf_eq (by omega) (hnum.trans henum.symm)
    exact ⟨hmod, he⟩

theorem base64Decode_eq_error {t : Text} (h : ¬ ∃ vs n, Base64Grammar t vs n) :
    base64Decode t = .error .malformedCiphertext := by
  refine (base64Decode_eq_ok_or_error t).resolve_left ?_
  rintro ⟨d, hok⟩
  exact h (base64Grammar_of_base64Groups (base64Decode_eq_ok_iff.mp hok).2)

/-! ### The encoder (R115) -/

/-- The decoder reads the bytes back from their base64. -/
theorem base64Groups_base64Encode (b : Bytes) : base64Groups (base64Encode b) = .ok b := by
  fun_induction base64Encode b with
  | case1 => rfl
  | case2 a v =>
    have ha := a.isLt
    have hv : v / 0x40 ^ 3 % 0x40 * 0x40000 + v / 0x40 ^ 2 % 0x40 * 0x1000 = group24 a 0 0 := by
      simp only [v, group24, BitVec.reduceToNat]
      omega
    rw [base64Groups_two (b64Value_sextet v 0) (b64Value_sextet v 1), hv, groupBytes_group24]
    rfl
  | case3 a b v =>
    have ha := a.isLt
    have hb := b.isLt
    have hv : v / 0x40 ^ 3 % 0x40 * 0x40000 + v / 0x40 ^ 2 % 0x40 * 0x1000 + v / 0x40 ^ 1 % 0x40 * 0x40 =
        group24 a b 0 := by
      simp only [v, group24, BitVec.reduceToNat]
      omega
    rw [base64Groups_one (b64Value_sextet v 0) (b64Value_sextet v 1) (b64Value_sextet v 2), hv, groupBytes_group24]
    rfl
  | case4 a b c r v ih =>
    rw [base64Groups_full (b64Value_sextet v 0) (b64Value_sextet v 1) (b64Value_sextet v 2) (b64Value_sextet v 3), ih,
      sextets_eq (group24_lt a b c), groupBytes_group24]
    rfl

theorem length_base64Encode (b : Bytes) : (base64Encode b).length = 4 * ((b.length + 2) / 3) := by
  fun_induction base64Encode b with
  | case1 => rfl
  | case2 => simp
  | case3 => simp
  | case4 a b c r v ih =>
    simp only [List.length_cons, ih]
    omega

theorem mem_base64Encode {b : Bytes} {c : CodePoint} (hc : c ∈ base64Encode b) :
    (∃ v, IsBase64Char c v) ∨ c = b64Pad := by
  fun_induction base64Encode b with
  | case1 => simp at hc
  | case2 a v =>
    simp only [List.mem_cons, List.not_mem_nil, or_false] at hc
    rcases hc with rfl | rfl | rfl | rfl
    exacts [.inl ⟨_, isBase64Char_sextet ..⟩, .inl ⟨_, isBase64Char_sextet ..⟩, .inr rfl, .inr rfl]
  | case3 a b v =>
    simp only [List.mem_cons, List.not_mem_nil, or_false] at hc
    rcases hc with rfl | rfl | rfl | rfl
    exacts [.inl ⟨_, isBase64Char_sextet ..⟩, .inl ⟨_, isBase64Char_sextet ..⟩, .inl ⟨_, isBase64Char_sextet ..⟩, .inr rfl]
  | case4 a b c r v ih =>
    simp only [List.mem_cons] at hc
    rcases hc with rfl | rfl | rfl | rfl | hc
    exacts [.inl ⟨_, isBase64Char_sextet ..⟩, .inl ⟨_, isBase64Char_sextet ..⟩, .inl ⟨_, isBase64Char_sextet ..⟩,
      .inl ⟨_, isBase64Char_sextet ..⟩, ih hc]

theorem base64Decode_base64Encode (b : Bytes) : base64Decode (base64Encode b) = .ok b := by
  have hmod : (base64Encode b).length % 4 = 0 := by
    rw [length_base64Encode]
    omega
  exact base64Decode_eq_ok_iff.mpr ⟨hmod, base64Groups_base64Encode b⟩

/-- Settles O38: the encoder by induction on its groups; the decoder answers on a text of the grammar the one byte string of
the grammar's length and value, and refuses every other text. -/
theorem base64DecodeInvertsEncode : Obligations.Base64DecodeInvertsEncode :=
  ⟨fun b => ⟨base64Decode_base64Encode b, length_base64Encode b, fun _ => mem_base64Encode⟩,
    fun _ _ => base64Decode_eq_ok_iff_grammar, fun _ => base64Decode_eq_error⟩

end Sys2Proof.Machine
end

section
/-! Padding (spec/40_codec.md R120, R121): `unpad` as one equation, with the cases of R121 in its order. -/

namespace Sys2Proof.Machine

/-- Where one of the last `p` bytes differs from `x`. -/
theorem not_all_drop_iff (q : Bytes) (p : Nat) (x : Byte) : ¬ (q.drop (q.length - p)).all (fun y => y.toNat == x.toNat) = true ↔
    ∃ j, q.length - p ≤ j ∧ j < q.length ∧ q.getD j 0 ≠ x := by
  simp only [List.all_eq_true, beq_iff_eq, BitVec.toNat_inj, List.forall_mem_iff_getElem, List.length_drop,
    List.getElem_drop, not_forall]
  constructor
  · rintro ⟨i, hi, hne⟩
    exact ⟨q.length - p + i, by omega, by omega, by rwa [List.getD_eq_getElem _ _ (by omega)]⟩
  · rintro ⟨j, hlo, hhi, hne⟩
    refine ⟨j - (q.length - p), by omega, ?_⟩
    rw [List.getD_eq_getElem _ _ hhi] at hne
    simpa only [Nat.add_sub_cancel' hlo] using hne

/-- The cases in which `Unpad` raises PaddingError (R121). -/
def BadPad (n : Nat) (q : Bytes) : Prop :=
  q = [] ∨ q.length % n ≠ 0 ∨ (q.getLastD 0).toNat = 0 ∨ n < (q.getLastD 0).toNat ∨
    ∃ j, q.length - (q.getLastD 0).toNat ≤ j ∧ j < q.length ∧ q.getD j 0 ≠ q.getLastD 0

theorem unpad_eq_error {n : Nat} {q : Bytes} (h : BadPad n q) : unpad q n = .error .paddingError := by
  unfold unpad
  split
  · rfl
  next hlen =>
    rw [not_or, not_not] at hlen
    dsimp only
    split
    · rfl
    next hp =>
      rw [if_neg]
      obtain rfl | hmod | hzero | hbig | hdiffers := h
      · exact absurd rfl hlen.1
      · exact absurd hlen.2 hmod
      · exact absurd (.inl (by omega)) hp
      · exact absurd (.inr hbig) hp
      · exact (not_all_drop_iff ..).mpr hdiffers

theorem unpad_eq_ok {n : Nat} {q : Bytes} (h : ¬ BadPad n q) :
    unpad q n = .ok (q.take (q.length - (q.getLastD 0).toNat)) := by
  simp only [BadPad, not_or, ← not_all_drop_iff, not_not] at h
  obtain ⟨hne, hmod, hzero, hbig, hall⟩ := h
  rw [unpad, if_neg (by rw [not_or, List.length_eq_zero_iff]; exact ⟨hne, not_not.mpr hmod⟩)]
  rw [if_neg (by omega), if_pos hall]

theorem unpad_eq_error_iff {n : Nat} {q : Bytes} : unpad q n = .error .paddingError ↔ BadPad n q := by
  refine ⟨fun h => ?_, unpad_eq_error⟩
  by_contra hgood
  cases h.symm.trans (unpad_eq_ok hgood)

/-- Bytes that end in a valid pad and fill whole blocks are unpadded to what stands before it. -/
theorem unpad_of_endsInPad {n : Nat} {q b : Bytes} (hn : n ≤ 255) (hmod : q.length % n = 0) (h : EndsInPad n q b) :
    unpad q n = .ok b := by
  obtain ⟨p, hlo, hhi, rfl⟩ := h
  have hlast : ((b ++ List.replicate p (BitVec.ofNat 8 p)).getLastD 0) = BitVec.ofNat 8 p := by
    obtain ⟨k, rfl⟩ : ∃ k, p = k + 1 := ⟨p - 1, by omega⟩
    rw [List.replicate_succ', ← List.append_assoc, List.getLastD_concat]
  have hp : (BitVec.ofNat 8 p).toNat = p := by
    rw [BitVec.toNat_ofNat]
    omega
  rw [unpad_eq_ok, hlast, hp]
  · simp
  · rintro (hnil | hbad | hzero | hbig | ⟨j, hlo', hhi', hne⟩)
    · simp only [List.append_eq_nil_iff, List.replicate_eq_nil_iff] at hnil
      omega
    · exact hbad hmod
    · rw [hlast, hp] at hzero
      omega
    · rw [hlast, hp] at hbig
      omega
    · refine hne ?_
      rw [hlast, hp] at hlo'
      simp only [List.length_append, List.length_replicate] at hlo' hhi'
      rw [hlast, List.getD_append_right _ _ _ _ (by omega), List.getD_replicate _ (by omega)]

/-- What `Unpad` accepts fills whole blocks and ends in a valid pad. -/
theorem endsInPad_of_unpad {n : Nat} {q b : Bytes} (h : unpad q n = .ok b) :
    q.length % n = 0 ∧ EndsInPad n q b := by
  have hgood : ¬ BadPad n q := fun hbad => by cases h.symm.trans (unpad_eq_error hbad)
  cases h.symm.trans (unpad_eq_ok hgood)
  simp only [BadPad, not_or, ← not_all_drop_iff, not_not] at hgood
  obtain ⟨hne, hmod, hzero, hbig, hall⟩ := hgood
  have hle : n ≤ q.length := Nat.le_of_dvd (List.length_pos_iff.mpr hne) (Nat.dvd_of_mod_eq_zero hmod)
  have hdrop : q.drop (q.length - (q.getLastD 0).toNat) = List.replicate (q.getLastD 0).toNat (q.getLastD 0) := by
    refine List.eq_replicate_iff.mpr ⟨by rw [List.length_drop]; omega, fun x hx => ?_⟩
    have hx := List.all_eq_true.mp hall x hx
    rwa [beq_iff_eq, BitVec.toNat_inj] at hx
  refine ⟨hmod, (q.getLastD 0).toNat, by omega, by omega, ?_⟩
  rw [BitVec.ofNat_toNat, BitVec.setWidth_eq, ← hdrop, List.take_append_drop]

theorem unpad_eq_ok_iff {n : Nat} {q b : Bytes} (hn : n ≤ 255) :
    unpad q n = .ok b ↔ q.length % n = 0 ∧ EndsInPad n q b :=
  ⟨endsInPad_of_unpad, fun h => unpad_of_endsInPad hn h.1 h.2⟩

section
variable {n : Nat} (b : Bytes)

/-- The padded length is the next multiple of the block above the length (R120). -/
theorem length_pad (hn : 1 ≤ n) : (pad b n).length = n * (b.length / n + 1) := by
  have hlt : b.length % n < n := Nat.mod_lt _ hn
  have hdiv := Nat.div_add_mod b.length n
  simp only [pad, List.length_append, List.length_replicate]
  rw [Nat.mul_add, Nat.mul_one]
  omega

theorem length_pad_mod (hn : 1 ≤ n) : (pad b n).length % n = 0 := by
  rw [length_pad b hn, Nat.mul_mod_right]

theorem endsInPad_pad (hn : 1 ≤ n) : EndsInPad n (pad b n) b := by
  have hlt : b.length % n < n := Nat.mod_lt _ hn
  exact ⟨n - b.length % n, by omega, Nat.sub_le .., rfl⟩

theorem unpad_pad (hn : 1 ≤ n) (hn' : n ≤ 255) : unpad (pad b n) n = .ok b :=
  unpad_of_endsInPad hn' (length_pad_mod b hn) (endsInPad_pad b hn)

end

/-- Settles O39: `Unpad` raises PaddingError in the cases of R121 and else cuts the pad off. -/
theorem unpadInvertsPad : Obligations.UnpadInvertsPad := by
  refine ⟨fun b n hn hn' => ⟨unpad_pad b hn hn', length_pad_mod b hn, ?_⟩,
    fun q n _ hn' => ⟨fun b => unpad_eq_ok_iff hn', unpad_eq_error_iff⟩⟩
  rw [length_pad b hn]
  exact Nat.le_mul_of_pos_right n (Nat.succ_pos _)

end Sys2Proof.Machine
end

section
/-! CBC mode (spec/40_codec.md R125, R126) on lists of blocks: the recurrence of each block, the lengths, and the inverse. -/

namespace Sys2Proof.Machine

/-! ### Bytewise exclusive or -/

@[simp] theorem length_xorBytes (x y : Bytes) : (xorBytes x y).length = min x.length y.length := List.length_zipWith

theorem xorBytes_xorBytes_cancel {x y : Bytes} (h : x.length = y.length) : xorBytes (xorBytes x y) y = x := by
  refine List.ext_getElem (by simp [h]) fun i _ _ => ?_
  simp [xorBytes]

/-! ### Blocks -/

@[simp] theorem length_blocks (n k : Nat) (b : Bytes) : (blocks n k b).length = k := by
  induction k generalizing b with
  | zero => rfl
  | succ k ih => rw [blocks, List.length_cons, ih]

/-- The blocks are those of R125 and R126. -/
theorem getD_blocks {n k j : Nat} (b : Bytes) (hj : j < k) : (blocks n k b).getD j [] = blockAt n j b := by
  induction k generalizing b j with
  | zero => omega
  | succ k ih =>
    cases j with
    | zero => simp [blocks, blockAt]
    | succ j => rw [blocks, List.getD_cons_succ, ih _ (by omega), blockAt, List.drop_drop, blockAt, Nat.succ_mul, Nat.add_comm]

theorem length_of_mem_blocks {n k : Nat} {b x : Bytes} (hb : n * k ≤ b.length) (hx : x ∈ blocks n k b) :
    x.length = n := by
  induction k generalizing b with
  | zero => simp [blocks] at hx
  | succ k ih =>
    rw [Nat.mul_succ] at hb
    rcases List.mem_cons.mp hx with rfl | hx
    · rw [List.length_take]
      omega
    · exact ih (by rw [List.length_drop]; omega) hx

theorem flatten_blocks {n k : Nat} {b : Bytes} (hb : b.length = n * k) : (blocks n k b).flatten = b := by
  induction k generalizing b with
  | zero => exact (List.length_eq_zero_iff.mp hb).symm
  | succ k ih =>
    rw [Nat.mul_succ] at hb
    rw [blocks, List.flatten_cons, ih (by rw [List.length_drop]; omega), List.take_append_drop]

section
variable {n : Nat} {l : List Bytes} (h : ∀ x ∈ l, x.length = n)
include h

theorem length_flatten_of_blocks : l.flatten.length = n * l.length := by
  induction l with
  | nil => rfl
  | cons x l ih =>
    rw [List.forall_mem_cons] at h
    rw [List.flatten_cons, List.length_append, ih h.2, h.1, List.length_cons, Nat.mul_succ, Nat.add_comm]

theorem blocks_flatten : blocks n l.length l.flatten = l := by
  induction l with
  | nil => rfl
  | cons x l ih =>
    rw [List.forall_mem_cons] at h
    rw [List.length_cons, blocks, List.flatten_cons, List.take_left' h.1, List.drop_left' h.1, ih h.2]

theorem blocksOf_flatten (hn : 1 ≤ n) : blocksOf n l.flatten = l := by
  rw [blocksOf, length_flatten_of_blocks h, Nat.mul_div_cancel_left _ hn, blocks_flatten h]

theorem blockAt_flatten {j : Nat} (hj : j < l.length) : blockAt n j l.flatten = l.getD j [] := by
  rw [← getD_blocks _ hj, blocks_flatten h]

end

section
variable {n : Nat} {b : Bytes} (hb : b.length % n = 0)
include hb

theorem length_eq_mul_of_mod_eq_zero : b.length = n * (b.length / n) := by
  have hdiv := Nat.div_add_mod b.length n
  omega

theorem length_of_mem_blocksOf {x : Bytes} (hx : x ∈ blocksOf n b) : x.length = n :=
  length_of_mem_blocks (length_eq_mul_of_mod_eq_zero hb).ge hx

theorem flatten_blocksOf : (blocksOf n b).flatten = b := flatten_blocks (length_eq_mul_of_mod_eq_zero hb)

end

/-! ### The two loops -/

@[simp] theorem length_cbcEncryptBlocks (enc : Bytes → Bytes) (prev : Bytes) (ps : List Bytes) :
    (cbcEncryptBlocks enc prev ps).length = ps.length := by
  induction ps generalizing prev with
  | nil => rfl
  | cons p ps ih => rw [cbcEncryptBlocks, List.length_cons, ih, List.length_cons]

@[simp] theorem length_cbcDecryptBlocks (dec : Bytes → Bytes) (prev : Bytes) (cs : List Bytes) :
    (cbcDecryptBlocks dec prev cs).length = cs.length := by
  induction cs generalizing prev with
  | nil => rfl
  | cons c cs ih => rw [cbcDecryptBlocks, List.length_cons, ih, List.length_cons]

/-- Each ciphertext block from the plaintext block and the ciphertext block before it (R125). -/
theorem getD_cbcEncryptBlocks (enc : Bytes → Bytes) (prev : Bytes) {ps : List Bytes} {j : Nat} (hj : j < ps.length) :
    (cbcEncryptBlocks enc prev ps).getD j [] =
      enc (xorBytes (ps.getD j []) (if j = 0 then prev else (cbcEncryptBlocks enc prev ps).getD (j - 1) [])) := by
  induction ps generalizing prev j with
  | nil => simp at hj
  | cons p ps ih =>
    cases j with
    | zero => rfl
    | succ j =>
      rw [cbcEncryptBlocks, List.getD_cons_succ, ih _ (by simpa using hj), if_neg (Nat.succ_ne_zero j)]
      cases j <;> rfl

/-- Each plaintext block from the ciphertext block and the one before it (R126). -/
theorem getD_cbcDecryptBlocks (dec : Bytes → Bytes) (prev : Bytes) {cs : List Bytes} {j : Nat} (hj : j < cs.length) :
    (cbcDecryptBlocks dec prev cs).getD j [] =
      xorBytes (dec (cs.getD j [])) (if j = 0 then prev else cs.getD (j - 1) []) := by
  induction cs generalizing prev j with
  | nil => simp at hj
  | cons c cs ih =>
    cases j with
    | zero => rfl
    | succ j =>
      rw [cbcDecryptBlocks, List.getD_cons_succ, ih _ (by simpa using hj), if_neg (Nat.succ_ne_zero j)]
      cases j <;> rfl

section
variable {n : Nat} {prev : Bytes} {l : List Bytes} (hprev : prev.length = n) (hl : ∀ x ∈ l, x.length = n)
include hprev hl

theorem length_of_mem_cbcEncryptBlocks {enc : Bytes → Bytes} (henc : ∀ x, x.length = n → (enc x).length = n)
    {x : Bytes} (hx : x ∈ cbcEncryptBlocks enc prev l) : x.length = n := by
  induction l generalizing prev with
  | nil => simp [cbcEncryptBlocks] at hx
  | cons p ps ih =>
    rw [List.forall_mem_cons] at hl
    have hc : (enc (xorBytes p prev)).length = n := henc _ (by simp [hl.1, hprev])
    rcases List.mem_cons.mp hx with rfl | hx
    · exact hc
    · exact ih hc hl.2 hx

theorem length_of_mem_cbcDecryptBlocks {dec : Bytes → Bytes} (hdec : ∀ x, x.length = n → (dec x).length = n)
    {x : Bytes} (hx : x ∈ cbcDecryptBlocks dec prev l) : x.length = n := by
  induction l generalizing prev with
  | nil => simp [cbcDecryptBlocks] at hx
  | cons c cs ih =>
    rw [List.forall_mem_cons] at hl
    rcases List.mem_cons.mp hx with rfl | hx
    · simp [hdec c hl.1, hprev]
    · exact ih hl.1 hl.2 hx

theorem cbcDecryptBlocks_cbcEncryptBlocks {enc dec : Bytes → Bytes}
    (hinv : ∀ x, x.length = n → dec (enc x) = x ∧ (enc x).length = n) :
    cbcDecryptBlocks dec prev (cbcEncryptBlocks enc prev l) = l := by
  induction l generalizing prev with
  | nil => rfl
  | cons p ps ih =>
    rw [List.forall_mem_cons] at hl
    obtain ⟨hdec, hlen⟩ := hinv (xorBytes p prev) (by simp [hl.1, hprev])
    rw [cbcEncryptBlocks, cbcDecryptBlocks, hdec, xorBytes_xorBytes_cancel (hl.1.trans hprev.symm), ih hlen hl.2]

end

/-! ### Byte strings -/

section
variable {n : Nat} {iv b : Bytes} (hiv : iv.length = n) (hb : b.length % n = 0)
include hiv hb

theorem length_cbcEncrypt {enc : Bytes → Bytes} (henc : ∀ x, x.length = n → (enc x).length = n) :
    (cbcEncrypt enc n iv b).length = b.length := by
  have hblocks : ∀ x ∈ blocksOf n b, x.length = n := fun x => length_of_mem_blocksOf hb
  rw [cbcEncrypt, length_flatten_of_blocks fun x => length_of_mem_cbcEncryptBlocks hiv hblocks henc,
    length_cbcEncryptBlocks, blocksOf, length_blocks, ← length_eq_mul_of_mod_eq_zero hb]

theorem length_cbcDecrypt {dec : Bytes → Bytes} (hdec : ∀ x, x.length = n → (dec x).length = n) :
    (cbcDecrypt dec n iv b).length = b.length := by
  have hblocks : ∀ x ∈ blocksOf n b, x.length = n := fun x => length_of_mem_blocksOf hb
  rw [cbcDecrypt, length_flatten_of_blocks fun x => length_of_mem_cbcDecryptBlocks hiv hblocks hdec,
    length_cbcDecryptBlocks, blocksOf, length_blocks, ← length_eq_mul_of_mod_eq_zero hb]

/-- R125, block by block. -/
theorem blockAt_cbcEncrypt {enc : Bytes → Bytes} (henc : ∀ x, x.length = n → (enc x).length = n) {j : Nat}
    (hj : j < b.length / n) : blockAt n j (cbcEncrypt enc n iv b) =
      enc (xorBytes (blockAt n j b) (if j = 0 then iv else blockAt n (j - 1) (cbcEncrypt enc n iv b))) := by
  have hblocks : ∀ x ∈ blocksOf n b, x.length = n := fun x => length_of_mem_blocksOf hb
  have hcipher : ∀ x ∈ cbcEncryptBlocks enc iv (blocksOf n b), x.length = n := fun x =>
    length_of_mem_cbcEncryptBlocks hiv hblocks henc
  have hlen : (blocksOf n b).length = b.length / n := length_blocks ..
  have hat {i : Nat} (hi : i < b.length / n) :
      blockAt n i (cbcEncrypt enc n iv b) = (cbcEncryptBlocks enc iv (blocksOf n b)).getD i [] :=
    blockAt_flatten hcipher (by rwa [length_cbcEncryptBlocks, hlen])
  rw [hat hj, getD_cbcEncryptBlocks _ _ (by rwa [hlen]), hat (by omega), blocksOf, getD_blocks _ hj]

/-- R126, block by block. -/
theorem blockAt_cbcDecrypt {dec : Bytes → Bytes} (hdec : ∀ x, x.length = n → (dec x).length = n) {j : Nat}
    (hj : j < b.length / n) : blockAt n j (cbcDecrypt dec n iv b) =
      xorBytes (dec (blockAt n j b)) (if j = 0 then iv else blockAt n (j - 1) b) := by
  have hblocks : ∀ x ∈ blocksOf n b, x.length = n := fun x => length_of_mem_blocksOf hb
  have hlen : (blocksOf n b).length = b.length / n := length_blocks ..
  rw [cbcDecrypt, blockAt_flatten (fun x => length_of_mem_cbcDecryptBlocks hiv hblocks hdec)
    (by rwa [length_cbcDecryptBlocks, hlen]), getD_cbcDecryptBlocks _ _ (by rwa [hlen]), blocksOf, getD_blocks _ hj,
    getD_blocks _ (by omega)]

theorem cbcDecrypt_cbcEncrypt {enc dec : Bytes → Bytes} (hn : 1 ≤ n)
    (hinv : ∀ x, x.length = n → dec (enc x) = x ∧ (enc x).length = n) :
    cbcDecrypt dec n iv (cbcEncrypt enc n iv b) = b := by
  have hblocks : ∀ x ∈ blocksOf n b, x.length = n := fun x => length_of_mem_blocksOf hb
  have hcipher : ∀ x ∈ cbcEncryptBlocks enc iv (blocksOf n b), x.length = n := fun x =>
    length_of_mem_cbcEncryptBlocks hiv hblocks fun y hy => (hinv y hy).2
  rw [cbcDecrypt, cbcEncrypt, blocksOf_flatten hcipher hn, cbcDecryptBlocks_cbcEncryptBlocks hiv hblocks hinv,
    flatten_blocksOf hb]

end

/-- Settles O40: the loops run over the blocks, and the flattened blocks are cut where they were joined. -/
theorem cbcDecryptInvertsEncrypt : Obligations.CbcDecryptInvertsEncrypt :=
  ⟨fun _ _ _ _ _ henc hiv hp => ⟨length_cbcEncrypt hiv hp henc, fun _ => blockAt_cbcEncrypt hiv hp henc⟩,
    fun _ _ _ _ _ hdec hiv hc => ⟨length_cbcDecrypt hiv hc hdec, fun _ => blockAt_cbcDecrypt hiv hc hdec⟩,
    fun _ _ _ _ _ hn hinv hiv hp =>
      ⟨cbcDecrypt_cbcEncrypt hiv hp hn hinv, length_cbcEncrypt hiv hp fun x hx => (hinv x hx).2⟩⟩

end Sys2Proof.Machine
end

section
/-! BlockCipherA (spec/40_codec.md R122): AES-128 layer by layer, each with its inverse on blocks of 16 bytes, and the
permutations of any other choice of primitives. -/

namespace Sys2Proof.Machine

/-! ### The layers of a round -/

@[simp] theorem invSubByte_subByte : ∀ x : Byte, invSubByte (subByte x) = x := by decide +kernel

@[simp] theorem subByte_invSubByte : ∀ x : Byte, subByte (invSubByte x) = x := by decide +kernel

/-- A block of 16 bytes, byte by byte. -/
theorem exists_bytes_of_length_16 {s : Bytes} (h : s.length = 16) : ∃ a b c d e f g i j k l m n o p q : Byte,
    s = [a, b, c, d, e, f, g, i, j, k, l, m, n, o, p, q] := by
  match s, h with
  | [a, b, c, d, e, f, g, i, j, k, l, m, n, o, p, q], _ => exact ⟨a, b, c, d, e, f, g, i, j, k, l, m, n, o, p, q, rfl⟩

@[simp] theorem length_shiftRows (s : Bytes) : (shiftRows s).length = 16 := List.length_map _

@[simp] theorem length_invShiftRows (s : Bytes) : (invShiftRows s).length = 16 := List.length_map _

theorem invShiftRows_shiftRows {s : Bytes} (h : s.length = 16) : invShiftRows (shiftRows s) = s := by
  obtain ⟨a, b, c, d, e, f, g, i, j, k, l, m, n, o, p, q, rfl⟩ := exists_bytes_of_length_16 h
  rfl

theorem shiftRows_invShiftRows {s : Bytes} (h : s.length = 16) : shiftRows (invShiftRows s) = s := by
  obtain ⟨a, b, c, d, e, f, g, i, j, k, l, m, n, o, p, q, rfl⟩ := exists_bytes_of_length_16 h
  rfl

/-! ### MixColumns -/

theorem xtime_xor (a b : Byte) : xtime (a ^^^ b) = xtime a ^^^ xtime b := by
  have hmsb (x y : Byte) : (if (x ^^^ y).msb then 0x1b#8 else 0#8) =
      (if x.msb then 0x1b#8 else 0#8) ^^^ (if y.msb then 0x1b#8 else 0#8) := by
    rw [BitVec.msb_xor]
    cases x.msb <;> cases y.msb <;> rfl
  rw [xtime, xtime, xtime, hmsb, BitVec.shiftLeft_xor_distrib]
  ac_rfl

/-- One output byte of a matrix whose rows are rotations of the first: MixColumns and InvMixColumns are of this form. -/
def mixRow (f0 f1 f2 f3 : Byte → Byte) (a b c d : Byte) : Byte := f0 a ^^^ f1 b ^^^ f2 c ^^^ f3 d

theorem mixColumns_cons (a b c d : Byte) (r : Bytes) : mixColumns (a :: b :: c :: d :: r) =
    mixRow xtime mul3 id id a b c d :: mixRow xtime mul3 id id b c d a :: mixRow xtime mul3 id id c d a b ::
      mixRow xtime mul3 id id d a b c :: mixColumns r := by
  simp only [mixColumns, mixRow, id_eq, List.cons.injEq, and_true, true_and]
  refine ⟨?_, ?_, ?_⟩ <;> ac_rfl

theorem invMixColumns_cons (a b c d : Byte) (r : Bytes) : invMixColumns (a :: b :: c :: d :: r) =
    mixRow mul14 mul11 mul13 mul9 a b c d :: mixRow mul14 mul11 mul13 mul9 b c d a ::
      mixRow mul14 mul11 mul13 mul9 c d a b :: mixRow mul14 mul11 mul13 mul9 d a b c :: invMixColumns r := by
  simp only [invMixColumns, mixRow, List.cons.injEq, and_true, true_and]
  refine ⟨?_, ?_, ?_⟩ <;> ac_rfl

/-- A function that is additive over exclusive or, as every multiplication in GF(2^8) is. -/
def XorAdditive (f : Byte → Byte) : Prop := ∀ x y, f (x ^^^ y) = f x ^^^ f y

theorem xorAdditive_xtime : XorAdditive xtime := xtime_xor

theorem xorAdditive_id : XorAdditive id := fun _ _ => rfl

theorem XorAdditive.xor {f g : Byte → Byte} (hf : XorAdditive f) (hg : XorAdditive g) :
    XorAdditive fun x => f x ^^^ g x := fun x y => by
  simp only [hf x y, hg x y]
  ac_rfl

theorem XorAdditive.comp {f g : Byte → Byte} (hf : XorAdditive f) (hg : XorAdditive g) :
    XorAdditive fun x => f (g x) := fun x y => by simp only [hg x y, hf (g x) (g y)]

theorem xorAdditive_xtime_three : XorAdditive fun x => xtime (xtime (xtime x)) :=
  xorAdditive_xtime.comp (xorAdditive_xtime.comp xorAdditive_xtime)

theorem xorAdditive_mul3 : XorAdditive mul3 := xorAdditive_xtime.xor xorAdditive_id

theorem xorAdditive_mul9 : XorAdditive mul9 := xorAdditive_xtime_three.xor xorAdditive_id

theorem xorAdditive_mul11 : XorAdditive mul11 := (xorAdditive_xtime_three.xor xorAdditive_xtime).xor xorAdditive_id

theorem xorAdditive_mul13 : XorAdditive mul13 :=
  (xorAdditive_xtime_three.xor (xorAdditive_xtime.comp xorAdditive_xtime)).xor xorAdditive_id

theorem xorAdditive_mul14 : XorAdditive mul14 :=
  (xorAdditive_xtime_three.xor (xorAdditive_xtime.comp xorAdditive_xtime)).xor xorAdditive_xtime

/-- A row of one matrix undoes another when the coefficients of their product are those of the identity. -/
theorem mixRow_mixRow {f0 f1 f2 f3 g0 g1 g2 g3 : Byte → Byte} (h0 : XorAdditive f0) (h1 : XorAdditive f1)
    (h2 : XorAdditive f2) (h3 : XorAdditive f3) (ha : ∀ x, f0 (g0 x) ^^^ f1 (g3 x) ^^^ f2 (g2 x) ^^^ f3 (g1 x) = x)
    (hb : ∀ x, f0 (g1 x) ^^^ f1 (g0 x) ^^^ f2 (g3 x) ^^^ f3 (g2 x) = 0#8)
    (hc : ∀ x, f0 (g2 x) ^^^ f1 (g1 x) ^^^ f2 (g0 x) ^^^ f3 (g3 x) = 0#8)
    (hd : ∀ x, f0 (g3 x) ^^^ f1 (g2 x) ^^^ f2 (g1 x) ^^^ f3 (g0 x) = 0#8) (a b c d : Byte) :
    mixRow f0 f1 f2 f3 (mixRow g0 g1 g2 g3 a b c d) (mixRow g0 g1 g2 g3 b c d a) (mixRow g0 g1 g2 g3 c d a b)
      (mixRow g0 g1 g2 g3 d a b c) = a := by
  calc
    _ = (f0 (g0 a) ^^^ f1 (g3 a) ^^^ f2 (g2 a) ^^^ f3 (g1 a)) ^^^ (f0 (g1 b) ^^^ f1 (g0 b) ^^^ f2 (g3 b) ^^^ f3 (g2 b)) ^^^
        (f0 (g2 c) ^^^ f1 (g1 c) ^^^ f2 (g0 c) ^^^ f3 (g3 c)) ^^^
        (f0 (g3 d) ^^^ f1 (g2 d) ^^^ f2 (g1 d) ^^^ f3 (g0 d)) := by
      simp only [mixRow, h0 _ _, h1 _ _, h2 _ _, h3 _ _]
      ac_rfl
    _ = a := by rw [ha, hb, hc, hd, BitVec.xor_zero, BitVec.xor_zero, BitVec.xor_zero]

theorem invMixRow_mixRow (a b c d : Byte) :
    mixRow mul14 mul11 mul13 mul9 (mixRow xtime mul3 id id a b c d) (mixRow xtime mul3 id id b c d a)
      (mixRow xtime mul3 id id c d a b) (mixRow xtime mul3 id id d a b c) = a :=
  mixRow_mixRow xorAdditive_mul14 xorAdditive_mul11 xorAdditive_mul13 xorAdditive_mul9 (by decide +kernel)
    (by decide +kernel) (by decide +kernel) (by decide +kernel) a b c d

theorem mixRow_invMixRow (a b c d : Byte) :
    mixRow xtime mul3 id id (mixRow mul14 mul11 mul13 mul9 a b c d) (mixRow mul14 mul11 mul13 mul9 b c d a)
      (mixRow mul14 mul11 mul13 mul9 c d a b) (mixRow mul14 mul11 mul13 mul9 d a b c) = a :=
  mixRow_mixRow xorAdditive_xtime xorAdditive_mul3 xorAdditive_id xorAdditive_id (by decide +kernel)
    (by decide +kernel) (by decide +kernel) (by decide +kernel) a b c d

theorem invMixColumns_mixColumns {s : Bytes} (h : s.length = 16) : invMixColumns (mixColumns s) = s := by
  obtain ⟨a, b, c, d, e, f, g, i, j, k, l, m, n, o, p, q, rfl⟩ := exists_bytes_of_length_16 h
  simp only [mixColumns_cons, invMixColumns_cons, invMixRow_mixRow]
  rfl

theorem mixColumns_invMixColumns {s : Bytes} (h : s.length = 16) : mixColumns (invMixColumns s) = s := by
  obtain ⟨a, b, c, d, e, f, g, i, j, k, l, m, n, o, p, q, rfl⟩ := exists_bytes_of_length_16 h
  simp only [mixColumns_cons, invMixColumns_cons, mixRow_invMixRow]
  rfl

theorem length_mixColumns {s : Bytes} (h : s.length = 16) : (mixColumns s).length = 16 := by
  obtain ⟨a, b, c, d, e, f, g, i, j, k, l, m, n, o, p, q, rfl⟩ := exists_bytes_of_length_16 h
  rfl

theorem length_invMixColumns {s : Bytes} (h : s.length = 16) : (invMixColumns s).length = 16 := by
  obtain ⟨a, b, c, d, e, f, g, i, j, k, l, m, n, o, p, q, rfl⟩ := exists_bytes_of_length_16 h
  rfl

/-! ### The rounds -/

theorem map_invSubByte_map_subByte (s : Bytes) : (s.map subByte).map invSubByte = s := by
  rw [List.map_map]
  exact List.map_id'' invSubByte_subByte s

theorem map_subByte_map_invSubByte (s : Bytes) : (s.map invSubByte).map subByte = s := by
  rw [List.map_map]
  exact List.map_id'' subByte_invSubByte s

theorem length_xorBytes_16 {s k : Bytes} (hs : s.length = 16) (hk : k.length = 16) : (xorBytes s k).length = 16 := by
  simp [hs, hk]

theorem length_aesDecRounds_last (k s : Bytes) : (aesDecRounds [k] s).length = 16 := by
  simp [aesDecRounds]

section
variable {k s : Bytes} (hk : k.length = 16) (hs : s.length = 16)
include hk

theorem length_aesEncRounds_last : (aesEncRounds [k] s).length = 16 := by
  simp [aesEncRounds, hk]

include hs

theorem aesDecRounds_aesEncRounds_last : aesDecRounds [k] (aesEncRounds [k] s) = s := by
  rw [aesDecRounds, aesEncRounds, xorBytes_xorBytes_cancel (by simp [hk]), invShiftRows_shiftRows (by simpa using hs),
    map_invSubByte_map_subByte]

theorem aesEncRounds_aesDecRounds_last : aesEncRounds [k] (aesDecRounds [k] s) = s := by
  rw [aesDecRounds, aesEncRounds, map_subByte_map_invSubByte, shiftRows_invShiftRows (length_xorBytes_16 hs hk),
    xorBytes_xorBytes_cancel (hs.trans hk.symm)]

end

section
variable {k k' : Bytes} {ks : List Bytes} {s : Bytes}

theorem aesEncRounds_cons : aesEncRounds (k :: k' :: ks) s =
    aesEncRounds (k' :: ks) (xorBytes (mixColumns (shiftRows (s.map subByte))) k) := rfl

theorem aesDecRounds_cons : aesDecRounds (k :: k' :: ks) s =
    (invShiftRows (invMixColumns (xorBytes (aesDecRounds (k' :: ks) s) k))).map invSubByte := rfl

end

/-- The inverse rounds undo the rounds. -/
theorem aesDecRounds_aesEncRounds {ks : List Bytes} {s : Bytes} (hks : ∀ k ∈ ks, k.length = 16) (hs : s.length = 16) :
    aesDecRounds ks (aesEncRounds ks s) = s ∧ (aesEncRounds ks s).length = 16 := by
  match ks with
  | [] => exact ⟨rfl, hs⟩
  | [k] =>
    have hk := hks k List.mem_cons_self
    exact ⟨aesDecRounds_aesEncRounds_last hk hs, length_aesEncRounds_last hk⟩
  | k :: k' :: ks =>
    rw [List.forall_mem_cons] at hks
    have hmix : (mixColumns (shiftRows (s.map subByte))).length = 16 := length_mixColumns (length_shiftRows _)
    obtain ⟨hinv, hlen⟩ := aesDecRounds_aesEncRounds hks.2 (length_xorBytes_16 hmix hks.1)
    refine ⟨?_, hlen⟩
    rw [aesEncRounds_cons, aesDecRounds_cons, hinv, xorBytes_xorBytes_cancel (hmix.trans hks.1.symm),
      invMixColumns_mixColumns (length_shiftRows _), invShiftRows_shiftRows (by simpa using hs),
      map_invSubByte_map_subByte]

/-- The rounds undo the inverse rounds. -/
theorem aesEncRounds_aesDecRounds {ks : List Bytes} {y : Bytes} (hks : ∀ k ∈ ks, k.length = 16) (hy : y.length = 16) :
    aesEncRounds ks (aesDecRounds ks y) = y ∧ (aesDecRounds ks y).length = 16 := by
  match ks with
  | [] => exact ⟨rfl, hy⟩
  | [k] =>
    have hk := hks k List.mem_cons_self
    exact ⟨aesEncRounds_aesDecRounds_last hk hy, length_aesDecRounds_last k y⟩
  | k :: k' :: ks =>
    rw [List.forall_mem_cons] at hks
    obtain ⟨hinv, hlen⟩ := aesEncRounds_aesDecRounds hks.2 hy
    have hxor : (xorBytes (aesDecRounds (k' :: ks) y) k).length = 16 := length_xorBytes_16 hlen hks.1
    refine ⟨?_, by rw [aesDecRounds_cons, List.length_map, length_invShiftRows]⟩
    rw [aesDecRounds_cons, aesEncRounds_cons, map_subByte_map_invSubByte,
      shiftRows_invShiftRows (length_invMixColumns hxor), mixColumns_invMixColumns hxor,
      xorBytes_xorBytes_cancel (hlen.trans hks.1.symm), hinv]

/-! ### The cipher -/

theorem length_nextRoundKey {k : Bytes} (hk : k.length = 16) (rcon : Byte) : (nextRoundKey k rcon).length = 16 := by
  simp [nextRoundKey, pickBytes, hk]

theorem length_of_mem_aesRoundKeys {rcons : List Byte} {k : Bytes} (hk : k.length = 16) {x : Bytes}
    (hx : x ∈ aesRoundKeys rcons k) : x.length = 16 := by
  induction rcons generalizing k with
  | nil => simp [aesRoundKeys] at hx
  | cons r rs ih =>
    rcases List.mem_cons.mp hx with rfl | hx
    · exact length_nextRoundKey hk r
    · exact ih (length_nextRoundKey hk r) hx

section
variable {k x : Bytes} (hk : k.length = 16) (hx : x.length = 16)
include hk hx

theorem aesDecrypt_aesEncrypt : aesDecrypt k (aesEncrypt k x) = x ∧ (aesEncrypt k x).length = 16 := by
  obtain ⟨hinv, hlen⟩ := aesDecRounds_aesEncRounds (ks := aesRoundKeys aesRcons k)
    (fun _ => length_of_mem_aesRoundKeys hk) (length_xorBytes_16 hx hk)
  exact ⟨by rw [aesDecrypt, aesEncrypt, hinv, xorBytes_xorBytes_cancel (hx.trans hk.symm)], hlen⟩

theorem aesEncrypt_aesDecrypt : aesEncrypt k (aesDecrypt k x) = x ∧ (aesDecrypt k x).length = 16 := by
  obtain ⟨hinv, hlen⟩ := aesEncRounds_aesDecRounds (ks := aesRoundKeys aesRcons k)
    (fun _ => length_of_mem_aesRoundKeys hk) hx
  exact ⟨by rw [aesEncrypt, aesDecrypt, xorBytes_xorBytes_cancel (hlen.trans hk.symm), hinv],
    length_xorBytes_16 hlen hk⟩

end

/-! ### Any choice of primitives -/

/-- A byte string of length `n` is the list of its vector. -/
theorem toList_vectorOf {n : Nat} {b : Bytes} (h : b.length = n) : (vectorOf n b).toList = b := by
  refine List.ext_getElem (by simp [h]) fun i hi _ => ?_
  have hib : i < b.length := by simpa [h] using hi
  simp [vectorOf, hib]

@[simp] theorem vectorOf_toList {n : Nat} (v : Vector Byte n) : vectorOf n v.toList = v := by
  refine Vector.ext fun i _ => ?_
  simp [vectorOf]

/-- Decryption of BlockCipherA undoes encryption, and encryption keeps the block length (R122). -/
theorem decryptA_encryptA (p : Primitives) {k x : Bytes} (hk : k.length = 16) (hx : x.length = 16) :
    decryptA p k (encryptA p k x) = x ∧ (encryptA p k x).length = 16 := by
  cases p with
  | reference => exact aesDecrypt_aesEncrypt hk hx
  | platform n =>
    simp only [decryptA, encryptA, vectorOf_toList, Equiv.symm_apply_apply, toList_vectorOf hx, Vector.length_toList,
      and_self]

/-- Encryption of BlockCipherA undoes decryption, and decryption keeps the block length (R122). -/
theorem encryptA_decryptA (p : Primitives) {k x : Bytes} (hk : k.length = 16) (hx : x.length = 16) :
    encryptA p k (decryptA p k x) = x ∧ (decryptA p k x).length = 16 := by
  cases p with
  | reference => exact aesEncrypt_aesDecrypt hk hx
  | platform n =>
    simp only [decryptA, encryptA, vectorOf_toList, Equiv.apply_symm_apply, toList_vectorOf hx, Vector.length_toList,
      and_self]

/-- Settles O41: AES-128 is undone layer by layer, and another choice of primitives is a permutation with its inverse. -/
theorem blockCipherAInverts : Obligations.BlockCipherAInverts := by
  intro p k x hk hx
  obtain ⟨hdec, hlen⟩ := decryptA_encryptA p hk hx
  exact ⟨hdec, (encryptA_decryptA p hk hx).1, hlen⟩

end Sys2Proof.Machine
end

section
/-! BlockCipherB (spec/40_codec.md R123): the bit permutations of DES and its rounds, which the same rounds in the other order
undo, and the three keys of TDEA. -/

namespace Sys2Proof.Machine

/-! ### Bit permutations -/

/-- The bits of a number written in binary, the first digit the highest. -/
theorem testBit_numberOf_two {α : Type} {bit : α → Bool} (l : List α) {j : Nat} (hj : j < l.length) :
    (numberOf 2 (fun x => (bit x).toNat) l).testBit (l.length - 1 - j) = bit l[j] := by
  induction l generalizing j with
  | nil => simp at hj
  | cons x l ih =>
    rw [numberOf_cons, Nat.testBit_two_pow_mul_add _ (numberOf_lt (fun y => (bit y).toNat_lt) l), List.length_cons]
    cases j with
    | zero =>
      rw [if_neg (by omega), show l.length + 1 - 1 - 0 - l.length = 0 by omega]
      cases hbit : bit x <;> simp [hbit]
    | succ j =>
      rw [List.length_cons] at hj
      rw [if_pos (by omega), show l.length + 1 - 1 - (j + 1) = l.length - 1 - j by omega, ih (by omega)]
      rfl

/-- Bit `j` of the selected bits, counted from the highest, is the bit that the table names. -/
theorem getMsbD_selectBits {m n : Nat} {table : List Nat} (x : BitVec m) (hn : table.length = n) {j : Nat} (hj : j < n) :
    (selectBits n table x).getMsbD j = x.getMsbD (table.getD j 0 - 1) := by
  subst hn
  have hbit := testBit_numberOf_two (bit := fun i => x.getMsbD (i - 1)) table hj
  rw [BitVec.getMsbD_eq_getLsbD, decide_eq_true hj, Bool.true_and, selectBits, BitVec.getLsbD_ofNat,
    decide_eq_true (by omega), Bool.true_and, List.getD_eq_getElem _ _ hj]
  exact hbit

/-- A table that lists where another takes each bit from undoes it. -/
theorem selectBits_selectBits {n : Nat} {t u : List Nat} (ht : t.length = n) (hu : u.length = n)
    (h : ∀ j < n, u.getD j 0 - 1 < n ∧ t.getD (u.getD j 0 - 1) 0 - 1 = j) (x : BitVec n) :
    selectBits n u (selectBits n t x) = x := by
  refine BitVec.eq_of_getMsbD_eq fun j hj => ?_
  obtain ⟨hlt, hback⟩ := h j hj
  rw [getMsbD_selectBits _ hu hj, getMsbD_selectBits _ ht hlt, hback]

theorem desFinal_desInitial (x : BitVec 64) : selectBits 64 desFinal (selectBits 64 desInitial x) = x :=
  selectBits_selectBits (n := 64) (by decide) (by decide) (by decide +kernel) x

theorem desInitial_desFinal (x : BitVec 64) : selectBits 64 desInitial (selectBits 64 desFinal x) = x :=
  selectBits_selectBits (n := 64) (by decide) (by decide) (by decide +kernel) x

/-! ### The rounds -/

/-- The halves after one round. -/
def desRound (h : BitVec 32 × BitVec 32) (k : BitVec 48) : BitVec 32 × BitVec 32 := (h.2, h.1 ^^^ desFunction h.2 k)

/-- The rounds are those of the halves, which are then exchanged and joined. -/
theorem desRounds_eq_foldl (ks : List (BitVec 48)) (l r : BitVec 32) :
    desRounds ks l r = (ks.foldl desRound (l, r)).2 ++ (ks.foldl desRound (l, r)).1 := by
  induction ks generalizing l r with
  | nil => rfl
  | cons k ks ih =>
    rw [desRounds, ih]
    rfl

/-- A round on the exchanged halves after a round gives the exchanged halves before it. -/
theorem desRound_swap_desRound (h : BitVec 32 × BitVec 32) (k : BitVec 48) :
    desRound (desRound h k).swap k = h.swap := by
  simp only [desRound, Prod.swap, BitVec.xor_assoc, BitVec.xor_self, BitVec.xor_zero]

theorem foldl_desRound_reverse (ks : List (BitVec 48)) (h : BitVec 32 × BitVec 32) :
    ks.reverse.foldl desRound (ks.foldl desRound h).swap = h.swap := by
  induction ks generalizing h with
  | nil => rfl
  | cons k ks ih =>
    rw [List.reverse_cons, List.foldl_append, List.foldl_cons (l := ks), ih]
    exact desRound_swap_desRound h k

/-! A block is its two halves. -/

theorem append_extractLsb' (b : BitVec 64) : b.extractLsb' 32 32 ++ b.extractLsb' 0 32 = b := by
  refine BitVec.eq_of_getLsbD_eq fun i hi => ?_
  rw [BitVec.getLsbD_append]
  split
  next hlo => simp [hlo]
  next hlo => simp [show i - 32 < 32 by omega, show 32 + (i - 32) = i by omega]

theorem extractLsb'_append_hi (a b : BitVec 32) : (a ++ b).extractLsb' 32 32 = a := by
  refine BitVec.eq_of_getLsbD_eq fun i hi => ?_
  rw [BitVec.getLsbD_extractLsb', decide_eq_true hi, Bool.true_and, BitVec.getLsbD_append, if_neg (by omega),
    Nat.add_sub_cancel_left]

theorem extractLsb'_append_lo (a b : BitVec 32) : (a ++ b).extractLsb' 0 32 = b := by
  refine BitVec.eq_of_getLsbD_eq fun i hi => ?_
  rw [BitVec.getLsbD_extractLsb', decide_eq_true hi, Bool.true_and, BitVec.getLsbD_append, Nat.zero_add, if_pos hi]

/-- The round keys in the other order undo DES. -/
theorem desWith_reverse (ks : List (BitVec 48)) (x : BitVec 64) : desWith ks.reverse (desWith ks x) = x := by
  simp only [desWith, desInitial_desFinal, desRounds_eq_foldl, extractLsb'_append_hi, extractLsb'_append_lo]
  have hback := foldl_desRound_reverse ks ((selectBits 64 desInitial x).extractLsb' 32 32,
    (selectBits 64 desInitial x).extractLsb' 0 32)
  rw [Prod.swap] at hback
  rw [hback, Prod.swap, append_extractLsb', desFinal_desInitial]

theorem desDecrypt_desEncrypt (k x : BitVec 64) : desDecrypt k (desEncrypt k x) = x := desWith_reverse _ x

theorem desEncrypt_desDecrypt (k x : BitVec 64) : desEncrypt k (desDecrypt k x) = x := by
  have h := desWith_reverse (desRoundKeys k).reverse x
  rwa [List.reverse_reverse] at h

/-! ### Bytes and bits -/

theorem bits64_eq (b : Bytes) : bits64 b = BitVec.ofNat 64 (numberOf 256 BitVec.toNat b) := rfl

theorem numberOf_bytes64 (v : BitVec 64) : numberOf 256 BitVec.toNat (bytes64 v) = v.toNat := by
  have hv := v.isLt
  simp only [bytes64, numberOf, List.foldl_cons, List.foldl_nil, BitVec.extractLsb'_toNat, Nat.shiftRight_eq_div_pow]
  omega

theorem bits64_bytes64 (v : BitVec 64) : bits64 (bytes64 v) = v := by
  rw [bits64_eq, numberOf_bytes64, BitVec.ofNat_toNat, BitVec.setWidth_eq]

theorem bytes64_bits64 {b : Bytes} (h : b.length = 8) : bytes64 (bits64 b) = b := by
  refine bytes_eq_of_numberOf_eq h.symm ?_
  have hlt := numberOf_lt (fun x : Byte => x.isLt) b
  rw [h] at hlt
  rw [numberOf_bytes64, bits64_eq, BitVec.toNat_ofNat]
  exact Nat.mod_eq_of_lt hlt

/-! ### TDEA -/

theorem tdeaDecrypt_tdeaEncrypt (k : Bytes) {x : Bytes} (hx : x.length = 8) : tdeaDecrypt k (tdeaEncrypt k x) = x := by
  rw [tdeaDecrypt, tdeaEncrypt, bits64_bytes64, desDecrypt_desEncrypt, desEncrypt_desDecrypt, desDecrypt_desEncrypt,
    bytes64_bits64 hx]

theorem tdeaEncrypt_tdeaDecrypt (k : Bytes) {x : Bytes} (hx : x.length = 8) : tdeaEncrypt k (tdeaDecrypt k x) = x := by
  rw [tdeaDecrypt, tdeaEncrypt, bits64_bytes64, desEncrypt_desDecrypt, desDecrypt_desEncrypt, desEncrypt_desDecrypt,
    bytes64_bits64 hx]

/-- Decryption of BlockCipherB undoes encryption, and encryption keeps the block length (R123). -/
theorem decryptB_encryptB (p : Primitives) (k : Bytes) {x : Bytes} (hx : x.length = 8) :
    decryptB p k (encryptB p k x) = x ∧ (encryptB p k x).length = 8 := by
  cases p with
  | reference => exact ⟨tdeaDecrypt_tdeaEncrypt k hx, rfl⟩
  | platform n =>
    simp only [decryptB, encryptB, vectorOf_toList, Equiv.symm_apply_apply, toList_vectorOf hx, Vector.length_toList,
      and_self]

/-- Encryption of BlockCipherB undoes decryption, and decryption keeps the block length (R123). -/
theorem encryptB_decryptB (p : Primitives) (k : Bytes) {x : Bytes} (hx : x.length = 8) :
    encryptB p k (decryptB p k x) = x ∧ (decryptB p k x).length = 8 := by
  cases p with
  | reference => exact ⟨tdeaEncrypt_tdeaDecrypt k hx, rfl⟩
  | platform n =>
    simp only [decryptB, encryptB, vectorOf_toList, Equiv.apply_symm_apply, toList_vectorOf hx, Vector.length_toList,
      and_self]

/-- Settles O42: DES is undone by its round keys in the other order, TDEA by undoing its three keys in turn, and another
choice of primitives is a permutation with its inverse. -/
theorem blockCipherBInverts : Obligations.BlockCipherBInverts := by
  intro p k x _ hx
  obtain ⟨hdec, hlen⟩ := decryptB_encryptB p k hx
  exact ⟨hdec, (encryptB_decryptB p k hx).1, hlen⟩

end Sys2Proof.Machine
end

section
/-! What every command answers (spec/43_dispatch.md R192 to R198): the texts of the bodies hold code points, so a command
waits for entropy, completes with an error, or completes with a text that OUT can hold. -/

namespace Sys2Proof.Machine

/-! ### The classical bodies by their keys -/

section
variable (t k : Text)

theorem shiftEncrypt_eq_map : shiftEncrypt t k = (parseInt k).map fun off => t.map fun c => shiftChar c (shiftOf off) := by
  unfold shiftEncrypt
  cases parseInt k <;> rfl

theorem shiftDecrypt_eq_map : shiftDecrypt t k =
    (parseInt k).map fun off => t.map fun c => shiftChar c (shiftOf (-off)) := by
  unfold shiftDecrypt
  cases parseInt k <;> rfl

theorem vigenereEncrypt_eq_map : vigenereEncrypt t k = (vigenereKey k).map fun ks => shiftAlong ks 0 t := by
  unfold vigenereEncrypt
  cases vigenereKey k <;> rfl

theorem vigenereDecrypt_eq_map : vigenereDecrypt t k = (vigenereKey k).map fun ks =>
    shiftAlong (ks.map fun n => (Config.alphabetSize - n) % Config.alphabetSize) 0 t := by
  unfold vigenereDecrypt
  cases vigenereKey k <;> rfl

theorem railEncrypt_eq_map : railEncrypt t k = (railCount k).map fun r => railWrite r t := by
  unfold railEncrypt
  cases railCount k <;> rfl

theorem railDecrypt_eq_map : railDecrypt t k = (railCount k).map fun r => railRead r t := by
  unfold railDecrypt
  cases railCount k <;> rfl

end

/-! ### The texts of the bodies -/

/-- A body answers only code points when it is given only code points. -/
def KeepsCharacters (body : Text → Text → Except ErrorKind Text) : Prop :=
  ∀ t k o : Text, t.Valid → body t k = .ok o → o.Valid

theorem shiftChar_le {c : Nat} (n : Nat) (hc : c ≤ maxCodePoint) : shiftChar c n ≤ maxCodePoint := by
  have hmax : (0x61 : Nat) + 26 ≤ maxCodePoint := by decide
  have hlt (m : Nat) : m % Config.alphabetSize < 26 := Nat.mod_lt m (by decide)
  unfold shiftChar
  split
  · exact (Nat.add_le_add_left (hlt _).le _).trans hmax
  · split
    · exact (Nat.add_le_add (by decide) (hlt _).le).trans hmax
    · exact hc

theorem atbashChar_le {c : Nat} (hc : c ≤ maxCodePoint) : atbashChar c ≤ maxCodePoint := by
  unfold atbashChar
  split
  · exact (Nat.sub_le _ _).trans (by decide)
  · split
    · exact (Nat.sub_le _ _).trans (by decide)
    · exact hc

theorem valid_map {t : Text} {f : CodePoint → CodePoint} (hf : ∀ c, c ≤ maxCodePoint → f c ≤ maxCodePoint)
    (ht : t.Valid) : Text.Valid (t.map f) :=
  List.forall_mem_map.mpr fun c hc => hf c (ht c hc)

/-- A character of a text, or the 0 that stands for none. -/
theorem getD_le_of_valid {t : Text} (ht : t.Valid) (i : Nat) : t.getD i 0 ≤ maxCodePoint := by
  rcases Nat.lt_or_ge i t.length with hi | hi
  · rw [List.getD_eq_getElem _ _ hi]
    exact ht _ (List.getElem_mem hi)
  · rw [List.getD_eq_default _ _ hi]
    exact Nat.zero_le _

theorem shiftAlong_valid (ks : List Nat) (i : Nat) {t : Text} (ht : t.Valid) : Text.Valid (shiftAlong ks i t) := by
  rw [shiftAlong_eq_mapIdx]
  exact forall_mem_mapIdx_iff.mpr fun j _ => shiftChar_le _ (getD_le_of_valid ht j)

/-- A body that reads a key and then changes the text, as all classical bodies but the one-time pad's do. -/
theorem keepsCharacters_of_key {α : Type} {body : Text → Text → Except ErrorKind Text} {key : Text → Except ErrorKind α}
    {f : α → Text → Text} (hbody : ∀ t k, body t k = (key k).map fun x => f x t)
    (hf : ∀ x (t : Text), t.Valid → Text.Valid (f x t)) : KeepsCharacters body := by
  intro t k o ht ho
  rw [hbody] at ho
  cases hkey : key k with
  | error e =>
    rw [hkey] at ho
    cases ho
  | ok x =>
    rw [hkey] at ho
    cases ho
    exact hf x t ht

theorem keepsCharacters_shiftEncrypt : KeepsCharacters shiftEncrypt :=
  keepsCharacters_of_key shiftEncrypt_eq_map
    fun _ _ => valid_map fun _ => shiftChar_le _

theorem keepsCharacters_shiftDecrypt : KeepsCharacters shiftDecrypt :=
  keepsCharacters_of_key shiftDecrypt_eq_map
    fun _ _ => valid_map fun _ => shiftChar_le _

theorem keepsCharacters_vigenereEncrypt : KeepsCharacters vigenereEncrypt :=
  keepsCharacters_of_key vigenereEncrypt_eq_map
    fun ks _ => shiftAlong_valid ks 0

theorem keepsCharacters_vigenereDecrypt : KeepsCharacters vigenereDecrypt :=
  keepsCharacters_of_key vigenereDecrypt_eq_map
    fun _ _ => shiftAlong_valid _ 0

theorem keepsCharacters_oneTimePad : KeepsCharacters oneTimePad := by
  intro t k o ht ho
  rw [oneTimePad_eq] at ho
  split_ifs at ho with hempty hshort hchars
  cases ho
  exact forall_mem_mapIdx_iff.mpr hchars

theorem keepsCharacters_atbash : KeepsCharacters atbash := by
  intro t k o ht ho
  cases ho
  exact valid_map (fun _ => atbashChar_le) ht

theorem keepsCharacters_railEncrypt : KeepsCharacters railEncrypt :=
  keepsCharacters_of_key railEncrypt_eq_map fun _ _ ht =>
    List.forall_mem_map.mpr fun i _ => getD_le_of_valid ht i

theorem keepsCharacters_railDecrypt : KeepsCharacters railDecrypt :=
  keepsCharacters_of_key railDecrypt_eq_map fun _ _ ht =>
    List.forall_mem_map.mpr fun _ _ => getD_le_of_valid ht _

theorem utf8Decode_valid {b : Bytes} {t : Text} (h : utf8Decode b = .ok t) : t.Valid := fun c hc =>
  ((utf8Decode_eq_ok_iff.mp h).1 c hc).1

theorem keepsCharacters_blockDecrypt (c : BlockCipher) : KeepsCharacters (blockDecrypt c) := by
  intro t k o _ ho
  unfold blockDecrypt at ho
  split at ho
  · cases ho
  split at ho
  · cases ho
  unfold blockDecryptBytes at ho
  split at ho
  · cases ho
  split at ho
  · cases ho
  split at ho
  · cases ho
  split at ho
  · cases ho
  split at ho
  · cases ho
  · exact utf8Decode_valid ho

theorem isBase64Char_le {c v : Nat} (h : IsBase64Char c v) : c ≤ maxCodePoint := by
  have hmax : 0x7A ≤ maxCodePoint := by decide
  rw [isBase64Char_iff] at h
  omega

theorem base64Encode_valid (b : Bytes) : Text.Valid (base64Encode b) := by
  intro c hc
  rcases mem_base64Encode hc with ⟨v, hv⟩ | rfl
  · exact isBase64Char_le hv
  · decide

theorem blockEncryptText_valid {c : BlockCipher} {key iv : Bytes} {t o : Text}
    (h : blockEncryptText c key iv t = .ok o) : o.Valid := by
  unfold blockEncryptText at h
  split at h
  · cases h
  · cases h
    exact base64Encode_valid _

/-! ### The two forms of a command -/

/-- A command that draws no IV runs a body that its parameters alone choose. -/
theorem exec_of_drawLength_eq_zero {i : Instr} (h : drawLength i = 0) :
    ∃ body : Params → Text → Text → Except ErrorKind Text, (∀ p, KeepsCharacters (body p)) ∧
      ∀ s, exec i s = s.runBody (readsKey i) (body s.params) := by
  cases i with
  | shiftEnc => exact ⟨fun _ => shiftEncrypt, fun _ => keepsCharacters_shiftEncrypt, fun _ => rfl⟩
  | shiftDec => exact ⟨fun _ => shiftDecrypt, fun _ => keepsCharacters_shiftDecrypt, fun _ => rfl⟩
  | vigEnc => exact ⟨fun _ => vigenereEncrypt, fun _ => keepsCharacters_vigenereEncrypt, fun _ => rfl⟩
  | vigDec => exact ⟨fun _ => vigenereDecrypt, fun _ => keepsCharacters_vigenereDecrypt, fun _ => rfl⟩
  | otpEnc => exact ⟨fun _ => oneTimePad, fun _ => keepsCharacters_oneTimePad, fun _ => rfl⟩
  | otpDec => exact ⟨fun _ => oneTimePad, fun _ => keepsCharacters_oneTimePad, fun _ => rfl⟩
  | atbashEnc => exact ⟨fun _ => atbash, fun _ => keepsCharacters_atbash, fun _ => rfl⟩
  | atbashDec => exact ⟨fun _ => atbash, fun _ => keepsCharacters_atbash, fun _ => rfl⟩
  | railEnc => exact ⟨fun _ => railEncrypt, fun _ => keepsCharacters_railEncrypt, fun _ => rfl⟩
  | railDec => exact ⟨fun _ => railDecrypt, fun _ => keepsCharacters_railDecrypt, fun _ => rfl⟩
  | blkaDec => exact ⟨fun p => blockDecrypt (blockCipherA p), fun _ => keepsCharacters_blockDecrypt _, fun _ => rfl⟩
  | blkbDec => exact ⟨fun p => blockDecrypt (blockCipherB p), fun _ => keepsCharacters_blockDecrypt _, fun _ => rfl⟩
  | blkaEnc => cases h
  | blkbEnc => cases h

/-- A command that draws an IV is the block encryption of a cipher whose block has the length of the draw. -/
theorem exec_of_drawLength_ne_zero {i : Instr} (h : drawLength i ≠ 0) :
    ∃ c : Params → BlockCipher, (∀ p, (c p).blockLen = drawLength i) ∧
      ∀ s, exec i s = runBlockEncrypt (c s.params) s := by
  cases i with
  | blkaEnc => exact ⟨blockCipherA, fun _ => rfl, fun _ => rfl⟩
  | blkbEnc => exact ⟨blockCipherB, fun _ => rfl, fun _ => rfl⟩
  | _ => exact absurd rfl h

/-! ### The outcomes -/

/-- An outcome that OUT can hold: a text of code points that fits, or an error (R98, R196). -/
def FitsOut (p : Params) (r : Except ErrorKind Text) : Prop := ∀ o, r = .ok o → o.length ≤ p.outCap ∧ o.Valid

theorem fitsOut_error (p : Params) (e : ErrorKind) : FitsOut p (.error e) := nofun

theorem fitsOut_limitOutput {s : State} {r : Except ErrorKind Text} (h : ∀ o, r = .ok o → o.Valid) :
    FitsOut s.params (s.limitOutput r) := by
  intro o ho
  obtain ⟨hr, hlen⟩ := (limitOutput_ok_iff ..).mp ho
  exact ⟨hlen, h o hr⟩

theorem fitsOut_outcome {s : State} {keyRead : Bool} {body : Text → Text → Except ErrorKind Text}
    (h : KeepsCharacters body) : FitsOut s.params (s.outcome keyRead body) := by
  intro o ho
  obtain ⟨hv, hbody, hlen⟩ := (outcome_ok_iff ..).mp ho
  exact ⟨hlen, h _ _ o hv.inChars hbody⟩

/-- A block encrypt command waits for entropy or completes, having drawn nothing or one IV (R170, R245). -/
theorem runBlockEncrypt_waits_or_fits (c : BlockCipher) (s : State) :
    (runBlockEncrypt c s = .next s ∧ s.entropy.length < c.blockLen) ∨
    ∃ n r, (n = 0 ∨ n = c.blockLen) ∧ FitsOut s.params r ∧
      runBlockEncrypt c s = .next (({ s with entropy := s.entropy.drop n } : State).complete r) := by
  rcases runBlockEncrypt_cases c s with ⟨e, _, herr⟩ | ⟨_, e, _, herr⟩ | ⟨_, _, hshort, hwait⟩ | ⟨_, key, _, _, hdone⟩
  · exact .inr ⟨0, .error e, .inl rfl, fitsOut_error _ e, herr⟩
  · exact .inr ⟨0, .error e, .inl rfl, fitsOut_error _ e, herr⟩
  · exact .inl ⟨hwait, hshort⟩
  · exact .inr ⟨_, _, .inr rfl, fitsOut_limitOutput fun _ => blockEncryptText_valid, hdone⟩

/-- Every command waits for entropy or completes, with an outcome that OUT can hold (R192, R196, R245). -/
theorem exec_waits_or_fits (i : Instr) (s : State) :
    (exec i s = .next s ∧ drawLength i ≠ 0 ∧ s.entropy.length < drawLength i) ∨
    ∃ n r, (n = 0 ∨ n = drawLength i) ∧ FitsOut s.params r ∧
      exec i s = .next (({ s with entropy := s.entropy.drop n } : State).complete r) := by
  by_cases hdraw : drawLength i = 0
  · obtain ⟨body, hbody, hexec⟩ := exec_of_drawLength_eq_zero hdraw
    exact .inr ⟨0, _, .inl rfl, fitsOut_outcome (hbody s.params), hexec s⟩
  · obtain ⟨c, hlen, hexec⟩ := exec_of_drawLength_ne_zero hdraw
    rw [hexec, ← hlen s.params]
    exact (runBlockEncrypt_waits_or_fits _ s).imp_left fun ⟨hwait, hshort⟩ => ⟨hwait, hlen s.params ▸ hdraw, hshort⟩

/-! ### Completions after a draw -/

theorem CompletionFrame.of_drawn {s t : State} {b : Bytes} (h : CompletionFrame { s with entropy := b } t) :
    CompletionFrame s t := { h with }

theorem CompletedOk.of_drawn {s t : State} {b : Bytes} {o : Text} (h : CompletedOk { s with entropy := b } t o) :
    CompletedOk s t o := { h with toCompletionFrame := h.toCompletionFrame.of_drawn }

theorem CompletedErr.of_drawn {s t : State} {b : Bytes} {e : ErrorKind} (h : CompletedErr { s with entropy := b } t e) :
    CompletedErr s t e := { h with toCompletionFrame := h.toCompletionFrame.of_drawn }

/-- A completion after a draw, with an outcome that OUT can hold. -/
theorem complete_drawn_cases {s : State} (b : Bytes) {r : Except ErrorKind Text} (hp : s.params.Legal)
    (hr : FitsOut s.params r) :
    (∃ o, r = .ok o ∧ CompletedOk s (({ s with entropy := b } : State).complete r) o) ∨
      ∃ e, r = .error e ∧ CompletedErr s (({ s with entropy := b } : State).complete r) e := by
  cases r with
  | ok o =>
    have hdone : CompletedOk { s with entropy := b } _ o := completeOk_completed hp (hr o rfl).1
    exact .inl ⟨o, rfl, hdone.of_drawn⟩
  | error e =>
    have hdone : CompletedErr { s with entropy := b } _ e := completeError_completed e hp
    exact .inr ⟨e, rfl, hdone.of_drawn⟩

/-- Settles O8: a command waits, or its outcome is one that OUT can hold, completed after a draw or none. -/
theorem everyCommandCompletesOrWaits : Obligations.EveryCommandCompletesOrWaits := by
  intro i s hp
  rcases exec_waits_or_fits i s with ⟨hwait, hdraw, hshort⟩ | ⟨n, r, hn, hr, hdone⟩
  · exact ⟨s, hwait, .inr (.inr ⟨rfl, hdraw, hshort⟩), .inl rfl⟩
  · refine ⟨_, hdone, ?_, ?_⟩
    · rcases complete_drawn_cases (s.entropy.drop n) hp hr with ⟨o, rfl, hok⟩ | ⟨e, -, herr⟩
      · obtain ⟨hlen, hvalid⟩ := hr o rfl
        exact .inl ⟨o, hok, hlen, hvalid⟩
      · exact .inr (.inl ⟨e, herr⟩)
    · rw [complete_entropy]
      rcases hn with rfl | rfl
      · exact .inl rfl
      · exact .inr rfl

end Sys2Proof.Machine
end

section
/-! What one step can do (spec/20_memory.md R68), said once: the core's turn, a host access, a reset or a delivery of the
entropy source. The statements about a step and the state after it rest on it. -/

namespace Sys2Proof.Machine

/-- The state whose next event has been taken. -/
def State.taken (s : State) : State := { s with pending := s.pending.tail, response := .silent }

@[simp] theorem taken_params (s : State) : s.taken.params = s.params := rfl
@[simp] theorem taken_irqen (s : State) : s.taken.irqen = s.irqen := rfl
@[simp] theorem taken_cmd (s : State) : s.taken.cmd = s.cmd := rfl
@[simp] theorem taken_busy (s : State) : s.taken.busy = s.busy := rfl
@[simp] theorem taken_done (s : State) : s.taken.done = s.done := rfl
@[simp] theorem taken_inLen (s : State) : s.taken.inLen = s.inLen := rfl
@[simp] theorem taken_keyLen (s : State) : s.taken.keyLen = s.keyLen := rfl
@[simp] theorem taken_mem (s : State) : s.taken.mem = s.mem := rfl

/-- What a step from `s` can leave: the core's turn; a bus response and nothing else; an accepted write at an aligned offset
of the aperture; a reset; a delivery of entropy. -/
inductive StepTo (s : State) : State → Prop
  | core {t : State} (event : s.pending.headD .core = .core) (turn : coreTurn s.taken = .next t) : StepTo s t
  | answer (r : Response) : StepTo s { s.taken with response := r }
  | write {off : Nat} (v : Word) (inAperture : off < Config.apertureSize) (aligned : off % 4 = 0)
      (event : s.pending.head? = some (.write (s.params.base + off) 4 v)) :
      StepTo s { s.taken.writeTarget v (targetAt s.params off) with response := .ack }
  | reset (event : s.pending.head? = some .hardwareReset) : StepTo s s.taken.doReset
  | entropy (b : Bytes) : StepTo s { s.taken with entropy := s.entropy ++ b }

theorem step_eq_of_head {s : State} {e : Event} {es : List Event} (h : s.pending = e :: es) (hc : e ≠ .core) :
    step s = s.taken.applyEvent e := by
  rw [step_of_event h hc, State.taken, h, List.tail_cons]

/-- A read of the host only answers. -/
theorem hostRead_eq_answer (s : State) (addr size : Nat) : ∃ r, s.hostRead addr size = { s with response := r } := by
  unfold State.hostRead
  split
  · exact ⟨_, rfl⟩
  · exact ⟨_, rfl⟩

/-- Every step is one of these. -/
theorem stepTo_of_step {s t : State} (h : step s = .next t) : StepTo s t := by
  by_cases hcore : s.pending.headD .core = .core
  · exact .core hcore ((step_of_core hcore).symm.trans h)
  cases hp : s.pending with
  | nil => exact absurd (by rw [hp]; rfl) hcore
  | cons e es =>
    have hhead : s.pending.head? = some e := by rw [hp]; rfl
    rw [hp, List.headD_cons] at hcore
    rw [step_eq_of_head hp hcore] at h
    cases e with
    | core => exact absurd rfl hcore
    | hardwareReset =>
      cases h
      exact .reset hhead
    | entropy b =>
      cases h
      exact .entropy b
    | read addr size =>
      simp only [State.applyEvent] at h
      split at h
      · cases h
        obtain ⟨r, hr⟩ := hostRead_eq_answer s.taken addr size
        rw [hr]
        exact .answer r
      · cases h
    | write addr size v =>
      simp only [State.applyEvent] at h
      split at h
      next hreach =>
        cases h
        obtain ⟨off, rfl⟩ := Nat.exists_eq_add_of_le ((reaches_iff ..).mp hreach).1
        have hoff : off < Config.apertureSize := Nat.lt_of_add_lt_add_left ((reaches_iff ..).mp hreach).2
        unfold State.hostWrite
        split
        next hacc =>
          rw [taken_params, Nat.add_sub_cancel_left, accessAccepted_iff] at hacc
          obtain ⟨rfl, haligned⟩ := hacc
          rw [taken_params, Nat.add_sub_cancel_left]
          exact .write v hoff haligned hhead
        · exact .answer .busError
      next => cases h

/-! ### The core's turn -/

/-- The core's turn on an idle core. -/
theorem coreTurn_idle {s : State} (h : s.busy = false) : coreTurn s = .next s := by
  rw [coreTurn, if_neg (by simp [h])]

/-- The core's turn while BUSY: a wait, or a completion with an outcome that OUT can hold. -/
theorem coreTurn_waits_or_fits {s : State} (hbusy : s.busy = true) : coreTurn s = .next s ∨
    ∃ b r, FitsOut s.params r ∧ coreTurn s = .next (({ s with entropy := b } : State).complete r) := by
  unfold coreTurn
  rw [if_pos hbusy]
  cases s.fetch with
  | ok i =>
    rcases exec_waits_or_fits i s with ⟨hwait, -⟩ | ⟨n, r, -, hr, hdone⟩
    · exact .inl hwait
    · exact .inr ⟨_, r, hr, hdone⟩
  | error _ => exact .inr ⟨s.entropy, .error .unsupportedAlgorithm, fitsOut_error _ _, rfl⟩

/-! ### Writes -/

/-- What a write of CTRL does (R190, R191). -/
theorem writeCtrl_cases (s : State) (v : Word) :
    (v.getLsbD 1 = true ∧ s.writeCtrl v = s.doReset) ∨
    (v.getLsbD 1 = false ∧ v.getLsbD 0 = false ∧ s.writeCtrl v = { s with irqen := v.getLsbD 2 }) ∨
    (v.getLsbD 1 = false ∧ v.getLsbD 0 = true ∧ s.busy = true ∧
      s.writeCtrl v = ({ s with irqen := v.getLsbD 2 } : State).dropWrite) ∨
    (v.getLsbD 1 = false ∧ v.getLsbD 0 = true ∧ s.busy = false ∧
      s.writeCtrl v = ({ s with irqen := v.getLsbD 2 } : State).acceptStart) := by
  unfold State.writeCtrl
  cases hsrst : v.getLsbD 1 with
  | true => exact .inl ⟨rfl, rfl⟩
  | false =>
    cases hstart : v.getLsbD 0 with
    | false => exact .inr (.inl ⟨rfl, rfl, rfl⟩)
    | true =>
      cases hbusy : s.busy with
      | true => exact .inr (.inr (.inl ⟨rfl, rfl, rfl, by simp⟩))
      | false => exact .inr (.inr (.inr ⟨rfl, rfl, rfl, by simp⟩))

theorem unlessBusy_of_busy {s : State} (h : s.busy = true) (f : State → State) : s.unlessBusy f = s.dropWrite := if_pos h

theorem unlessBusy_of_idle {s : State} (h : s.busy = false) (f : State → State) : s.unlessBusy f = f s :=
  if_neg (by simp [h])

section
variable (s : State) (v : Word)

@[simp] theorem writeTarget_ctrl : s.writeTarget v .ctrl = s.writeCtrl v := rfl
@[simp] theorem writeTarget_status : s.writeTarget v .status = s.clearStatus v := rfl

theorem writeTarget_cmd : s.writeTarget v .cmd = s.unlessBusy fun s => { s with cmd := v } := rfl

theorem writeTarget_inLen : s.writeTarget v .inLen = s.unlessBusy fun s => { s with inLen := v } := rfl

theorem writeTarget_keyLen : s.writeTarget v .keyLen = s.unlessBusy fun s => { s with keyLen := v } := rfl

theorem writeTarget_inCell (i : Nat) : s.writeTarget v (.inCell i) = s.unlessBusy fun s => s.writeCell (inAddr i) v := rfl

theorem writeTarget_keyCell (i : Nat) : s.writeTarget v (.keyCell i) = s.unlessBusy fun s => s.writeCell (keyAddr i) v :=
  rfl

end

/-- A write while BUSY to anything but CTRL is dropped, clears status bits or changes nothing (R247). -/
theorem writeTarget_of_busy {s : State} (hbusy : s.busy = true) (v : Word) {x : Target} (hx : x ≠ .ctrl) :
    s.writeTarget v x = s.dropWrite ∨ s.writeTarget v x = s.clearStatus v ∨ s.writeTarget v x = s := by
  cases x with
  | ctrl => exact absurd rfl hx
  | cmd => exact .inl (by rw [writeTarget_cmd, unlessBusy_of_busy hbusy])
  | inLen => exact .inl (by rw [writeTarget_inLen, unlessBusy_of_busy hbusy])
  | keyLen => exact .inl (by rw [writeTarget_keyLen, unlessBusy_of_busy hbusy])
  | inCell i => exact .inl (by rw [writeTarget_inCell, unlessBusy_of_busy hbusy])
  | keyCell i => exact .inl (by rw [writeTarget_keyCell, unlessBusy_of_busy hbusy])
  | status => exact .inr (.inl rfl)
  | _ => exact .inr (.inr rfl)

/-- A write of an idle core to anything but CTRL. -/
theorem writeTarget_of_idle {s : State} (hidle : s.busy = false) (v : Word) {x : Target} (hx : x ≠ .ctrl) :
    (x = .cmd ∧ s.writeTarget v x = { s with cmd := v }) ∨ (x = .inLen ∧ s.writeTarget v x = { s with inLen := v }) ∨
    (x = .keyLen ∧ s.writeTarget v x = { s with keyLen := v }) ∨
    (∃ i, x = .inCell i ∧ s.writeTarget v x = s.writeCell (inAddr i) v) ∨
    (∃ i, x = .keyCell i ∧ s.writeTarget v x = s.writeCell (keyAddr i) v) ∨
    s.writeTarget v x = s.clearStatus v ∨ s.writeTarget v x = s := by
  cases x with
  | ctrl => exact absurd rfl hx
  | cmd => exact .inl ⟨rfl, by rw [writeTarget_cmd, unlessBusy_of_idle hidle]⟩
  | inLen => exact .inr (.inl ⟨rfl, by rw [writeTarget_inLen, unlessBusy_of_idle hidle]⟩)
  | keyLen => exact .inr (.inr (.inl ⟨rfl, by rw [writeTarget_keyLen, unlessBusy_of_idle hidle]⟩))
  | inCell i => exact .inr (.inr (.inr (.inl ⟨i, rfl, by rw [writeTarget_inCell, unlessBusy_of_idle hidle]⟩)))
  | keyCell i => exact .inr (.inr (.inr (.inr (.inl ⟨i, rfl, by rw [writeTarget_keyCell, unlessBusy_of_idle hidle]⟩))))
  | status => exact .inr (.inr (.inr (.inr (.inr (.inl rfl)))))
  | _ => exact .inr (.inr (.inr (.inr (.inr (.inr rfl)))))

/-- No write to anything but CTRL raises DONE. -/
theorem writeTarget_done_le (s : State) (v : Word) {x : Target} (hx : x ≠ .ctrl) (h : s.done = false) :
    (s.writeTarget v x).done = false := by
  cases hbusy : s.busy with
  | true =>
    rcases writeTarget_of_busy hbusy v hx with e | e | e <;> rw [e]
    · exact h
    · rw [clearStatus_done, h, Bool.false_and]
    · exact h
  | false =>
    rcases writeTarget_of_idle hbusy v hx with ⟨-, e⟩ | ⟨-, e⟩ | ⟨-, e⟩ | ⟨i, -, e⟩ | ⟨i, -, e⟩ | e | e <;> rw [e]
    case inr.inr.inr.inr.inr.inl => rw [clearStatus_done, h, Bool.false_and]
    all_goals exact h

/-! ### Over many steps -/

/-- Only the offset of CTRL names it. -/
theorem targetAt_ctrl {p : Params} {off : Nat} (h4 : off % 4 = 0) (h : targetAt p off = .ctrl) : off = Config.offCtrl := by
  rcases targetAt_cases p h4 with ⟨-, e⟩ | ⟨i, -, -, e⟩ | ⟨i, -, -, e⟩ | ⟨i, -, -, e⟩ | ⟨-, e⟩
  · exact registerAt_ctrl (e.symm.trans h)
  all_goals cases e.symm.trans h

/-- Settles O55: a step that leaves BUSY at 1 is a wait, an answer, a dropped write, or no access at all. -/
theorem operandsAreFixedWhileBusy : Obligations.OperandsAreFixedWhileBusy := by
  intro s t hbusy hstep ht
  have hbusy' : s.taken.busy = true := hbusy
  cases stepTo_of_step hstep with
  | core _ hturn =>
    rcases coreTurn_waits_or_fits hbusy' with hwait | ⟨b, r, -, hdone⟩
    · cases hwait.symm.trans hturn
      exact ⟨rfl, rfl, rfl, rfl⟩
    · cases hdone.symm.trans hturn
      rw [complete_busy] at ht
      cases ht
  | answer r => exact ⟨rfl, rfl, rfl, rfl⟩
  | @write off v _ _ _ =>
    by_cases hx : targetAt s.params off = .ctrl
    · rw [hx] at ht ⊢
      rw [writeTarget_ctrl] at ht ⊢
      rcases writeCtrl_cases s.taken v with ⟨-, e⟩ | ⟨-, -, e⟩ | ⟨-, -, -, e⟩ | ⟨-, -, hidle, -⟩
      · rw [e] at ht
        cases ht
      · rw [e]
        exact ⟨rfl, rfl, rfl, rfl⟩
      · rw [e]
        exact ⟨rfl, rfl, rfl, rfl⟩
      · cases hbusy'.symm.trans hidle
    · rcases writeTarget_of_busy hbusy' v hx with e | e | e <;> rw [e] <;> exact ⟨rfl, rfl, rfl, rfl⟩
  | reset _ => cases ht
  | entropy b => exact ⟨rfl, rfl, rfl, rfl⟩

/-- Settles O56: in the core's turn a wait leaves BUSY at 1 and a completion sets DONE; of the writes only a reset request
ends BUSY. -/
theorem busyEndsByCompletionOrReset : Obligations.BusyEndsByCompletionOrReset := by
  intro s t hbusy hstep ht
  have hbusy' : s.taken.busy = true := hbusy
  cases stepTo_of_step hstep with
  | core hcore hturn =>
    rcases coreTurn_waits_or_fits hbusy' with hwait | ⟨b, r, -, hdone⟩
    · cases hwait.symm.trans hturn
      cases hbusy.symm.trans ht
    · cases hdone.symm.trans hturn
      exact .inl ⟨hcore, complete_done ..⟩
  | answer r => cases hbusy.symm.trans ht
  | @write off v _ haligned hevent =>
    by_cases hx : targetAt s.params off = .ctrl
    · obtain rfl := targetAt_ctrl haligned hx
      rw [hx] at ht
      rw [writeTarget_ctrl] at ht
      rcases writeCtrl_cases s.taken v with ⟨hsrst, -⟩ | ⟨-, -, e⟩ | ⟨-, -, -, e⟩ | ⟨-, -, hidle, -⟩
      · exact .inr (.inr ⟨v, hsrst, hevent⟩)
      · rw [e] at ht
        cases hbusy.symm.trans ht
      · rw [e] at ht
        cases hbusy.symm.trans ht
      · cases hbusy'.symm.trans hidle
    · obtain ⟨-, -, hkeep, -⟩ := writeTarget_of_ne_ctrl s.taken v hx
      cases hbusy'.symm.trans (hkeep.symm.trans ht)
  | reset hevent => exact .inr (.inl hevent)
  | entropy b => cases hbusy.symm.trans ht

/-- Settles O57: no host access raises DONE, and a completion leaves IRQEN. -/
theorem doneRisesOnlyByCompletion : Obligations.DoneRisesOnlyByCompletion := by
  intro s t hstep hdone ht
  cases stepTo_of_step hstep with
  | core hcore hturn =>
    cases hbusy : s.busy with
    | false =>
      cases (coreTurn_idle (s := s.taken) hbusy).symm.trans hturn
      cases hdone.symm.trans ht
    | true =>
      rcases coreTurn_waits_or_fits (s := s.taken) hbusy with hwait | ⟨b, r, -, hcomplete⟩
      · cases hwait.symm.trans hturn
        cases hdone.symm.trans ht
      · cases hcomplete.symm.trans hturn
        exact ⟨rfl, hcore, complete_busy .., by rw [State.irq, complete_done, complete_irqen, Bool.and_true, taken_irqen]⟩
  | answer r => cases hdone.symm.trans ht
  | @write off v _ _ _ =>
    by_cases hx : targetAt s.params off = .ctrl
    · rw [hx] at ht
      rw [writeTarget_ctrl] at ht
      rcases writeCtrl_cases s.taken v with ⟨-, e⟩ | ⟨-, -, e⟩ | ⟨-, -, -, e⟩ | ⟨-, -, -, e⟩ <;> rw [e] at ht
      · cases ht
      · cases hdone.symm.trans ht
      · cases hdone.symm.trans ht
      · cases ht
    · cases (writeTarget_done_le s.taken v hx hdone).symm.trans ht
  | reset _ => cases ht
  | entropy b => cases hdone.symm.trans ht

end Sys2Proof.Machine
end

section
/-! The invariant of the machine (spec/10_state.md R36, R40, spec/30_encoding.md R98, spec/43_dispatch.md R190, R198): what it
depends on, and every change of the state that a step can make. -/

namespace Sys2Proof.Machine

/-- A code point as a cell. -/
theorem toNat_ofNat_of_le_max {c : Nat} (h : c ≤ maxCodePoint) : (BitVec.ofNat 32 c).toNat = c := by
  have hmax : maxCodePoint < 2 ^ 32 := by decide
  rw [BitVec.toNat_ofNat, Nat.mod_eq_of_lt (h.trans_lt hmax)]

/-- A write to a cell of IN or KEY is to one below the capacity (R63). -/
theorem lt_inCap_of_targetAt {p : Params} {off i : Nat} (h4 : off % 4 = 0) (h : targetAt p off = .inCell i) :
    i < p.inCap := by
  rcases targetAt_cases p h4 with ⟨-, e⟩ | ⟨j, hj, -, e⟩ | ⟨j, hj, -, e⟩ | ⟨j, hj, -, e⟩ | ⟨-, e⟩ <;> rw [h] at e
  · exact absurd e.symm (registerAt_ne_cell off i).1
  all_goals cases e
  exact hj

theorem lt_keyCap_of_targetAt {p : Params} {off i : Nat} (h4 : off % 4 = 0) (h : targetAt p off = .keyCell i) :
    i < p.keyCap := by
  rcases targetAt_cases p h4 with ⟨-, e⟩ | ⟨j, hj, -, e⟩ | ⟨j, hj, -, e⟩ | ⟨j, hj, -, e⟩ | ⟨-, e⟩ <;> rw [h] at e
  · exact absurd e.symm (registerAt_ne_cell off i).2.1
  all_goals cases e
  exact hj

/-- Every cell of an empty memory reads 0. -/
theorem readCell_nil (a : Nat) : Memory.readCell [] a = 0 := by
  show wordOfBytes 0 0 0 0 = 0
  decide

namespace State.Inv

/-- The invariant speaks of these fields alone. -/
theorem of_eq {s t : State} (h : s.Inv) (hparams : t.params = s.params) (hbusy : t.busy = s.busy) (hdone : t.done = s.done)
    (herrcode : t.errcode = s.errcode) (houtLen : t.outLen = s.outLen) (hmem : t.mem = s.mem) : t.Inv := by
  have hcell (i : Nat) : t.outCell i = s.outCell i := by rw [State.outCell, hmem, State.outCell]
  constructor
  case legal => exact hparams ▸ h.legal
  case memWf => exact hmem ▸ h.memWf
  case memInCells => rw [hmem, hparams]; exact h.memInCells
  case busyClean => rw [hbusy, hdone, herrcode, houtLen]; exact h.busyClean
  case outLenFits => rw [houtLen, hparams]; exact h.outLenFits
  case outTail => simp only [hbusy, houtLen, hparams, hcell]; exact h.outTail
  case outChars => simp only [hparams, hcell]; exact h.outChars
  case errEmpty => rw [herrcode, houtLen]; exact h.errEmpty

/-- The state without its next event (R68). -/
theorem taken {s : State} (h : s.Inv) : s.taken.Inv := h.of_eq rfl rfl rfl rfl rfl rfl

/-! ### Start, status and reset -/

theorem acceptStart {s : State} (h : s.Inv) : s.acceptStart.Inv where
  legal := h.legal
  memWf := h.memWf
  memInCells := h.memInCells
  busyClean := fun _ => ⟨rfl, rfl, rfl⟩
  outLenFits := Nat.zero_le _
  outTail := nofun
  outChars := h.outChars
  errEmpty := fun _ => rfl

theorem clearStatus {s : State} (h : s.Inv) (v : Word) : (s.clearStatus v).Inv where
  legal := h.legal
  memWf := h.memWf
  memInCells := h.memInCells
  busyClean := fun hbusy => by
    obtain ⟨hdone, hrest⟩ := h.busyClean hbusy
    exact ⟨by rw [clearStatus_done, hdone, Bool.false_and], hrest⟩
  outLenFits := h.outLenFits
  outTail := h.outTail
  outChars := h.outChars
  errEmpty := h.errEmpty

theorem doReset {s : State} (h : s.params.Legal) : s.doReset.Inv where
  legal := h
  memWf := ⟨.nil, nofun⟩
  memInCells := nofun
  busyClean := nofun
  outLenFits := Nat.zero_le _
  outTail := fun _ _ _ _ => readCell_nil _
  outChars := fun i _ => by
    rw [State.outCell, doReset_mem, readCell_nil]
    exact Nat.zero_le _
  errEmpty := fun _ => rfl

/-! ### Cells -/

/-- The write of a cell of IN or KEY, outside BUSY: it lies below the OUT cells. -/
theorem writeCell {s : State} (h : s.Inv) {a : Nat} (v : Word) (ha : a + 4 ≤ Config.outBase)
    (hcell : ∀ x, a ≤ x → x < a + 4 → inByte s.params x ∨ keyByte s.params x) : (s.writeCell a v).Inv := by
  have hout (i : Nat) : (s.writeCell a v).outCell i = s.outCell i := by
    rw [State.outCell, writeCell_mem, readCell_store_outside _ _ _ _ _ (by simp), State.outCell]
    exact .inr (ha.trans (Nat.le_add_right _ _))
  constructor
  case legal => exact h.legal
  case memWf => exact store_wf h.memWf (by simp)
  case memInCells =>
    intro p hp
    rcases mem_store hp with hp | ⟨hlo, hhi⟩
    · exact h.memInCells p hp
    · rcases hcell p.1 hlo (by simpa using hhi) with hin | hkey
      · exact .inl hin
      · exact .inr (.inl hkey)
  case busyClean => exact h.busyClean
  case outLenFits => exact h.outLenFits
  case outTail => simp only [hout]; exact h.outTail
  case outChars => simp only [hout]; exact h.outChars
  case errEmpty => exact h.errEmpty

theorem writeCell_in {s : State} (h : s.Inv) (v : Word) {i : Nat} (hi : i < s.params.inCap) :
    (s.writeCell (inAddr i) v).Inv := by
  have hend := inAddr_le_of_legal h.legal
  have hkey : Config.keyBase ≤ Config.outBase := by decide
  simp only [inAddr] at hend
  refine h.writeCell v (by simp only [inAddr]; omega) fun x hlo hhi => .inl ?_
  simp only [inByte, inAddr] at hlo hhi ⊢
  omega

theorem writeCell_key {s : State} (h : s.Inv) (v : Word) {i : Nat} (hi : i < s.params.keyCap) :
    (s.writeCell (keyAddr i) v).Inv := by
  have hend := keyAddr_le_of_legal h.legal
  simp only [keyAddr] at hend
  refine h.writeCell v (by simp only [keyAddr]; omega) fun x hlo hhi => .inr ?_
  simp only [keyByte, keyAddr] at hlo hhi ⊢
  omega

/-! ### Completions -/

/-- The two stores of a completion put entries into OUT cells alone. -/
theorem memInCells_completionMem {s : State} (h : s.Inv) {ws : List Word} (hw : ws.length ≤ s.params.outCap) :
    ∀ p ∈ completionMem s ws, inByte s.params p.1 ∨ keyByte s.params p.1 ∨ outByte s.params p.1 := by
  intro p hp
  rcases mem_store hp with hp | ⟨hlo, hhi⟩
  · rcases mem_store hp with hp | ⟨hlo, hhi⟩
    · exact h.memInCells p hp
    · refine .inr (.inr ⟨hlo, ?_⟩)
      simp only [outAddr]
      omega
  · exact absurd hlo (Nat.not_le.mpr hhi)

theorem completeOk {s : State} (h : s.Inv) {o : Text} (hlen : o.length ≤ s.params.outCap) (hvalid : o.Valid) :
    (s.completeOk o).Inv := by
  have hdone := completeOk_completed h.legal hlen
  constructor
  case legal => exact h.legal
  case memWf => exact completionMem_wf h.memWf (by rwa [length_cellsOfText])
  case memInCells => exact h.memInCells_completionMem (by rwa [length_cellsOfText])
  case busyClean => exact nofun
  case outLenFits => exact hdone.outLen.trans_le hlen
  case outTail =>
    intro _ i hlo hi
    rw [hdone.outLen] at hlo
    rw [hdone.out i hi, List.getD_eq_default _ _ hlo]
    rfl
  case outChars =>
    intro i hi
    rw [hdone.out i hi, toNat_ofNat_of_le_max (getD_le_of_valid hvalid i)]
    exact getD_le_of_valid hvalid i
  case errEmpty => exact fun hne => absurd rfl hne

theorem completeError {s : State} (h : s.Inv) (e : ErrorKind) : (s.completeError e).Inv := by
  have hdone := completeError_completed e h.legal
  constructor
  case legal => exact h.legal
  case memWf => exact completionMem_wf h.memWf (Nat.zero_le _)
  case memInCells => exact h.memInCells_completionMem (Nat.zero_le _)
  case busyClean => exact nofun
  case outLenFits => exact Nat.zero_le _
  case outTail => exact fun _ i _ hi => hdone.out i hi
  case outChars =>
    intro i hi
    rw [hdone.out i hi]
    exact Nat.zero_le _
  case errEmpty => exact fun _ => rfl

/-- A completion with an outcome that OUT can hold, after a draw or none. -/
theorem complete_drawn {s : State} (h : s.Inv) (b : Bytes) {r : Except ErrorKind Text} (hr : FitsOut s.params r) :
    (({ s with entropy := b } : State).complete r).Inv := by
  have hdrawn : ({ s with entropy := b } : State).Inv := h.of_eq rfl rfl rfl rfl rfl rfl
  cases r with
  | ok o =>
    obtain ⟨hlen, hvalid⟩ := hr o rfl
    exact hdrawn.completeOk hlen hvalid
  | error e => exact hdrawn.completeError e

theorem coreTurn {s t : State} (h : s.Inv) (ht : Machine.coreTurn s = .next t) : t.Inv := by
  cases hbusy : s.busy with
  | false =>
    cases (coreTurn_idle hbusy).symm.trans ht
    exact h
  | true =>
    rcases coreTurn_waits_or_fits hbusy with hwait | ⟨b, r, hr, hdone⟩
    · cases hwait.symm.trans ht
      exact h
    · cases hdone.symm.trans ht
      exact h.complete_drawn b hr

/-! ### Host writes -/

theorem writeCtrl {s : State} (h : s.Inv) (v : Word) : (s.writeCtrl v).Inv := by
  have hirqen : ({ s with irqen := v.getLsbD 2 } : State).Inv := h.of_eq rfl rfl rfl rfl rfl rfl
  rcases writeCtrl_cases s v with ⟨-, e⟩ | ⟨-, -, e⟩ | ⟨-, -, -, e⟩ | ⟨-, -, -, e⟩ <;> rw [e]
  · exact doReset h.legal
  · exact hirqen
  · exact hirqen.of_eq rfl rfl rfl rfl rfl rfl
  · exact hirqen.acceptStart

theorem writeTarget {s : State} (h : s.Inv) (v : Word) {off : Nat} (h4 : off % 4 = 0) :
    (s.writeTarget v (targetAt s.params off)).Inv := by
  by_cases hx : targetAt s.params off = .ctrl
  · rw [hx]
    exact h.writeCtrl v
  cases hbusy : s.busy with
  | true =>
    rcases writeTarget_of_busy hbusy v hx with e | e | e <;> rw [e]
    · exact h.of_eq rfl rfl rfl rfl rfl rfl
    · exact h.clearStatus v
    · exact h
  | false =>
    rcases writeTarget_of_idle hbusy v hx with ⟨-, e⟩ | ⟨-, e⟩ | ⟨-, e⟩ | ⟨i, hi, e⟩ | ⟨i, hi, e⟩ | e | e <;> rw [e]
    · exact h.of_eq rfl rfl rfl rfl rfl rfl
    · exact h.of_eq rfl rfl rfl rfl rfl rfl
    · exact h.of_eq rfl rfl rfl rfl rfl rfl
    · exact h.writeCell_in v (lt_inCap_of_targetAt h4 hi)
    · exact h.writeCell_key v (lt_keyCap_of_targetAt h4 hi)
    · exact h.clearStatus v
    · exact h

end State.Inv

/-- Settles O58: each kind of step keeps the invariant. -/
theorem stepKeepsTheInvariant : Obligations.StepKeepsTheInvariant := by
  intro s t h hstep
  cases stepTo_of_step hstep with
  | core _ hturn => exact h.taken.coreTurn hturn
  | answer r => exact h.taken.of_eq rfl rfl rfl rfl rfl rfl
  | write v _ haligned _ => exact (h.taken.writeTarget v haligned).of_eq rfl rfl rfl rfl rfl rfl
  | reset _ => exact .doReset h.legal
  | entropy b => exact h.taken.of_eq rfl rfl rfl rfl rfl rfl

/-- Settles O59: an idle core with no entries in its memory. -/
theorem resetMeetsTheInvariant : Obligations.ResetMeetsTheInvariant :=
  .doReset (s := State.reset) (by decide)

end Sys2Proof.Machine
end

section
/-! Command words that are no command, and the words of the fourteen (spec/30_encoding.md R90 to R95). -/

namespace Sys2Proof

theorem toNat_fieldsOf_rsv (w : Word) : (fieldsOf w).rsv.toNat = w.toNat / 32 := by
  have hw := w.isLt
  simp only [fieldsOf, BitVec.extractLsb'_toNat, Nat.shiftRight_eq_div_pow]
  omega

theorem toNat_fieldsOf_alg (w : Word) : (fieldsOf w).alg.toNat = w.toNat % 16 := by
  simp only [fieldsOf, BitVec.extractLsb'_toNat, Nat.shiftRight_zero]

theorem rsv_eq_zero_iff (w : Word) : (fieldsOf w).rsv = 0 ↔ w.toNat / 32 = 0 := by
  rw [← toNat_fieldsOf_rsv, ← BitVec.toNat_inj]
  rfl

/-- The ALG codes without an algorithm (R91). -/
theorem algOf_eq_none_iff : ∀ c : BitVec 4, algOf c = none ↔ c.toNat = 0 ∨ 8 ≤ c.toNat := by decide

/-- The first reason of the decoder (log 18). -/
theorem decode_eq_reservedBits_iff (w : Word) : decode w = .error .reservedBits ↔ (fieldsOf w).rsv ≠ 0 := by
  unfold decode
  dsimp only
  split
  next h => exact iff_of_true rfl h
  next h =>
    refine iff_of_false ?_ h
    split <;> nofun

/-- The second reason of the decoder (log 18). -/
theorem decode_eq_unassignedAlgorithm_iff (w : Word) :
    decode w = .error .unassignedAlgorithm ↔ (fieldsOf w).rsv = 0 ∧ algOf (fieldsOf w).alg = none := by
  unfold decode
  dsimp only
  split
  next h => exact iff_of_false nofun fun hw => h hw.1
  next h =>
    split
    next hnone => exact iff_of_true rfl ⟨not_not.mp h, hnone⟩
    next hsome => exact iff_of_false nofun fun hw => by cases hsome.symm.trans hw.2

/-- Settles O3: the fields as quotient and remainder of the word. -/
theorem invalidWordsAreRejectedByName : Obligations.InvalidWordsAreRejectedByName := by
  intro w
  rw [decode_eq_reservedBits_iff, decode_eq_unassignedAlgorithm_iff, ne_eq, rsv_eq_zero_iff, algOf_eq_none_iff,
    toNat_fieldsOf_alg]
  exact ⟨Iff.rfl, Iff.rfl⟩

/-- A word outside the table is refused, for one reason or the other (R94). -/
theorem decode_eq_error_of_invalid {w : Word} (h : w.toNat / 32 ≠ 0 ∨ w.toNat % 16 = 0 ∨ 8 ≤ w.toNat % 16) :
    ∃ e, decode w = .error e := by
  obtain ⟨hreserved, hunassigned⟩ := invalidWordsAreRejectedByName w
  by_cases hrsv : w.toNat / 32 = 0
  · exact ⟨_, hunassigned.mpr ⟨hrsv, h.resolve_left (not_not.mpr hrsv)⟩⟩
  · exact ⟨_, hreserved.mpr hrsv⟩

theorem decodeBytes_bytesOfWord_append (w : Word) (rest : Bytes) {i : Instr} (h : decode w = .ok i) :
    decodeBytes (bytesOfWord w ++ rest) = .ok (i, rest) := by
  have hbytes : decodeBytes (bytesOfWord w ++ rest) =
      match decode (wordOfBytes (byteLane w 0) (byteLane w 1) (byteLane w 2) (byteLane w 3)) with
      | .ok i => .ok (i, rest)
      | .error e => .error e := rfl
  rw [hbytes, Machine.wordOfBytes_lanes, h]

/-- Settles O1: the word of a command decodes to it (O2), and a word is its byte lanes. -/
theorem decodeUndoesEncode : Obligations.DecodeUndoesEncode := by
  intro i rest
  have hword : decode (encode i) = .ok i := decode_eq_ok_iff.mpr rfl
  refine ⟨?_, hword, decodeBytes_bytesOfWord_append _ rest hword⟩
  cases i <;> rfl

/-- Settles O4: by evaluation of the decoder on the nine words. -/
theorem sampleWordsDecode : Obligations.SampleWordsDecode := by
  unfold Obligations.SampleWordsDecode
  decide

end Sys2Proof
end

section
/-! Single steps (spec/43_dispatch.md R192, R193, R201, spec/60_exceptions.md R220): the command that a step runs, where a step
stops, what an error completion leaves, and that an outcome depends on the operands alone. -/

namespace Sys2Proof.Machine

/-- The core's turn runs the command that CMD holds. -/
theorem coreTurn_of_decode {s : State} {i : Instr} (hbusy : s.busy = true) (h : decode s.cmd = .ok i) :
    coreTurn s = exec i s := by
  simp only [coreTurn, if_pos hbusy, State.fetch, h]

/-- The core's turn on an invalid command word (R193, R211). -/
theorem coreTurn_of_decode_error {s : State} {e : DecodeError} (hbusy : s.busy = true) (h : decode s.cmd = .error e) :
    coreTurn s = .next (s.completeError .unsupportedAlgorithm) := by
  simp only [coreTurn, if_pos hbusy, State.fetch, h]

/-- Settles O5: the three kinds of event. -/
theorem stepRunsTheDecodedCommand : Obligations.StepRunsTheDecodedCommand := by
  intro s
  refine ⟨fun i hbusy hcore hdecode => ?_, fun hidle hcore => ?_, fun b es hp => ?_⟩
  · rw [step_of_core hcore]
    exact coreTurn_of_decode hbusy hdecode
  · rw [step_of_core hcore]
    exact coreTurn_idle hidle
  · rw [step_of_event hp nofun]
    rfl

/-- Settles O6: the decoder refuses the word, so the turn is the error completion. -/
theorem invalidWordIsUnsupportedAlgorithm : Obligations.InvalidWordIsUnsupportedAlgorithm := by
  intro s hp hbusy hcore hinvalid
  obtain ⟨e, he⟩ := decode_eq_error_of_invalid hinvalid
  refine ⟨s.taken.completeError .unsupportedAlgorithm, ?_, completeError_completed _ hp, rfl, rfl⟩
  rw [step_of_core hcore]
  exact coreTurn_of_decode_error (s := s.taken) hbusy he

/-- An access that does not reach the core is outside the aperture. -/
theorem outside_of_not_reaches {p : Params} {addr : Nat} (h : ¬ reaches p addr = true) :
    addr < p.base ∨ p.base + 0x40000 ≤ addr := by
  rw [reaches_iff, Config.apertureSize] at h
  omega

/-- Settles O7: the core's turn, a reset and a delivery have a next state; an access has one unless it is outside the
aperture. -/
theorem stepStopsOnlyOutsideTheAperture : Obligations.StepStopsOnlyOutsideTheAperture := by
  intro s
  by_cases hcore : s.pending.headD .core = .core
  · exact .inl (step_of_core hcore ▸ coreTurn_next _)
  cases hp : s.pending with
  | nil => exact absurd (by rw [hp]; rfl) hcore
  | cons e es =>
    rw [hp, List.headD_cons] at hcore
    have hstep := step_eq_of_head hp hcore
    cases e with
    | core => exact absurd rfl hcore
    | hardwareReset => exact .inl ⟨_, hstep⟩
    | entropy b => exact .inl ⟨_, hstep⟩
    | read addr size =>
      by_cases hreach : reaches s.params addr = true
      · exact .inl ⟨_, hstep.trans (if_pos hreach)⟩
      · exact .inr ⟨addr, size, es, hstep.trans (if_neg hreach), .inl rfl, outside_of_not_reaches hreach⟩
    | write addr size v =>
      by_cases hreach : reaches s.params addr = true
      · exact .inl ⟨_, hstep.trans (if_pos hreach)⟩
      · exact .inr ⟨addr, size, es, hstep.trans (if_neg hreach), .inr ⟨v, rfl⟩, outside_of_not_reaches hreach⟩

/-- Settles O54: a read answers, and changes nothing else. -/
theorem readsHaveNoSideEffect : Obligations.ReadsHaveNoSideEffect := by
  intro s t addr size es hp hstep
  rw [step_of_event hp nofun] at hstep
  simp only [State.applyEvent] at hstep
  split at hstep
  · obtain ⟨r, hr⟩ := hostRead_eq_answer { s with pending := es, response := .silent } addr size
    cases hr ▸ hstep
    rfl
  · cases hstep

/-! ### Completions -/

/-- A completion leaves the IN cells (R220). -/
theorem CompletionFrame.inCell {s t : State} (h : CompletionFrame s t) (hp : s.params.Legal) {i : Nat}
    (hi : i < s.params.inCap) : t.inCell i = s.inCell i := by
  have hend := inAddr_le_of_legal hp
  have hkey : Config.keyBase ≤ Config.outBase := by decide
  have hbyte (k : Nat) (hk : k < 4) : t.mem.readByte (inAddr i + k) = s.mem.readByte (inAddr i + k) := by
    refine h.memory _ ?_ ?_ <;> simp only [keyByte, outByte, inAddr] at hend ⊢ <;> omega
  rw [State.inCell, State.inCell, Memory.readCell, Memory.readCell, hbyte 1 (by decide), hbyte 2 (by decide),
    hbyte 3 (by decide), ← Nat.add_zero (inAddr i), hbyte 0 (by decide)]

/-- Settles O10: an errcode other than 0 is that of a completion with an error, whose frame is said once. -/
theorem errorCompletionWritesOnlyWhatItMust : Obligations.ErrorCompletionWritesOnlyWhatItMust := by
  refine ⟨⟨rfl, rfl, rfl, rfl, rfl, rfl, rfl⟩, fun s t hp hbusy hcore hstep hidle hcode => ?_⟩
  rw [step_of_core hcore] at hstep
  rcases coreTurn_waits_or_fits (s := s.taken) hbusy with hwait | ⟨b, r, hr, hdone⟩
  · cases hwait.symm.trans hstep
    cases hbusy.symm.trans hidle
  · cases hdone.symm.trans hstep
    rcases complete_drawn_cases b (s := s.taken) hp hr with ⟨o, rfl, -⟩ | ⟨e, rfl, herr⟩
    · exact absurd rfl hcode
    · exact ⟨herr.out, herr.outLen, ⟨e, herr.errcode⟩, herr.key, herr.keyLen, herr.done, herr.cmd, herr.inLen,
        fun i hi => herr.inCell hp hi, herr.irqen, herr.wlost⟩

/-! ### What an outcome depends on (R201) -/

section
variable {s s' : State} (hparams : s'.params = s.params) (hinLen : s'.inLen = s.inLen) (hkeyLen : s'.keyLen = s.keyLen)
  (hin : s'.inText = s.inText) (hkey : s'.keyText = s.keyText)

theorem inText_congr (hlen : s'.inLen = s.inLen) (hcells : ∀ j, j < s.inLen.toNat → s'.inCell j = s.inCell j) :
    s'.inText = s.inText := by
  rw [State.inText, State.inText, hlen]
  exact List.map_congr_left fun j hj => by rw [hcells j (List.mem_range.mp hj)]

theorem keyText_congr (hlen : s'.keyLen = s.keyLen) (hcells : ∀ j, j < s.keyLen.toNat → s'.keyCell j = s.keyCell j) :
    s'.keyText = s.keyText := by
  rw [State.keyText, State.keyText, hlen]
  exact List.map_congr_left fun j hj => by rw [hcells j (List.mem_range.mp hj)]

theorem limitOutput_congr (hparams : s'.params = s.params) (r : Except ErrorKind Text) :
    s'.limitOutput r = s.limitOutput r := by
  cases r with
  | error e => rfl
  | ok o => rw [State.limitOutput, State.limitOutput, hparams]

include hparams hinLen hkeyLen hin hkey

theorem operands_congr (keyRead : Bool) : s'.operands keyRead = s.operands keyRead := by
  rw [State.operands, State.operands, State.lengthsFit, State.lengthsFit, hparams, hinLen, hkeyLen, hin, hkey]

theorem outcome_congr (keyRead : Bool) (body : Text → Text → Except ErrorKind Text) :
    s'.outcome keyRead body = s.outcome keyRead body := by
  rw [State.outcome, State.outcome, operands_congr hparams hinLen hkeyLen hin hkey]
  simp only [limitOutput_congr hparams]

end

/-- A block encrypt command whose draw is ready does not wait: its outcome is that of `BLKENC` with the next bytes (R170,
R193, R194). -/
theorem runBlockEncrypt_of_ready {c : BlockCipher} {s : State} (h : c.blockLen ≤ s.entropy.length) :
    ∃ n, runBlockEncrypt c s = .next (({ s with entropy := s.entropy.drop n } : State).complete
      (s.outcome true (blockEncrypt c (s.entropy.take c.blockLen)))) := by
  rcases runBlockEncrypt_cases c s with ⟨e, hops, herr⟩ | ⟨hv, e, hkey, herr⟩ | ⟨_, _, hshort, _⟩ | ⟨hv, key, hkey, _, hdone⟩
  · refine ⟨0, ?_⟩
    rw [herr, State.outcome, hops]
    rfl
  · refine ⟨0, ?_⟩
    have hbody : blockEncrypt c (s.entropy.take c.blockLen) s.inText s.keyText = .error e := by rw [blockEncrypt, hkey]
    rw [herr, outcome_error_of_body hv hbody]
    rfl
  · omega
  · refine ⟨c.blockLen, ?_⟩
    have hbody : blockEncrypt c (s.entropy.take c.blockLen) s.inText s.keyText =
        blockEncryptText c key (s.entropy.take c.blockLen) s.inText := by rw [blockEncrypt, hkey]
    rw [hdone, State.outcome, operands_of_valid hv]
    simp only [hbody]

/-- A command completes with an outcome that its operands, its parameters and, if it draws, its draw determine. -/
theorem exec_outcome_of_ready (i : Instr) : ∃ body : Params → Bytes → Text → Text → Except ErrorKind Text,
    ∀ s : State, drawLength i ≤ s.entropy.length → ∃ b, exec i s = .next (({ s with entropy := b } : State).complete
      (s.outcome (readsKey i) (body s.params (s.entropy.take (drawLength i))))) := by
  by_cases hdraw : drawLength i = 0
  · obtain ⟨body, -, hexec⟩ := exec_of_drawLength_eq_zero hdraw
    exact ⟨fun p _ => body p, fun s _ => ⟨s.entropy, hexec s⟩⟩
  · obtain ⟨c, hlen, hexec⟩ := exec_of_drawLength_ne_zero hdraw
    have hreads : readsKey i = true := by
      cases i with
      | blkaEnc => rfl
      | blkbEnc => rfl
      | _ => exact absurd rfl hdraw
    refine ⟨fun p => blockEncrypt (c p), fun s hready => ?_⟩
    rw [← hlen s.params] at hready ⊢
    obtain ⟨n, hn⟩ := runBlockEncrypt_of_ready hready
    exact ⟨_, by rw [hexec, hreads, hn]⟩

/-! What a completion with an outcome shows does not depend on the state before it. -/

theorem CompletedOk.agree {s t s' t' : State} {o : Text} (h : CompletedOk s t o) (h' : CompletedOk s' t' o)
    (hparams : s'.params = s.params) :
    t'.errcode = t.errcode ∧ t'.outLen = t.outLen ∧ ∀ j, j < s.params.outCap → t'.outCell j = t.outCell j :=
  ⟨h'.errcode.trans h.errcode.symm, BitVec.eq_of_toNat_eq (h'.outLen.trans h.outLen.symm),
    fun j hj => (h'.out j (hparams ▸ hj)).trans (h.out j hj).symm⟩

theorem CompletedErr.agree {s t s' t' : State} {e : ErrorKind} (h : CompletedErr s t e) (h' : CompletedErr s' t' e)
    (hparams : s'.params = s.params) :
    t'.errcode = t.errcode ∧ t'.outLen = t.outLen ∧ ∀ j, j < s.params.outCap → t'.outCell j = t.outCell j :=
  ⟨h'.errcode.trans h.errcode.symm, h'.outLen.trans h.outLen.symm,
    fun j hj => (h'.out j (hparams ▸ hj)).trans (h.out j hj).symm⟩

theorem complete_agree {s s' : State} (b b' : Bytes) {r : Except ErrorKind Text} (hp : s.params.Legal)
    (hparams : s'.params = s.params) (hr : ∀ o, r = .ok o → o.length ≤ s.params.outCap) :
    (({ s' with entropy := b' } : State).complete r).errcode = (({ s with entropy := b } : State).complete r).errcode ∧
      (({ s' with entropy := b' } : State).complete r).outLen = (({ s with entropy := b } : State).complete r).outLen ∧
      ∀ j, j < s.params.outCap → (({ s' with entropy := b' } : State).complete r).outCell j =
        (({ s with entropy := b } : State).complete r).outCell j := by
  have hp' : s'.params.Legal := hparams ▸ hp
  cases r with
  | ok o =>
    exact (completeOk_completed (s := { s with entropy := b }) hp (hr o rfl)).agree
      (completeOk_completed (s := { s' with entropy := b' }) hp' (hparams ▸ hr o rfl)) hparams
  | error e =>
    exact (completeError_completed (s := { s with entropy := b }) e hp).agree
      (completeError_completed (s := { s' with entropy := b' }) e hp') hparams

/-- Settles O11: the outcome is a function of what the two states share, and it determines what a completion shows. -/
theorem outcomeDependsOnlyOnTheOperands : Obligations.OutcomeDependsOnlyOnTheOperands := by
  intro i s s' t t' hp hparams hinLen hkeyLen hin hkey hdraw hready ht ht'
  obtain ⟨body, hexec⟩ := exec_outcome_of_ready i
  have hready' : drawLength i ≤ s'.entropy.length := by
    have hlen := congrArg List.length hdraw
    simp only [List.length_take] at hlen
    omega
  obtain ⟨b, hb⟩ := hexec s hready
  obtain ⟨b', hb'⟩ := hexec s' hready'
  have hout : s'.outcome (readsKey i) (body s'.params (s'.entropy.take (drawLength i))) =
      s.outcome (readsKey i) (body s.params (s.entropy.take (drawLength i))) := by
    rw [hdraw, hparams, outcome_congr hparams hinLen hkeyLen (inText_congr hinLen hin) (keyText_congr hkeyLen hkey)]
  rw [hout] at hb'
  cases hb.symm.trans ht
  cases hb'.symm.trans ht'
  exact complete_agree b b' hp hparams fun o ho => ((outcome_ok_iff ..).mp ho).2.2

/-- Settles O60: by evaluation; the memory after reset has no entry. -/
theorem resetStateHasTheStatedValues : Obligations.ResetStateHasTheStatedValues :=
  ⟨rfl, rfl, rfl, rfl, rfl, rfl, rfl, rfl, rfl, fun _ => rfl, rfl, rfl, rfl, rfl, rfl, rfl, rfl⟩

end Sys2Proof.Machine
end

section
/-! Host accesses in the aperture (spec/20_memory.md R60 to R66, spec/10_state.md R22 to R40): what each offset names, and what
an accepted read returns and an accepted write leaves. -/

namespace Sys2Proof.Machine

/-! ### The map (R61 to R63) -/

theorem inAddr_aligned (i : Nat) : inAddr i % 4 = 0 := by
  simp only [inAddr, Config.inBase]
  omega

theorem keyAddr_aligned (i : Nat) : keyAddr i % 4 = 0 := by
  simp only [keyAddr, Config.keyBase]
  omega

theorem inAddr_lt {p : Params} (hp : p.Legal) {i : Nat} (hi : i < p.inCap) : inAddr i < Config.apertureSize := by
  have hend := inAddr_le_of_legal hp
  have hkey : Config.keyBase < Config.apertureSize := by decide
  simp only [inAddr] at hend ⊢
  omega

theorem keyAddr_lt {p : Params} (hp : p.Legal) {i : Nat} (hi : i < p.keyCap) : keyAddr i < Config.apertureSize := by
  have hend := keyAddr_le_of_legal hp
  have hout : Config.outBase < Config.apertureSize := by decide
  simp only [keyAddr] at hend ⊢
  omega

/-- The offsets that name no register and no cell below its capacity (R62, R63). -/
theorem targetAt_reserved {p : Params} (hp : p.Legal) {off : Nat} (h4 : off % 4 = 0)
    (h : (Config.offOutCap < off ∧ off < Config.inBase) ∨ (inAddr p.inCap ≤ off ∧ off < Config.keyBase) ∨
      (keyAddr p.keyCap ≤ off ∧ off < Config.outBase) ∨ outAddr p.outCap ≤ off) : targetAt p off = .reserved := by
  have hin := inAddr_le_of_legal hp
  have hkey := keyAddr_le_of_legal hp
  simp only [inAddr, keyAddr, outAddr, Config.inBase, Config.keyBase, Config.outBase, Config.offOutCap] at h hin hkey
  rcases targetAt_cases p h4 with ⟨hlt, e⟩ | ⟨i, hi, rfl, -⟩ | ⟨i, hi, rfl, -⟩ | ⟨i, hi, rfl, -⟩ | ⟨-, e⟩
  · rw [e]
    refine registerAt_reserved ?_
    simp only [Config.inBase, Config.offOutCap] at hlt ⊢
    omega
  · simp only [inAddr, Config.inBase] at h
    omega
  · simp only [keyAddr, Config.keyBase] at h
    omega
  · simp only [outAddr, Config.outBase] at h
    omega
  · exact e

/-- The OUT window names OUT cells or nothing. -/
theorem targetAt_outWindow {p : Params} (hp : p.Legal) {off : Nat} (h4 : off % 4 = 0) (h : Config.outBase ≤ off) :
    (∃ i, targetAt p off = .outCell i) ∨ targetAt p off = .reserved := by
  have hin := inAddr_le_of_legal hp
  have hkey := keyAddr_le_of_legal hp
  simp only [inAddr, keyAddr, Config.inBase, Config.keyBase, Config.outBase] at h hin hkey
  rcases targetAt_cases p h4 with ⟨hlt, -⟩ | ⟨i, hi, rfl, -⟩ | ⟨i, hi, rfl, -⟩ | ⟨i, -, -, e⟩ | ⟨-, e⟩
  · simp only [Config.inBase] at hlt
    omega
  · simp only [inAddr, Config.inBase] at h
    omega
  · simp only [keyAddr, Config.keyBase] at h
    omega
  · exact .inl ⟨i, e⟩
  · exact .inr e

/-! ### Steps of accepted accesses -/

section
variable {s : State} {off : Nat} {v : Word} {es : List Event} {x : Target}

/-- The step of an accepted write, by the target of its offset. -/
theorem step_write_target (hp : s.pending = .write (s.params.base + off) 4 v :: es) (ho : off < Config.apertureSize)
    (h4 : off % 4 = 0) (hx : targetAt s.params off = x) : step s =
      .next { ({ s with pending := es, response := .silent } : State).writeTarget v x with response := .ack } := by
  rw [step_of_write hp ho h4, hx]

/-- The step of an accepted write, from what the write does. -/
theorem step_write_eq {u : State} (hp : s.pending = .write (s.params.base + off) 4 v :: es)
    (ho : off < Config.apertureSize) (h4 : off % 4 = 0) (hx : targetAt s.params off = x)
    (hu : ({ s with pending := es, response := .silent } : State).writeTarget v x = u) :
    step s = .next { u with response := .ack } := by
  rw [step_write_target hp ho h4 hx, hu]

/-- The step of an accepted read, by the target of its offset. -/
theorem step_read_target (hp : s.pending = .read (s.params.base + off) 4 :: es) (ho : off < Config.apertureSize)
    (h4 : off % 4 = 0) (hx : targetAt s.params off = x) :
    step s = .next { s with pending := es, response := .data (s.readTarget x) } := by
  rw [step_of_read hp ho h4, hx]

end

/-! ### CTRL -/

/-- While BUSY every OUT cell reads 0 (R246). -/
theorem readTarget_outCell_of_busy {s : State} (h : s.busy = true) (i : Nat) : s.readTarget (.outCell i) = 0 := if_pos h

theorem writeCtrl_start_of_idle {s : State} {v : Word} (hidle : s.busy = false) (hstart : v.getLsbD 0 = true)
    (hsrst : v.getLsbD 1 = false) : s.writeCtrl v = ({ s with irqen := v.getLsbD 2 } : State).acceptStart := by
  simp only [State.writeCtrl, hsrst, hstart, hidle, Bool.false_eq_true, if_false, if_true]

theorem writeCtrl_plain {s : State} {v : Word} (hstart : v.getLsbD 0 = false) (hsrst : v.getLsbD 1 = false) :
    s.writeCtrl v = { s with irqen := v.getLsbD 2 } := by
  simp only [State.writeCtrl, hsrst, hstart, Bool.false_eq_true, if_false]

theorem writeCtrl_reset {s : State} {v : Word} (hsrst : v.getLsbD 1 = true) : s.writeCtrl v = s.doReset := if_pos hsrst

/-- Settles O43: the write reaches CTRL, which accepts the START of an idle core. -/
theorem acceptedStartEffect : Obligations.AcceptedStartEffect := by
  intro s v es hp hidle hstart hsrst
  exact ⟨_, step_write_eq (off := Config.offCtrl) hp (by decide) (by decide) (targetAt_offCtrl _)
    (writeCtrl_start_of_idle hidle hstart hsrst), rfl, fun i => readTarget_outCell_of_busy rfl i⟩

/-- Settles O45: a soft reset by the write of CTRL and the pulse of the input are the one reset. -/
theorem resetSetsEveryState : Obligations.ResetSetsEveryState := by
  intro s t es hcause hstep
  obtain ⟨u, r, hu, rfl⟩ : ∃ (u : State) (r : Response), u.params = s.params ∧ t = { u.doReset with response := r } := by
    rcases hcause with ⟨v, hsrst, hp⟩ | hp
    · cases (step_write_eq (off := Config.offCtrl) hp (by decide) (by decide) (targetAt_offCtrl _)
        (writeCtrl_reset hsrst)).symm.trans hstep
      exact ⟨{ s with pending := es, response := .silent }, .ack, rfl, rfl⟩
    · cases (step_eq_of_head hp nofun).symm.trans hstep
      exact ⟨s.taken, .silent, rfl, rfl⟩
  exact ⟨rfl, rfl, rfl, rfl, rfl, rfl, rfl, rfl, rfl, fun _ => rfl, rfl, hu⟩

/-! ### Other registers -/

/-- Settles O46: each offset names an operand, and the write of an operand while BUSY is dropped. -/
theorem writesWhileBusyAreDropped : Obligations.WritesWhileBusyAreDropped := by
  intro s off v es hlegal hbusy hp hoff
  have hdrop : ∀ f, ({ s with pending := es, response := .silent } : State).unlessBusy f = _ := unlessBusy_of_busy hbusy
  rcases hoff with rfl | rfl | rfl | ⟨i, hi, rfl⟩ | ⟨i, hi, rfl⟩
  · exact step_write_eq hp (by decide) (by decide) (x := .cmd) rfl ((writeTarget_cmd ..).trans (hdrop _))
  · exact step_write_eq hp (by decide) (by decide) (x := .inLen) rfl ((writeTarget_inLen ..).trans (hdrop _))
  · exact step_write_eq hp (by decide) (by decide) (x := .keyLen) rfl ((writeTarget_keyLen ..).trans (hdrop _))
  · exact step_write_eq (off := inAddr i) hp (inAddr_lt hlegal hi) (inAddr_aligned i) (targetAt_inCell hlegal hi)
      ((writeTarget_inCell ..).trans (hdrop _))
  · exact step_write_eq (off := keyAddr i) hp (keyAddr_lt hlegal hi) (keyAddr_aligned i) (targetAt_keyCell hlegal hi)
      ((writeTarget_keyCell ..).trans (hdrop _))

/-- Settles O47: the three registers store on an idle core, and CTRL without a request takes bit 2 alone. -/
theorem registerWritesStoreAllBits : Obligations.RegisterWritesStoreAllBits := by
  intro s v es
  refine ⟨fun hidle => ?_, fun hp hstart hsrst => ?_⟩
  · have hstore : ∀ f, ({ s with pending := es, response := .silent } : State).unlessBusy f = _ :=
      unlessBusy_of_idle hidle
    exact ⟨fun hp => step_write_eq hp (by decide) (by decide) (x := .cmd) rfl ((writeTarget_cmd ..).trans (hstore _)),
      fun hp => step_write_eq hp (by decide) (by decide) (x := .inLen) rfl ((writeTarget_inLen ..).trans (hstore _)),
      fun hp => step_write_eq hp (by decide) (by decide) (x := .keyLen) rfl ((writeTarget_keyLen ..).trans (hstore _))⟩
  · exact step_write_eq (off := Config.offCtrl) hp (by decide) (by decide) (targetAt_offCtrl _)
      (writeCtrl_plain hstart hsrst)

/-- Settles O50: STATUS is cleared bit by bit. -/
theorem statusBitsClearByWritingOne : Obligations.StatusBitsClearByWritingOne := by
  intro s v es hp
  refine ⟨_, step_write_target hp (by decide) (by decide) (x := .status) rfl, rfl, ?_, ?_⟩
  · rw [writeTarget_status, clearStatus_done, Bool.and_eq_true, Bool.not_eq_true']
  · rw [writeTarget_status, clearStatus_wlost, Bool.and_eq_true, Bool.not_eq_true']

/-! ### Cells -/

section
variable {s : State} {a : Nat} {v : Word}

theorem readByte_writeCell_outside {x : Nat} (hx : ¬ (a ≤ x ∧ x < a + 4)) :
    (s.writeCell a v).mem.readByte x = s.mem.readByte x := by
  rw [writeCell_mem, readByte_store _ _ _ _ _ (by simp), if_neg hx]

theorem readCell_writeCell : (s.writeCell a v).mem.readCell a = v :=
  readCell_store_inside s.mem a (a + 4) 0 [v] (by simp) (by simp)

end

/-- A write of a cell and the read of it after that, by its target. -/
theorem cell_write_then_read {s : State} {off : Nat} {v : Word} {es : List Event} {x : Target}
    (hp : s.pending = .write (s.params.base + off) 4 v :: .read (s.params.base + off) 4 :: es)
    (ho : off < Config.apertureSize) (h4 : off % 4 = 0) (hx : targetAt s.params off = x)
    (hwrite : ∀ u : State, u.busy = s.busy → u.writeTarget v x = u.writeCell off v)
    (hread : ∀ u : State, u.readTarget x = u.mem.readCell off) :
    ∃ t u, step s = .next t ∧
      t = { s with pending := .read (s.params.base + off) 4 :: es, response := .ack, mem := t.mem } ∧
      (∀ a, ¬ (off ≤ a ∧ a < off + 4) → t.mem.readByte a = s.mem.readByte a) ∧
      step t = .next u ∧ u = { t with pending := es, response := .data v } := by
  obtain ⟨t, ht⟩ : ∃ t : State, t = { ({ s with pending := .read (s.params.base + off) 4 :: es, response := .silent } :
    State).writeCell off v with response := .ack } := ⟨_, rfl⟩
  have hmem : t.mem = (s.writeCell off v).mem := by rw [ht]; rfl
  have hstep : step s = .next t := ht ▸ step_write_eq hp ho h4 hx (hwrite _ rfl)
  have hnext : step t = .next { t with pending := es, response := .data (t.readTarget x) } :=
    step_read_target (off := off) (by rw [ht]; rfl) ho h4 (by rw [ht]; exact hx)
  have hval : t.readTarget x = v := by rw [hread, hmem, readCell_writeCell]
  rw [hval] at hnext
  refine ⟨t, _, hstep, by rw [ht]; rfl, fun a ha => ?_, hnext, rfl⟩
  rw [hmem, readByte_writeCell_outside ha]

/-- Settles O48: both windows, by the store's own rules. -/
theorem cellWriteIsReadBack : Obligations.CellWriteIsReadBack := by
  intro s off v es hlegal hidle hoff hp
  rcases hoff with ⟨i, hi, rfl⟩ | ⟨i, hi, rfl⟩
  · exact cell_write_then_read (off := inAddr i) hp (inAddr_lt hlegal hi) (inAddr_aligned i) (targetAt_inCell hlegal hi)
      (fun u hu => (writeTarget_inCell ..).trans (unlessBusy_of_idle (hu.trans hidle) _)) fun _ => rfl
  · exact cell_write_then_read (off := keyAddr i) hp (keyAddr_lt hlegal hi) (keyAddr_aligned i)
      (targetAt_keyCell hlegal hi)
      (fun u hu => (writeTarget_keyCell ..).trans (unlessBusy_of_idle (hu.trans hidle) _)) fun _ => rfl

/-- A target that no write changes (R61 to R63). -/
def Target.readOnly : Target → Prop
  | .id | .errcode | .outLen | .inCap | .keyCap | .outCap | .outCell _ | .reserved => True
  | _ => False

theorem writeTarget_readOnly (s : State) (v : Word) {x : Target} (h : x.readOnly) : s.writeTarget v x = s := by
  cases x with
  | ctrl | cmd | status | inLen | keyLen | inCell | keyCell => exact h.elim
  | _ => rfl

/-- The offsets of O49 name nothing that a write changes. -/
theorem readOnly_targetAt {p : Params} (hp : p.Legal) {off : Nat} (h4 : off % 4 = 0)
    (h : off = 0x00 ∨ off = 0x10 ∨ (0x1C ≤ off ∧ off < 0x10000) ∨ (0x10000 + 4 * p.inCap ≤ off ∧ off < 0x20000) ∨
      (0x20000 + 4 * p.keyCap ≤ off ∧ off < 0x30000) ∨ 0x30000 ≤ off) : (targetAt p off).readOnly := by
  rcases h with rfl | rfl | ⟨hlo, hhi⟩ | h | h | h
  · trivial
  · trivial
  · by_cases hregister : off ≤ Config.offOutCap
    · have hoff : off = 0x1C ∨ off = 0x20 ∨ off = 0x24 ∨ off = 0x28 := by
        simp only [Config.offOutCap] at hregister
        omega
      rcases hoff with rfl | rfl | rfl | rfl <;> trivial
    · rw [targetAt_reserved hp h4 (.inl ⟨Nat.lt_of_not_le hregister, hhi⟩)]
      trivial
  · rw [targetAt_reserved hp h4 (.inr (.inl h))]
    trivial
  · rw [targetAt_reserved hp h4 (.inr (.inr (.inl h)))]
    trivial
  · rcases targetAt_outWindow hp h4 h with ⟨i, e⟩ | e <;> rw [e] <;> trivial

/-- Settles O49: those offsets name read-only registers, OUT cells or nothing. -/
theorem ignoredWritesChangeNothing : Obligations.IgnoredWritesChangeNothing := by
  intro s off v es hlegal h4 ho hp hoff
  exact step_write_eq hp ho h4 rfl (writeTarget_readOnly _ v (readOnly_targetAt hlegal h4 hoff))

/-! ### Reads -/

theorem ctrlWord_eq (s : State) : s.ctrlWord = BitVec.ofNat 32 (4 * s.irqen.toNat) := by
  rw [State.ctrlWord]
  cases s.irqen <;> rfl

/-- STATUS by its four bits (R32). -/
theorem statusWord_eq (s : State) : s.statusWord = BitVec.ofNat 32 (8 * s.wlost.toNat +
    4 * (if s.errcode = 0 then 0 else 1) + 2 * s.done.toNat + s.busy.toNat) := by
  have herr : (if s.errcode = 0 then 0 else 1) = s.err.toNat := by
    by_cases h : s.errcode = 0
    · rw [if_pos h, State.err, h]
      rfl
    · rw [if_neg h, State.err, bne_iff_ne.mpr h]
      rfl
  have table : ∀ w e d b : Bool, flagAt w 3 ||| flagAt e 2 ||| flagAt d 1 ||| flagAt b 0 =
      BitVec.ofNat 32 (8 * w.toNat + 4 * e.toNat + 2 * d.toNat + b.toNat) := by decide
  rw [herr, State.statusWord, table]

/-- Settles O51: each offset names its register. -/
theorem registerReadsReturnTheirFields : Obligations.RegisterReadsReturnTheirFields := by
  intro s off es hp x hoff
  rcases hoff with ⟨rfl, rfl⟩ | ⟨rfl, rfl⟩ | ⟨rfl, rfl⟩ | ⟨rfl, rfl⟩ | ⟨rfl, rfl⟩ | ⟨rfl, rfl⟩ | ⟨rfl, rfl⟩ | ⟨rfl, rfl⟩ |
    ⟨rfl, rfl⟩ | ⟨rfl, rfl⟩ | ⟨rfl, rfl⟩
  case inr.inl =>
    rw [← ctrlWord_eq]
    exact step_read_target hp (by decide) (by decide) (x := .ctrl) rfl
  case inr.inr.inr.inl =>
    rw [← statusWord_eq]
    exact step_read_target hp (by decide) (by decide) (x := .status) rfl
  all_goals exact step_read_target hp (by decide) (by decide) rfl

/-- Settles O52: reserved offsets, and the cells of the three windows. -/
theorem windowReadsFollowTheMap : Obligations.WindowReadsFollowTheMap := by
  intro s off es hlegal h4 ho hp
  refine ⟨fun hoff => ?_, fun hidle i hi hoff => ?_, fun i hi hoff => ?_, fun i hi hoff => ?_⟩
  · have hreserved (h : targetAt s.params off = .reserved) :
        step s = .next { s with pending := es, response := .data 0 } := step_read_target hp ho h4 h
    rcases hoff with h | h | h | h | ⟨h, hbusy⟩
    · exact hreserved (targetAt_reserved hlegal h4 (.inl ⟨Nat.lt_of_lt_of_le (by decide) h.1, h.2⟩))
    · exact hreserved (targetAt_reserved hlegal h4 (.inr (.inl h)))
    · exact hreserved (targetAt_reserved hlegal h4 (.inr (.inr (.inl h))))
    · exact hreserved (targetAt_reserved hlegal h4 (.inr (.inr (.inr h))))
    · rcases targetAt_outWindow hlegal h4 h with ⟨i, hi⟩ | hx
      · rw [step_read_target hp ho h4 hi, readTarget_outCell_of_busy hbusy]
      · exact hreserved hx
  · obtain rfl : off = outAddr i := hoff
    have hread : s.readTarget (.outCell i) = s.outCell i := if_neg (by simp [hidle])
    rw [step_read_target hp ho h4 (targetAt_outCell hi), hread]
  · obtain rfl : off = inAddr i := hoff
    exact step_read_target hp ho h4 (targetAt_inCell hlegal hi)
  · obtain rfl : off = keyAddr i := hoff
    exact step_read_target hp ho h4 (targetAt_keyCell hlegal hi)

end Sys2Proof.Machine
end

section
/-! The rail fence read back (spec/41_classical.md R151): the bucket position that RAIL.DEC takes for a place of the text is
where the writing put that place. -/

namespace Sys2Proof.Machine

/-- Where R151 looks for position `i`: past the rows before its own and past the earlier positions of its row. -/
def railIndex (r n i : Nat) : Nat := railStart r n (railRow i r) + railUsed r i

theorem railRead_eq (r : Nat) (t : Text) :
    railRead r t = (List.range t.length).map fun i => t.getD (railIndex r t.length i) 0 := rfl

@[simp] theorem length_railRead (r : Nat) (t : Text) : (railRead r t).length = t.length := by simp [railRead]

/-- Place `j` of part `row` of a list made of parts. -/
theorem getElem?_flatMap_range {α : Type} (part : Nat → List α) {r row j : Nat} (hrow : row < r)
    (hj : j < (part row).length) :
    ((List.range r).flatMap part)[((List.range row).map fun ρ => (part ρ).length).sum + j]? = (part row)[j]? := by
  obtain ⟨d, rfl⟩ := Nat.exists_eq_add_of_lt hrow
  have hsplit : List.range (row + d + 1) = List.range row ++ row :: (List.range d).map fun x => row + (x + 1) := by
    rw [Nat.add_assoc, List.range_add, List.range_succ_eq_map]
    simp [Function.comp_def]
  rw [hsplit, List.flatMap_append, ← List.length_flatMap, List.getElem?_append_right (Nat.le_add_right _ _),
    Nat.add_sub_cancel_left, List.flatMap_cons, List.getElem?_append_left hj]

/-- A position is in its row's list, after the earlier positions of the row. -/
theorem getElem?_railPositions {r n i : Nat} (hi : i < n) : (railPositions r n (railRow i r))[railUsed r i]? = some i := by
  obtain ⟨d, rfl⟩ := Nat.exists_eq_add_of_lt hi
  have hsplit : List.range (i + d + 1) = List.range i ++ i :: (List.range d).map fun x => i + (x + 1) := by
    rw [Nat.add_assoc, List.range_add, List.range_succ_eq_map]
    simp [Function.comp_def]
  rw [railPositions, hsplit, List.filter_append, List.filter_cons_of_pos (by simp), railUsed, railPositions,
    List.getElem?_append_right le_rfl, Nat.sub_self, List.getElem?_cons_zero]

section
variable {r n i : Nat} (hr : 1 ≤ r)
include hr

/-- The writing puts position `i` where the reading looks for it. -/
theorem getElem?_railOrder (hi : i < n) : (railOrder r n)[railIndex r n i]? = some i := by
  have hpos := getElem?_railPositions (r := r) hi
  rw [railOrder_eq_flatMap hr, railIndex, railStart, getElem?_flatMap_range _ (railRow_lt hr i), hpos]
  exact (List.getElem?_eq_some_iff.mp hpos).1

theorem length_railOrder : (railOrder r n).length = n := by
  rw [(railOrder_perm_range hr n).length_eq, List.length_range]

/-- The reading looks for position `railOrder[k]` at `k`. -/
theorem railIndex_railOrder {k : Nat} (hk : k < (railOrder r n).length) : railIndex r n (railOrder r n)[k] = k := by
  have hlt : (railOrder r n)[k] < n :=
    List.mem_range.mp ((railOrder_perm_range hr n).mem_iff.mp (List.getElem_mem hk))
  have hnodup : (railOrder r n).Nodup := (railOrder_perm_range hr n).nodup_iff.mpr List.nodup_range
  obtain ⟨hindex, heq⟩ := List.getElem?_eq_some_iff.mp (getElem?_railOrder hr hlt)
  exact (hnodup.getElem_inj_iff).mp heq

theorem getD_railWrite_railIndex {t : Text} (hi : i < t.length) :
    (railWrite r t).getD (railIndex r t.length i) 0 = t.getD i 0 := by
  rw [railWrite, List.getD_eq_getElem?_getD, List.getElem?_map, getElem?_railOrder hr hi]
  rfl

/-- Reading undoes writing (R152). -/
theorem railRead_railWrite (t : Text) : railRead r (railWrite r t) = t := by
  refine List.ext_getElem (by simp [length_railWrite hr]) fun i hi hi' => ?_
  simp only [railRead_eq, List.getElem_map, List.getElem_range, length_railWrite hr, getD_railWrite_railIndex hr hi',
    List.getD_eq_getElem _ _ hi']

/-- Writing undoes reading. -/
theorem railWrite_railRead (t : Text) : railWrite r (railRead r t) = t := by
  refine List.ext_getElem (by simp [length_railWrite hr]) fun k hk hk' => ?_
  have hk : k < (railOrder r t.length).length := by rwa [length_railOrder hr]
  have hlt : (railOrder r t.length)[k] < t.length :=
    List.mem_range.mp ((railOrder_perm_range hr _).mem_iff.mp (List.getElem_mem hk))
  simp [railWrite, railRead_eq, hlt, railIndex_railOrder hr, hk']

end

theorem railDecrypt_eq_ok {k : Text} {r : Nat} (t : Text) (hr : 1 ≤ r) (h : ReadsAsInteger k r) :
    railDecrypt t k = .ok (railRead r t) := by
  simp only [railDecrypt, railCount_eq_ok hr h]

theorem railDecrypt_eq_error {k : Text} (t : Text) (h : ¬ ∃ r : Nat, 1 ≤ r ∧ ReadsAsInteger k r) :
    railDecrypt t k = .error .invalidKey := by
  simp only [railDecrypt, railCount_eq_error h]

/-- Settles O20: the zig-zag (O19) of what is read is the input, because each place is read where it was written. -/
theorem railDecryptUndoesTheZigzag : Obligations.RailDecryptUndoesTheZigzag := by
  intro s hp hv
  refine ⟨fun r hr hkey hfit => ⟨railRead r s.inText, ?_, length_railRead r _, ?_⟩,
    fun hkey => failsWith_of_body_eq_error rfl hp hv (railDecrypt_eq_error _ hkey)⟩
  · exact runsTo_of_body_eq_ok rfl hp hv (railDecrypt_eq_ok _ hr hkey) (by simpa using hfit)
  · rw [← railWrite_eq_zigzagWrite hr, railWrite_railRead hr]

end Sys2Proof.Machine
end

section
/-! The round trip of the classical commands (spec/41_classical.md R152): the bodies invert each other on every text and key,
and the machine hands the output on unchanged. -/

namespace Sys2Proof.Machine

/-! ### One character -/

theorem shiftChar_eq (c n : Nat) : shiftChar c n =
    if 0x61 ≤ c ∧ c ≤ 0x7A then 0x61 + (c - 0x61 + n) % 26 else if 0x41 ≤ c ∧ c ≤ 0x5A then 0x41 + (c - 0x41 + n) % 26
    else c := by
  simp only [shiftChar, isLower_iff, isUpper_iff, Config.alphabetSize]

/-- A shift is undone by any shift that makes it a multiple of the alphabet. -/
theorem shiftChar_shiftChar {m n : Nat} (h : (n + m) % 26 = 0) (c : Nat) : shiftChar (shiftChar c n) m = c := by
  rw [shiftChar_eq c n]
  show (_ : Nat) = _
  split_ifs <;> rw [shiftChar_eq] <;> show (_ : Nat) = _ <;> split_ifs <;> omega

theorem shiftOf_add_shiftOf_neg (off : Int) : (shiftOf off + shiftOf (-off)) % 26 = 0 := by
  simp only [shiftOf, Config.alphabetSize]
  omega

theorem atbashChar_eq_nat (c : Nat) : atbashChar c =
    if 0x41 ≤ c ∧ c ≤ 0x5A then 155 - c else if 0x61 ≤ c ∧ c ≤ 0x7A then 219 - c else c := atbashChar_eq c

theorem atbashChar_atbashChar (c : Nat) : atbashChar (atbashChar c) = c := by
  rw [atbashChar_eq_nat c]
  show (_ : Nat) = _
  split_ifs <;> rw [atbashChar_eq_nat] <;> show (_ : Nat) = _ <;> split_ifs <;> omega

/-! ### Bodies that invert each other -/

/-- `dec` answers the text that `enc` was given, from its answer and the same key; the texts have one length. -/
def Recovers (enc dec : Text → Text → Except ErrorKind Text) : Prop :=
  ∀ t k o : Text, t.Valid → enc t k = .ok o → dec o k = .ok t ∧ o.length = t.length

/-- Two bodies that read the same key and change the text there and back. -/
theorem recovers_of_key {α : Type} {enc dec : Text → Text → Except ErrorKind Text} {key : Text → Except ErrorKind α}
    {f g : α → Text → Text} (henc : ∀ t k, enc t k = (key k).map fun x => f x t)
    (hdec : ∀ t k, dec t k = (key k).map fun x => g x t)
    (h : ∀ x k, key k = .ok x → ∀ t, g x (f x t) = t ∧ (f x t).length = t.length) : Recovers enc dec := by
  intro t k o _ ho
  rw [henc] at ho
  rw [hdec]
  cases hkey : key k with
  | error e =>
    rw [hkey] at ho
    cases ho
  | ok x =>
    rw [hkey] at ho
    cases ho
    obtain ⟨hback, hlen⟩ := h x k hkey t
    exact ⟨congrArg Except.ok hback, hlen⟩

theorem map_map_eq_self {f g : CodePoint → CodePoint} (h : ∀ c, g (f c) = c) (t : Text) : (t.map f).map g = t := by
  rw [List.map_map]
  exact List.map_id'' h t

theorem recovers_shift : Recovers shiftEncrypt shiftDecrypt :=
  recovers_of_key shiftEncrypt_eq_map shiftDecrypt_eq_map fun off _ _ t =>
    ⟨map_map_eq_self (shiftChar_shiftChar (shiftOf_add_shiftOf_neg off)) t, List.length_map _⟩

theorem one_le_of_railCount {k : Text} {r : Nat} (h : railCount k = .ok r) : 1 ≤ r := by
  unfold railCount at h
  split at h
  · cases h
  · split at h
    · cases h
    · cases h
      omega

theorem recovers_rail : Recovers railEncrypt railDecrypt :=
  recovers_of_key railEncrypt_eq_map railDecrypt_eq_map fun _ _ hkey t =>
    ⟨railRead_railWrite (one_le_of_railCount hkey) t, length_railWrite (one_le_of_railCount hkey) t⟩

/-- The shifts of a key are those of its letters. -/
theorem lt_of_mem_vigenereKey {k : Text} {ks : List Nat} (h : vigenereKey k = .ok ks) : ∀ n ∈ ks, n < 26 := by
  unfold vigenereKey at h
  split at h
  · cases h
  · split at h
    next hletters =>
      cases h
      exact List.forall_mem_map.mpr fun c hc => keyShift_lt (isLetter_iff.mp (List.all_eq_true.mp hletters c hc))
    next => cases h

/-- The shift that R144 subtracts. -/
def complementShift (n : Nat) : Nat := (Config.alphabetSize - n) % Config.alphabetSize

theorem add_complementShift {n : Nat} (h : n < 26) : (n + complementShift n) % 26 = 0 := by
  simp only [complementShift, Config.alphabetSize]
  omega

theorem length_shiftAlong (ks : List Nat) (i : Nat) (t : Text) : (shiftAlong ks i t).length = t.length := by
  rw [shiftAlong_eq_mapIdx, List.length_mapIdx]

theorem getD_lt_of_forall {ks : List Nat} (h : ∀ n ∈ ks, n < 26) (j : Nat) : ks.getD j 0 < 26 := by
  rcases Nat.lt_or_ge j ks.length with hj | hj
  · rw [List.getD_eq_getElem _ _ hj]
    exact h _ (List.getElem_mem hj)
  · rw [List.getD_eq_default _ _ hj]
    decide

theorem shiftAlong_complement {ks : List Nat} (h : ∀ n ∈ ks, n < 26) (i : Nat) (t : Text) :
    shiftAlong (ks.map complementShift) i (shiftAlong ks i t) = t := by
  induction t generalizing i with
  | nil => rfl
  | cons c t ih =>
    have hmap : (ks.map complementShift).getD (i % ks.length) 0 = complementShift (ks.getD (i % ks.length) 0) :=
      List.getD_map ks 0 complementShift
    rw [shiftAlong, shiftAlong, ih, List.length_map, hmap, shiftChar_shiftChar (add_complementShift (getD_lt_of_forall h _))]

theorem recovers_vigenere : Recovers vigenereEncrypt vigenereDecrypt :=
  recovers_of_key vigenereEncrypt_eq_map vigenereDecrypt_eq_map fun _ _ hkey t =>
    ⟨shiftAlong_complement (lt_of_mem_vigenereKey hkey) 0 t, length_shiftAlong _ 0 t⟩

theorem recovers_atbash : Recovers atbash atbash := by
  rintro t k _ _ ⟨⟩
  exact ⟨congrArg Except.ok (map_map_eq_self atbashChar_atbashChar t), List.length_map _⟩

theorem recovers_oneTimePad : Recovers oneTimePad oneTimePad := by
  intro t k o ht ho
  rw [oneTimePad_eq] at ho
  split_ifs at ho with hempty hshort hchars
  cases ho
  have hback : (t.mapIdx fun j c => c ^^^ k.getD j 0).mapIdx (fun j c => c ^^^ k.getD j 0) = t := by
    refine List.ext_getElem (by simp) fun j hj hj' => ?_
    simp only [List.getElem_mapIdx, Nat.xor_assoc, Nat.xor_self, Nat.xor_zero]
  have hcell (j : Nat) (hj : j < t.length) : (t.mapIdx fun j c => c ^^^ k.getD j 0).getD j 0 ^^^ k.getD j 0 = t.getD j 0 := by
    simp [hj]
  refine ⟨?_, List.length_mapIdx⟩
  rw [oneTimePad_eq, if_neg hempty, List.length_mapIdx, if_neg hshort, hback, if_pos]
  intro j hj
  rw [hcell j hj]
  exact getD_le_of_valid ht j

/-! ### The machine -/

theorem length_keyText (s : State) : s.keyText.length = s.keyLen.toNat := by simp [State.keyText]

/-- The output text that a successful completion leaves (R36, R197). -/
theorem outText_of_completedOk {s t : State} {o : Text} (h : CompletedOk s t o) (hlen : o.length ≤ s.params.outCap)
    (hvalid : o.Valid) : t.outText = o := by
  refine List.ext_getElem (by simp [State.outText, h.outLen]) fun i hi hi' => ?_
  have hcell : (t.outCell i).toNat = o.getD i 0 := by
    rw [h.out i (hi'.trans_le hlen), toNat_ofNat_of_le_max (getD_le_of_valid hvalid i)]
  simp only [State.outText, List.getElem_map, List.getElem_range, hcell, List.getD_eq_getElem _ _ hi']

theorem code_ne_zero (e : ErrorKind) : e.code ≠ 0 := by cases e <;> decide

/-- A command that completes with ERRCODE 0 has completed with the text of its body. -/
theorem ok_of_runBody_errcode {s t : State} {keyRead : Bool} {body : Text → Text → Except ErrorKind Text}
    (h : s.runBody keyRead body = .next t) (hcode : t.errcode = 0) :
    ∃ o, OperandsValid s keyRead ∧ body s.inText s.keyText = .ok o ∧ o.length ≤ s.params.outCap ∧
      t = s.completeOk o := by
  cases h
  cases hr : s.outcome keyRead body with
  | ok o =>
    obtain ⟨hv, hbody, hlen⟩ := (outcome_ok_iff ..).mp hr
    exact ⟨o, hv, hbody, hlen, rfl⟩
  | error e =>
    rw [hr] at hcode
    exact absurd hcode (code_ne_zero e)

/-- Two commands whose bodies invert each other, one after the other. -/
theorem roundTrip_of_recovers {i j : Instr} {s s₁ s₂ : State} {keyRead : Bool}
    {enc dec : Text → Text → Except ErrorKind Text} (henc : exec i s = s.runBody keyRead enc)
    (hdec : exec j s₂ = s₂.runBody keyRead dec) (hrec : Recovers enc dec) (hkeeps : KeepsCharacters enc)
    (hp : s.params.Legal) (h : exec i s = .next s₁) (hcode : s₁.errcode = 0) (hparams : s₂.params = s.params)
    (hin : s₂.inText = s₁.outText) (hkey : s₂.keyText = s.keyText) (hfits : s₂.inLen.toNat ≤ s.params.inCap) :
    ∃ s₃, exec j s₂ = .next s₃ ∧ s₃.errcode = 0 ∧ s₃.outText = s.inText := by
  obtain ⟨o, hv, hbody, hlen, rfl⟩ := ok_of_runBody_errcode (henc.symm.trans h) hcode
  have hvalid : o.Valid := hkeeps _ _ o hv.inChars hbody
  rw [outText_of_completedOk (completeOk_completed hp hlen) hlen hvalid] at hin
  obtain ⟨hback, hsame⟩ := hrec _ _ o hv.inChars hbody
  have hv₂ : OperandsValid s₂ keyRead := by
    constructor
    case inFits => rwa [hparams]
    case keyFits => rw [← length_keyText, hkey, length_keyText, hparams]; exact hv.keyFits
    case inChars => rwa [hin]
    case keyChars => rw [hkey]; exact hv.keyChars
  have hp₂ : s₂.params.Legal := hparams ▸ hp
  have hfit : s.inText.length ≤ s₂.params.outCap := by rwa [hparams, ← hsame]
  have hback₂ : dec s₂.inText s₂.keyText = .ok s.inText := by rwa [hin, hkey]
  obtain ⟨s₃, hnext, hok, -⟩ := runsTo_of_body_eq_ok hdec hp₂ hv₂ hback₂ hfit
  exact ⟨s₃, hnext, hok.errcode, outText_of_completedOk hok hfit hv.inChars⟩

/-- Settles O21: pair by pair, the bodies invert each other. -/
theorem classicalRoundTrip : Obligations.ClassicalRoundTrip := by
  intro a s s₁ s₂ ha hp h hcode hparams hin hkey hfits
  simp only [List.mem_cons, List.not_mem_nil, or_false] at ha
  rcases ha with rfl | rfl | rfl | rfl | rfl
  · exact roundTrip_of_recovers rfl rfl recovers_shift keepsCharacters_shiftEncrypt hp h hcode hparams hin hkey hfits
  · exact roundTrip_of_recovers rfl rfl recovers_vigenere keepsCharacters_vigenereEncrypt hp h hcode hparams hin hkey hfits
  · exact roundTrip_of_recovers rfl rfl recovers_oneTimePad keepsCharacters_oneTimePad hp h hcode hparams hin hkey hfits
  · exact roundTrip_of_recovers rfl rfl recovers_atbash keepsCharacters_atbash hp h hcode hparams hin hkey hfits
  · exact roundTrip_of_recovers rfl rfl recovers_rail keepsCharacters_railEncrypt hp h hcode hparams hin hkey hfits

end Sys2Proof.Machine
end

section
/-! The block commands (spec/42_block.md R170 to R177): the laws that both ciphers meet, the key, the ciphertext and its
decryption, for the two ciphers at once. -/

namespace Sys2Proof.Machine

/-! ### The laws of a cipher (R118 to R123) -/

/-- What the shared bodies rest on: block lengths that a pad byte can hold, a digest long enough for the key, and block
functions that invert each other and keep the block length. -/
structure BlockCipher.Lawful (c : BlockCipher) : Prop where
  blockPos : 1 ≤ c.blockLen
  blockByte : c.blockLen ≤ 255
  key : ∀ b, ((c.digest b).take c.keyLen).length = c.keyLen
  inverse : ∀ k x : Bytes, k.length = c.keyLen → x.length = c.blockLen →
    c.decrypt k (c.encrypt k x) = x ∧ (c.encrypt k x).length = c.blockLen
  decrypted : ∀ k x : Bytes, k.length = c.keyLen → x.length = c.blockLen → (c.decrypt k x).length = c.blockLen

theorem length_sha256 (m : Bytes) : (sha256 m).length = 32 := by simp [sha256, wordBytesBE]

/-- Every digest has the bytes of the longest key (R119). -/
theorem le_length_digest (p : Primitives) (b : Bytes) : 24 ≤ (digest p b).length := by
  cases p with
  | reference => rw [digest, length_sha256]; decide
  | platform n => simp [digest]

theorem length_take_digest (p : Primitives) (b : Bytes) {n : Nat} (hn : n ≤ 24) : ((digest p b).take n).length = n := by
  rw [List.length_take]
  exact Nat.min_eq_left (hn.trans (le_length_digest p b))

theorem lawful_blockCipherA (p : Params) : (blockCipherA p).Lawful where
  blockPos := (by decide : 1 ≤ Config.blockLenA)
  blockByte := (by decide : Config.blockLenA ≤ 255)
  key := fun b => length_take_digest _ b (by decide : Config.keyLenA ≤ 24)
  inverse := fun _ _ => decryptA_encryptA p.primitives
  decrypted := fun _ _ hk hx => (encryptA_decryptA p.primitives hk hx).2

theorem lawful_blockCipherB (p : Params) : (blockCipherB p).Lawful where
  blockPos := (by decide : 1 ≤ Config.blockLenB)
  blockByte := (by decide : Config.blockLenB ≤ 255)
  key := fun b => length_take_digest _ b (by decide : Config.keyLenB ≤ 24)
  inverse := fun k _ _ => decryptB_encryptB p.primitives k
  decrypted := fun k _ _ hx => (encryptB_decryptB p.primitives k hx).2

/-! ### The key (R118, R124, R170) -/

/-- The stretched key of a key text without surrogates. -/
def stretched (c : BlockCipher) (k : Text) : Bytes := (c.digest (utf8Of k)).take c.keyLen

section
variable {c : BlockCipher} {k : Text}

theorem deriveKey_of_surrogate (h : ∃ x ∈ k, isSurrogate x = true) : deriveKey c k = .error .encodingError := by
  rw [deriveKey, stretchKey, utf8Encode_eq_error h]

/-- Without surrogates the check alone decides. -/
theorem deriveKey_eq (h : NoSurrogates k) : deriveKey c k = (c.checkKey (stretched c k)).map fun _ => stretched c k := by
  rw [deriveKey, stretchKey, utf8Encode_eq_ok h]
  simp only [stretched]
  cases c.checkKey ((c.digest (utf8Of k)).take c.keyLen) <;> rfl

theorem deriveKey_eq_ok (h : NoSurrogates k) (hcheck : c.checkKey (stretched c k) = .ok ()) :
    deriveKey c k = .ok (stretched c k) := by
  rw [deriveKey_eq h, hcheck]
  rfl

/-- A derived key is the stretched key. -/
theorem eq_stretched_of_deriveKey {key : Bytes} (h : deriveKey c k = .ok key) : key = stretched c k := by
  by_cases hsur : NoSurrogates k
  · rw [deriveKey_eq hsur] at h
    cases hcheck : c.checkKey (stretched c k) with
    | error e =>
      rw [hcheck] at h
      cases h
    | ok u =>
      rw [hcheck] at h
      cases h
      rfl
  · cases (deriveKey_of_surrogate (not_noSurrogates_iff.mp hsur)).symm.trans h

theorem blockEncryptKey_of_ne_nil (h : k ≠ []) : blockEncryptKey c k = deriveKey c k := if_neg (by simpa using h)

theorem blockEncryptKey_nil : blockEncryptKey c [] = .error .invalidKey := rfl

end

/-- CheckKeyB accepts (R124). -/
theorem checkKeyB_eq_ok {p : Params} {key : Bytes} (h : p.rejectDegenerate = true → ¬ DegenerateBytes key) :
    checkKeyB p key = .ok () := by
  refine if_neg ?_
  rw [Bool.and_eq_true, degenerateKey_iff]
  exact fun hreject => h hreject.1 hreject.2

/-- CheckKeyB refuses (R124). -/
theorem checkKeyB_eq_error {p : Params} {key : Bytes} (hreject : p.rejectDegenerate = true) (h : DegenerateBytes key) :
    checkKeyB p key = .error .invalidKey := by
  refine if_pos ?_
  rw [Bool.and_eq_true, degenerateKey_iff]
  exact ⟨hreject, h⟩

/-- A key that BLKA accepts. -/
theorem deriveKey_blockCipherA {s : State} {i : Instr} (h : KeyAccepted i s) :
    deriveKey (blockCipherA s.params) s.keyText = .ok (stretched (blockCipherA s.params) s.keyText) :=
  deriveKey_eq_ok h.1 rfl

/-- A key that BLKB accepts. -/
theorem deriveKey_blockCipherB {s : State} {i : Instr} (hi : i.alg = .blockB) (h : KeyAccepted i s) :
    deriveKey (blockCipherB s.params) s.keyText = .ok (stretched (blockCipherB s.params) s.keyText) :=
  deriveKey_eq_ok h.1 (checkKeyB_eq_ok (h.2 hi))

/-! ### The ciphertext (R170, R175) -/

/-- The text that a block encrypt command answers for a plaintext without surrogates. -/
def ciphertext (c : BlockCipher) (key iv : Bytes) (t : Text) : Text :=
  base64Encode (iv ++ cbcEncrypt (c.encrypt key) c.blockLen iv (pad (utf8Of t) c.blockLen))

theorem blockEncryptText_eq_ok (c : BlockCipher) (key iv : Bytes) {t : Text} (h : NoSurrogates t) :
    blockEncryptText c key iv t = .ok (ciphertext c key iv t) := by
  rw [blockEncryptText, utf8Encode_eq_ok h]
  rfl

theorem blockEncryptText_eq_error (c : BlockCipher) (key iv : Bytes) {t : Text} (h : ∃ x ∈ t, isSurrogate x = true) :
    blockEncryptText c key iv t = .error .encodingError := by
  rw [blockEncryptText, utf8Encode_eq_error h]

theorem length_utf8Of (t : Text) : (utf8Of t).length = utf8Length t := List.length_flatMap

section
variable {c : BlockCipher} (hc : c.Lawful) {key iv : Bytes} (hkey : key.length = c.keyLen) (hiv : iv.length = c.blockLen)
  (t : Text)
include hc hkey hiv

theorem length_cbcEncrypt_pad : (cbcEncrypt (c.encrypt key) c.blockLen iv (pad (utf8Of t) c.blockLen)).length =
    c.blockLen * (utf8Length t / c.blockLen + 1) := by
  rw [length_cbcEncrypt hiv (length_pad_mod _ hc.blockPos) fun x hx => (hc.inverse key x hkey hx).2,
    length_pad _ hc.blockPos, length_utf8Of]

/-- The length of R175. -/
theorem length_ciphertext : (ciphertext c key iv t).length = encryptedLength c.blockLen (utf8Length t) := by
  rw [ciphertext, length_base64Encode, List.length_append, length_cbcEncrypt_pad hc hkey hiv, hiv, encryptedLength]
  congr 3
  ring

end

/-! ### Decryption (R170) -/

section
variable {c : BlockCipher} {d : Bytes} {k : Text}

theorem blockDecrypt_eq (hk : k ≠ []) {t : Text} (hd : base64Decode t = .ok d) :
    blockDecrypt c t k = blockDecryptBytes c d k := by
  rw [blockDecrypt, if_neg (by simpa using hk), hd]

theorem blockDecrypt_eq_error (hk : k ≠ []) {t : Text} {e : ErrorKind} (hd : base64Decode t = .error e) :
    blockDecrypt c t k = .error e := by
  rw [blockDecrypt, if_neg (by simpa using hk), hd]

/-- The MalformedCiphertext checks on the decoded bytes (R214). -/
theorem blockDecryptBytes_malformed (h : d.length < c.blockLen ∨ (d.length - c.blockLen) % c.blockLen ≠ 0) :
    blockDecryptBytes c d k = .error .malformedCiphertext := by
  rw [blockDecryptBytes]
  split
  · rfl
  next hshort => rw [if_pos (h.resolve_left hshort)]

variable (hlen : c.blockLen ≤ d.length) (hmod : (d.length - c.blockLen) % c.blockLen = 0)
include hlen hmod

theorem blockDecryptBytes_key_error {e : ErrorKind} (hkey : deriveKey c k = .error e) :
    blockDecryptBytes c d k = .error e := by
  rw [blockDecryptBytes, if_neg (Nat.not_lt.mpr hlen), if_neg (not_not.mpr hmod), hkey]

variable {key : Bytes} (hkey : deriveKey c k = .ok key)
include hkey

/-- An IV and whole blocks under a derived key: the text is decrypted, unpadded and decoded, unless the IV is all there is. -/
theorem blockDecryptBytes_of_key : blockDecryptBytes c d k =
    if d.length = c.blockLen then .error .paddingError
    else (unpad (cbcDecrypt (c.decrypt key) c.blockLen (d.take c.blockLen) (d.drop c.blockLen)) c.blockLen).bind
      utf8Decode := by
  rw [blockDecryptBytes, if_neg (Nat.not_lt.mpr hlen), if_neg (not_not.mpr hmod), hkey]
  refine ite_congr rfl (fun _ => rfl) fun _ => ?_
  cases unpad (cbcDecrypt (c.decrypt key) c.blockLen (d.take c.blockLen) (d.drop c.blockLen)) c.blockLen <;> rfl

theorem blockDecryptBytes_iv_alone (h : d.length = c.blockLen) : blockDecryptBytes c d k = .error .paddingError := by
  rw [blockDecryptBytes_of_key hlen hmod hkey, if_pos h]

variable (hlong : c.blockLen < d.length)
include hlong

theorem blockDecryptBytes_bad_pad {e : ErrorKind} (h : unpad (cbcDecrypt (c.decrypt key) c.blockLen
    (d.take c.blockLen) (d.drop c.blockLen)) c.blockLen = .error e) : blockDecryptBytes c d k = .error e := by
  rw [blockDecryptBytes_of_key hlen hmod hkey, if_neg hlong.ne', h]
  rfl

theorem blockDecryptBytes_unpadded {pb : Bytes} (h : unpad (cbcDecrypt (c.decrypt key) c.blockLen
    (d.take c.blockLen) (d.drop c.blockLen)) c.blockLen = .ok pb) : blockDecryptBytes c d k = utf8Decode pb := by
  rw [blockDecryptBytes_of_key hlen hmod hkey, if_neg hlong.ne', h]
  rfl

end

/-- What is decrypted fills whole blocks. -/
theorem length_cbcDecrypt_mod {c : BlockCipher} (hc : c.Lawful) {key d : Bytes} (hkey : key.length = c.keyLen)
    (hlen : c.blockLen ≤ d.length) (hmod : (d.length - c.blockLen) % c.blockLen = 0) :
    (cbcDecrypt (c.decrypt key) c.blockLen (d.take c.blockLen) (d.drop c.blockLen)).length % c.blockLen = 0 := by
  have hiv : (d.take c.blockLen).length = c.blockLen := List.length_take_of_le hlen
  have hrest : (d.drop c.blockLen).length % c.blockLen = 0 := by rwa [List.length_drop]
  rw [length_cbcDecrypt hiv hrest fun x hx => hc.decrypted key x hkey hx, hrest]

/-- Decryption undoes encryption under the same key, whatever the IV (R177). -/
theorem blockDecrypt_ciphertext {c : BlockCipher} (hc : c.Lawful) {iv : Bytes} {t k : Text} (hk : k ≠ [])
    (hkey : deriveKey c k = .ok (stretched c k)) (hiv : iv.length = c.blockLen) (ht : ∀ x ∈ t, IsScalar x) :
    blockDecrypt c (ciphertext c (stretched c k) iv t) k = .ok t := by
  have hkeyLen : (stretched c k).length = c.keyLen := hc.key _
  have hcipher := length_cbcEncrypt_pad hc hkeyLen hiv t
  have hpos : 0 < c.blockLen * (utf8Length t / c.blockLen + 1) := Nat.mul_pos hc.blockPos (Nat.succ_pos _)
  rw [ciphertext, blockDecrypt_eq hk (base64Decode_base64Encode _),
    blockDecryptBytes_unpadded (pb := utf8Of t) (by simp [hiv]) ?_ hkey ?_ ?_]
  · exact utf8Decode_eq_ok_iff.mpr ⟨ht, rfl⟩
  · rw [List.length_append, hiv, Nat.add_sub_cancel_left, hcipher, Nat.mul_mod_right]
  · rw [List.length_append, hiv, hcipher]
    omega
  · rw [List.take_left' hiv, List.drop_left' hiv, cbcDecrypt_cbcEncrypt hiv (length_pad_mod _ hc.blockPos) hc.blockPos
      (fun x hx => hc.inverse _ x hkeyLen hx), unpad_pad _ hc.blockPos hc.blockByte]

/-- Whatever the encrypt body answers, the decrypt body takes back (R177). -/
theorem blockDecrypt_of_blockEncrypt {c : BlockCipher} (hc : c.Lawful) {iv : Bytes} {t k o : Text} (ht : t.Valid)
    (hiv : iv.length = c.blockLen) (h : blockEncrypt c iv t k = .ok o) : blockDecrypt c o k = .ok t := by
  have hk : k ≠ [] := by
    rintro rfl
    cases h
  rw [blockEncrypt, blockEncryptKey_of_ne_nil hk] at h
  cases hkey : deriveKey c k with
  | error e =>
    rw [hkey] at h
    cases h
  | ok key =>
    obtain rfl := eq_stretched_of_deriveKey hkey
    rw [hkey] at h
    by_cases hsur : NoSurrogates t
    · cases (blockEncryptText_eq_ok c _ iv hsur).symm.trans h
      exact blockDecrypt_ciphertext hc hk hkey hiv fun x hx => ⟨ht x hx, hsur x hx⟩
    · cases (blockEncryptText_eq_error c _ iv (not_noSurrogates_iff.mp hsur)).symm.trans h

/-- Settles O26: both ciphers meet the laws. -/
theorem blockRoundTrip : Obligations.BlockRoundTrip := fun p _ _ _ _ ht =>
  ⟨blockDecrypt_of_blockEncrypt (lawful_blockCipherA p) ht, blockDecrypt_of_blockEncrypt (lawful_blockCipherB p) ht⟩

end Sys2Proof.Machine
end

section
/-! The checks before the body, and a body's text that does not fit (spec/43_dispatch.md R193, R195, R196), for every
command. -/

namespace Sys2Proof.Machine

/-! ### The checks of the operands (R195) -/

theorem lengthsFit_iff (s : State) :
    s.lengthsFit = true ↔ s.inLen.toNat ≤ s.params.inCap ∧ s.keyLen.toNat ≤ s.params.keyCap := by
  rw [State.lengthsFit, Bool.and_eq_true, decide_eq_true_eq, decide_eq_true_eq]

theorem not_allCharacters_iff (t : Text) : (!allCharacters t) = true ↔ ∃ c ∈ t, maxCodePoint < c := by
  rw [Bool.not_eq_true', ← Bool.not_eq_true, allCharacters_iff]
  simp only [not_forall, Nat.not_le, exists_prop]

theorem operands_capacityError {s : State} (keyRead : Bool)
    (h : s.params.inCap < s.inLen.toNat ∨ s.params.keyCap < s.keyLen.toNat) :
    s.operands keyRead = .error .capacityError := by
  refine if_pos ?_
  rw [Bool.not_eq_true', ← Bool.not_eq_true, lengthsFit_iff]
  omega

theorem operands_encodingError {s : State} {keyRead : Bool} (hin : s.inLen.toNat ≤ s.params.inCap)
    (hkey : s.keyLen.toNat ≤ s.params.keyCap)
    (h : (∃ c ∈ s.inText, maxCodePoint < c) ∨ (keyRead = true ∧ ∃ c ∈ s.keyText, maxCodePoint < c)) :
    s.operands keyRead = .error .encodingError := by
  have hfit : ¬ (!s.lengthsFit) = true := by simp [(lengthsFit_iff s).mpr ⟨hin, hkey⟩]
  rw [State.operands, if_neg hfit]
  rcases h with hcell | ⟨rfl, hcell⟩
  · rw [if_pos ((not_allCharacters_iff _).mpr hcell)]
  · rw [Bool.true_and, if_pos ((not_allCharacters_iff s.keyText).mpr hcell), ite_self]

/-- The commands that draw an IV read their key. -/
theorem readsKey_of_drawLength_ne_zero {i : Instr} (h : drawLength i ≠ 0) : readsKey i = true := by
  cases i with
  | blkaEnc => rfl
  | blkbEnc => rfl
  | _ => exact absurd rfl h

/-- A failed check of the operands is the outcome of every command, whether or not it would draw. -/
theorem failsWith_of_operands_eq_error {i : Instr} {s : State} {e : ErrorKind} (hp : s.params.Legal)
    (h : s.operands (readsKey i) = .error e) : FailsWith i s e := by
  refine ⟨s.completeError e, ?_, completeError_completed e hp, rfl⟩
  by_cases hdraw : drawLength i = 0
  · obtain ⟨body, -, hexec⟩ := exec_of_drawLength_eq_zero hdraw
    have hout : s.outcome (readsKey i) (body s.params) = .error e := by rw [State.outcome, h]
    rw [hexec, runBody_next, hout, complete_error]
  · obtain ⟨c, -, hexec⟩ := exec_of_drawLength_ne_zero hdraw
    rw [readsKey_of_drawLength_ne_zero hdraw] at h
    rw [hexec, runBlockEncrypt, h]

/-- Settles O32: the lengths are checked first. -/
theorem oversizeLengthIsCapacityError : Obligations.OversizeLengthIsCapacityError := fun _ _ hp h =>
  failsWith_of_operands_eq_error hp (operands_capacityError _ h)

/-- Settles O33: the cells are checked after the lengths, and before the body. -/
theorem nonCharacterCellIsEncodingError : Obligations.NonCharacterCellIsEncodingError := fun _ _ hp hin hkey h =>
  failsWith_of_operands_eq_error hp (operands_encodingError hin hkey h)

/-! ### A text that does not fit (R196) -/

theorem limitOutput_oversize {s : State} {o : Text} (h : s.params.outCap < o.length) :
    s.limitOutput (.ok o) = .error .capacityError := if_pos h

theorem failsWith_of_oversize {i : Instr} {s : State} {keyRead : Bool} {body : Text → Text → Except ErrorKind Text}
    {o : Text} (hexec : exec i s = s.runBody keyRead body) (hp : s.params.Legal) (hv : OperandsValid s keyRead)
    (hbody : body s.inText s.keyText = .ok o) (hlong : s.params.outCap < o.length) :
    FailsWith i s .capacityError := by
  have hout : s.outcome keyRead body = .error .capacityError := by
    simp only [State.outcome, operands_of_valid hv, hbody, limitOutput_oversize hlong]
  exact ⟨s.completeError .capacityError, by rw [hexec, runBody_next, hout, complete_error],
    completeError_completed _ hp, rfl⟩

end Sys2Proof.Machine
end

section
/-! The block encrypt commands (spec/42_block.md R170, R171, R173; spec/70_reset_and_hazards.md R245): a key error, the wait
for entropy, and the completion after the draw, for any cipher. -/

namespace Sys2Proof.Machine

section
variable {c : BlockCipher} {s : State} (hv : OperandsValid s true)
include hv

/-- The key is checked before the draw, so an error of the key uses up no entropy (R127, R170). -/
theorem runBlockEncrypt_key_error {e : ErrorKind} (hp : s.params.Legal) (hkey : blockEncryptKey c s.keyText = .error e) :
    ∃ t, runBlockEncrypt c s = .next t ∧ CompletedErr s t e ∧ t.entropy = s.entropy :=
  ⟨s.completeError e, by simp only [runBlockEncrypt, operands_of_valid hv, hkey], completeError_completed e hp, rfl⟩

variable {key : Bytes} (hkey : blockEncryptKey c s.keyText = .ok key)
include hkey

theorem runBlockEncrypt_waits (hshort : s.entropy.length < c.blockLen) : runBlockEncrypt c s = .next s := by
  simp only [runBlockEncrypt, operands_of_valid hv, hkey, drawIv_eq, if_neg (Nat.not_le.mpr hshort)]

variable (hready : c.blockLen ≤ s.entropy.length)
include hready

/-- With its draw ready a command completes with what the text gives under the key and the drawn IV. -/
theorem runBlockEncrypt_drawn : runBlockEncrypt c s =
    .next (({ s with entropy := s.entropy.drop c.blockLen } : State).complete
      (s.limitOutput (blockEncryptText c key (s.entropy.take c.blockLen) s.inText))) := by
  simp only [runBlockEncrypt, operands_of_valid hv, hkey, drawIv_eq, if_pos hready]

variable (hp : s.params.Legal)
include hp

theorem runBlockEncrypt_drawn_ok {o : Text}
    (htext : blockEncryptText c key (s.entropy.take c.blockLen) s.inText = .ok o) (hfit : o.length ≤ s.params.outCap) :
    ∃ t, runBlockEncrypt c s = .next t ∧ CompletedOk s t o ∧ t.entropy = s.entropy.drop c.blockLen := by
  have hout : s.limitOutput (.ok o) = .ok o := (limitOutput_ok_iff ..).mpr ⟨rfl, hfit⟩
  have hdone : CompletedOk { s with entropy := s.entropy.drop c.blockLen } _ o := completeOk_completed hp hfit
  exact ⟨_, by rw [runBlockEncrypt_drawn hv hkey hready, htext, hout, complete_ok], hdone.of_drawn, rfl⟩

theorem runBlockEncrypt_drawn_error {e : ErrorKind}
    (htext : s.limitOutput (blockEncryptText c key (s.entropy.take c.blockLen) s.inText) = .error e) :
    ∃ t, runBlockEncrypt c s = .next t ∧ CompletedErr s t e ∧ t.entropy = s.entropy.drop c.blockLen := by
  have hdone : CompletedErr { s with entropy := s.entropy.drop c.blockLen } _ e := completeError_completed e hp
  exact ⟨_, by rw [runBlockEncrypt_drawn hv hkey hready, htext, complete_error], hdone.of_drawn, rfl⟩

theorem runBlockEncrypt_plain_surrogate (hplain : ∃ x ∈ s.inText, isSurrogate x = true) :
    ∃ t, runBlockEncrypt c s = .next t ∧ CompletedErr s t .encodingError ∧ t.entropy = s.entropy.drop c.blockLen := by
  refine runBlockEncrypt_drawn_error hv hkey hready hp ?_
  rw [blockEncryptText_eq_error c _ _ hplain]
  rfl

variable (hc : c.Lawful) (hlen : key.length = c.keyLen) (hplain : NoSurrogates s.inText)
include hc hlen hplain

/-- The completion with the ciphertext and its length (R175). -/
theorem runBlockEncrypt_completes (hfit : encryptedLength c.blockLen (utf8Length s.inText) ≤ s.params.outCap) :
    (∃ t, runBlockEncrypt c s = .next t ∧ CompletedOk s t (ciphertext c key (s.entropy.take c.blockLen) s.inText) ∧
      t.entropy = s.entropy.drop c.blockLen) ∧
    (ciphertext c key (s.entropy.take c.blockLen) s.inText).length = encryptedLength c.blockLen (utf8Length s.inText) := by
  have hout := length_ciphertext hc hlen (List.length_take_of_le hready) s.inText
  exact ⟨runBlockEncrypt_drawn_ok hv hkey hready hp (blockEncryptText_eq_ok c _ _ hplain) (hout.trans_le hfit), hout⟩

theorem runBlockEncrypt_oversize (hlong : s.params.outCap < encryptedLength c.blockLen (utf8Length s.inText)) :
    ∃ t, runBlockEncrypt c s = .next t ∧ CompletedErr s t .capacityError ∧ t.entropy = s.entropy.drop c.blockLen := by
  refine runBlockEncrypt_drawn_error hv hkey hready hp ?_
  rw [blockEncryptText_eq_ok c _ _ hplain, limitOutput_oversize]
  rwa [length_ciphertext hc hlen (List.length_take_of_le hready)]

end

/-- The key that BLKA.ENC uses. -/
theorem blockEncryptKey_blockCipherA {s : State} {i : Instr} (hne : s.keyText ≠ []) (h : KeyAccepted i s) :
    blockEncryptKey (blockCipherA s.params) s.keyText = .ok (stretched (blockCipherA s.params) s.keyText) := by
  rw [blockEncryptKey_of_ne_nil hne, deriveKey_blockCipherA h]

/-- The key that BLKB.ENC uses. -/
theorem blockEncryptKey_blockCipherB {s : State} {i : Instr} (hi : i.alg = .blockB) (hne : s.keyText ≠ [])
    (h : KeyAccepted i s) :
    blockEncryptKey (blockCipherB s.params) s.keyText = .ok (stretched (blockCipherB s.params) s.keyText) := by
  rw [blockEncryptKey_of_ne_nil hne, deriveKey_blockCipherB hi h]

/-- BLKA has no check of the key but its surrogates. -/
theorem keyAccepted_blkaEnc {s : State} (h : NoSurrogates s.keyText) : KeyAccepted .blkaEnc s := ⟨h, nofun⟩

/-- Settles O22: the completion after the draw, for BlockCipherA. -/
theorem blockAEncryptCompletes : Obligations.BlockAEncryptCompletes := by
  intro s hp hv hne hkey hplain hready hfit
  exact runBlockEncrypt_completes hv (blockEncryptKey_blockCipherA hne (keyAccepted_blkaEnc hkey)) hready hp
    (lawful_blockCipherA _) ((lawful_blockCipherA _).key _) hplain hfit

/-- Settles O23: the completion after the draw, for BlockCipherB. -/
theorem blockBEncryptCompletes : Obligations.BlockBEncryptCompletes := by
  intro s hp hv hne hkey hplain hready hfit key hcheck
  exact runBlockEncrypt_completes hv (blockEncryptKey_blockCipherB (i := .blkbEnc) rfl hne ⟨hkey, fun _ => hcheck⟩) hready
    hp (lawful_blockCipherB _) ((lawful_blockCipherB _).key _) hplain hfit

/-- Settles O27: the key passes, and the draw is not ready. -/
theorem blockEncryptWaitsForEntropy : Obligations.BlockEncryptWaitsForEntropy := by
  intro s hv hne hkey
  exact ⟨runBlockEncrypt_waits hv (blockEncryptKey_blockCipherA hne (keyAccepted_blkaEnc hkey)),
    fun hcheck => runBlockEncrypt_waits hv
      (blockEncryptKey_blockCipherB (i := .blkbEnc) rfl hne ⟨hkey, fun _ => hcheck⟩)⟩

/-- Settles O29: the key is encoded before the draw and the plaintext after it. -/
theorem blockEncryptRefusesSurrogates : Obligations.BlockEncryptRefusesSurrogates := by
  intro s hp hv hne
  refine ⟨fun hsur => ?_, fun hplain => ⟨fun hkey hready => ?_, fun hkey hready => ?_⟩⟩
  · have hkey (c : BlockCipher) : blockEncryptKey c s.keyText = .error .encodingError := by
      rw [blockEncryptKey_of_ne_nil hne, deriveKey_of_surrogate hsur]
    exact ⟨runBlockEncrypt_key_error hv hp (hkey _), runBlockEncrypt_key_error hv hp (hkey _)⟩
  · exact runBlockEncrypt_plain_surrogate hv (blockEncryptKey_blockCipherA hne hkey) hready hp hplain
  · exact runBlockEncrypt_plain_surrogate hv (blockEncryptKey_blockCipherB rfl hne hkey) hready hp hplain

end Sys2Proof.Machine
end

section
/-! The block decrypt commands (spec/42_block.md R170, R172, R174): the checks in their order, for the two rows of R170's
table at once. -/

namespace Sys2Proof.Machine

/-- What a row of R170's table makes of a block decrypt command: the body of a lawful cipher, whose stretched key decrypts
to `paddedPlaintext`. -/
theorem exists_cipher_of_row {s : State} {i : Instr} {b n : Nat} {dec : Bytes → Bytes → Bytes}
    (h : BlockDecryptRow s.params i b n dec) : ∃ c : BlockCipher, c.Lawful ∧ c.blockLen = b ∧
      (∀ d, paddedPlaintext s b n dec d =
        cbcDecrypt (c.decrypt (stretched c s.keyText)) c.blockLen (d.take c.blockLen) (d.drop c.blockLen)) ∧
      exec i s = s.runBody true (blockDecrypt c) ∧
      (KeyAccepted i s → deriveKey c s.keyText = .ok (stretched c s.keyText)) := by
  obtain ⟨rfl, rfl, rfl, rfl⟩ | ⟨rfl, rfl, rfl, rfl⟩ := h
  · exact ⟨blockCipherA s.params, lawful_blockCipherA _, rfl, fun _ => rfl, rfl, deriveKey_blockCipherA⟩
  · exact ⟨blockCipherB s.params, lawful_blockCipherB _, rfl, fun _ => rfl, rfl, deriveKey_blockCipherB rfl⟩

theorem unpad_eq_error_of_not_endsInPad {n : Nat} {q : Bytes} (h : ¬ ∃ b, EndsInPad n q b) :
    unpad q n = .error .paddingError :=
  unpad_eq_error (by_contra fun hgood => h ⟨_, (endsInPad_of_unpad (unpad_eq_ok hgood)).2⟩)

/-- A ciphertext under an accepted key whose padded bytes end in a pad gives what UTF-8 makes of the bytes before it. -/
theorem blockDecrypt_eq_utf8Decode {c : BlockCipher} (hc : c.Lawful) {t k : Text} {d pb : Bytes} (hk : k ≠ [])
    (hd : base64Decode t = .ok d) (hkey : deriveKey c k = .ok (stretched c k)) (hlong : c.blockLen < d.length)
    (hmod : (d.length - c.blockLen) % c.blockLen = 0)
    (hpad : EndsInPad c.blockLen (cbcDecrypt (c.decrypt (stretched c k)) c.blockLen (d.take c.blockLen)
      (d.drop c.blockLen)) pb) : blockDecrypt c t k = utf8Decode pb := by
  have hblocks := length_cbcDecrypt_mod hc (hc.key (utf8Of k)) hlong.le hmod
  rw [blockDecrypt_eq hk hd,
    blockDecryptBytes_unpadded hlong.le hmod hkey hlong (unpad_of_endsInPad hc.blockByte hblocks hpad)]

/-- Settles O24: BLKA.DEC undoes the ciphertext of R170. -/
theorem blockADecryptRecoversThePlaintext : Obligations.BlockADecryptRecoversThePlaintext := by
  intro s iv p hp hv hne hkey hsur hchars hiv hfit key hin
  refine runsTo_of_body_eq_ok (body := blockDecrypt (blockCipherA s.params)) rfl hp hv ?_ hfit
  rw [hin]
  exact blockDecrypt_ciphertext (lawful_blockCipherA _) hne (deriveKey_blockCipherA (keyAccepted_blkaEnc hkey)) hiv
    fun x hx => ⟨hchars x hx, hsur x hx⟩

/-- Settles O25: BLKB.DEC undoes the ciphertext of R170. -/
theorem blockBDecryptRecoversThePlaintext : Obligations.BlockBDecryptRecoversThePlaintext := by
  intro s iv p hp hv hne hkey hsur hchars hiv hfit key hcheck hin
  refine runsTo_of_body_eq_ok (body := blockDecrypt (blockCipherB s.params)) rfl hp hv ?_ hfit
  rw [hin]
  exact blockDecrypt_ciphertext (lawful_blockCipherB _) hne
    (deriveKey_blockCipherB (i := .blkbDec) rfl ⟨hkey, fun _ => hcheck⟩) hiv fun x hx => ⟨hchars x hx, hsur x hx⟩

/-- Settles O28: the stretched key is checked before the draw of an encryption, and after the lengths of a decryption. -/
theorem degenerateKeyIsRejected : Obligations.DegenerateKeyIsRejected := by
  intro s d hp hv hne hsur hreject hdegenerate
  have hkey : deriveKey { blockCipherB s.params with digest := d } s.keyText = .error .invalidKey := by
    have hcheck : checkKeyB s.params ((d (utf8Of s.keyText)).take 24) = .error .invalidKey :=
      checkKeyB_eq_error hreject hdegenerate
    exact (deriveKey_eq hsur).trans (congrArg (Except.map _) hcheck)
  refine ⟨runBlockEncrypt_key_error hv hp ((blockEncryptKey_of_ne_nil hne).trans hkey), fun b hb hlen hmod => ?_,
    fun b hlen hmod => blockDecryptBytes_key_error hlen hmod hkey⟩
  have hbody := (blockDecrypt_eq hne hb).trans (blockDecryptBytes_key_error hlen hmod hkey)
  exact ⟨s.completeError .invalidKey, congrArg (fun r => Host.Outcome.next (s.complete r)) (outcome_error_of_body hv hbody),
    completeError_completed _ hp, rfl⟩

/-- Settles O30: the text is decoded and measured before the key is looked at. -/
theorem blockDecryptRefusesMalformedCiphertext : Obligations.BlockDecryptRefusesMalformedCiphertext := by
  intro i b s hi hp hv hne h
  have hrow : ∃ n dec, BlockDecryptRow s.params i b n dec := by
    rcases hi with hi | hi
    · obtain ⟨rfl, rfl⟩ := Prod.mk.inj hi
      exact ⟨_, _, .inl ⟨rfl, rfl, rfl, rfl⟩⟩
    · obtain ⟨rfl, rfl⟩ := Prod.mk.inj hi
      exact ⟨_, _, .inr ⟨rfl, rfl, rfl, rfl⟩⟩
  obtain ⟨n, dec, hrow⟩ := hrow
  obtain ⟨c, -, rfl, -, hexec, -⟩ := exists_cipher_of_row hrow
  refine failsWith_of_body_eq_error hexec hp hv ?_
  rcases h with hgrammar | ⟨d, hd, hlen⟩
  · exact blockDecrypt_eq_error hne (base64Decode_eq_error hgrammar)
  · exact (blockDecrypt_eq hne hd).trans (blockDecryptBytes_malformed hlen)

/-- Settles O31: each check of R170 after the MalformedCiphertext checks, in its order. -/
theorem ivAloneIsAPaddingError : Obligations.IvAloneIsAPaddingError := by
  intro i b n dec s d hrow hp hv hne hd hlen hmod
  obtain ⟨c, hc, rfl, hpadded, hexec, haccepted⟩ := exists_cipher_of_row hrow
  have fails {e : ErrorKind} (h : blockDecryptBytes c d s.keyText = .error e) : FailsWith i s e :=
    failsWith_of_body_eq_error hexec hp hv ((blockDecrypt_eq hne hd).trans h)
  refine ⟨fun hsur => fails (blockDecryptBytes_key_error hlen hmod (deriveKey_of_surrogate hsur)), fun hkey => ?_⟩
  have hkey := haccepted hkey
  rw [hpadded]
  refine ⟨fun hiv => fails (blockDecryptBytes_iv_alone hlen hmod hkey hiv), fun hlong => ⟨fun hpad => ?_,
    fun pb hpad => ?_⟩⟩
  · exact fails (blockDecryptBytes_bad_pad hlen hmod hkey hlong (unpad_eq_error_of_not_endsInPad hpad))
  · have hbody := blockDecrypt_eq_utf8Decode hc hne hd hkey hlong hmod hpad
    exact ⟨fun hnone => failsWith_of_body_eq_error hexec hp hv (hbody.trans (utf8Decode_eq_error hnone)),
      fun t ht => runsTo_of_body_eq_ok hexec hp hv (hbody.trans ht)⟩

end Sys2Proof.Machine
end

section
/-! The statements over all commands: no key, and a text that does not fit OUT. -/

namespace Sys2Proof.Machine

/-- Settles O34: command by command, the body refuses the empty key text, a block encrypt command before the draw. -/
theorem missingKeyIsInvalidKey : Obligations.MissingKeyIsInvalidKey := by
  intro i s hp hv hreads hlen
  have hkey : s.keyText = [] := by
    rw [← List.length_eq_zero_iff, length_keyText, hlen]
    rfl
  have fails {body : Text → Text → Except ErrorKind Text} (hexec : exec i s = s.runBody true body)
      (hbody : body s.inText [] = .error .invalidKey) : FailsWith i s .invalidKey :=
    failsWith_of_body_eq_error hexec hp hv (by rw [hkey, hbody])
  have encryptKey (c : BlockCipher) : blockEncryptKey c s.keyText = .error .invalidKey := by
    rw [hkey, blockEncryptKey_nil]
  cases i with
  | shiftEnc => exact fails rfl rfl
  | shiftDec => exact fails rfl rfl
  | vigEnc => exact fails rfl rfl
  | vigDec => exact fails rfl rfl
  | otpEnc => exact fails rfl rfl
  | otpDec => exact fails rfl rfl
  | atbashEnc => cases hreads
  | atbashDec => cases hreads
  | railEnc => exact fails rfl rfl
  | railDec => exact fails rfl rfl
  | blkaEnc => exact runBlockEncrypt_key_error hv hp (encryptKey _)
  | blkaDec => exact fails rfl rfl
  | blkbEnc => exact runBlockEncrypt_key_error hv hp (encryptKey _)
  | blkbDec => exact fails rfl rfl

/-- The body of the one-time pad, when none of its checks fails. -/
theorem oneTimePad_eq_ok {t k : Text} (hne : k ≠ []) (hlong : t.length ≤ k.length)
    (hchars : ∀ j, j < t.length → t.getD j 0 ^^^ k.getD j 0 ≤ maxCodePoint) :
    oneTimePad t k = .ok (t.mapIdx fun j c => c ^^^ k.getD j 0) := by
  rw [oneTimePad_eq, if_neg hne, if_neg (Nat.not_lt.mpr hlong), if_pos hchars]

/-- Settles O35: the output of a classical command is as long as its input; that of a block encrypt command has the length
of R175; that of a block decrypt command is the decoded text. -/
theorem oversizeOutputIsCapacityError : Obligations.OversizeOutputIsCapacityError := by
  intro s hp
  refine ⟨fun hv hlong => ?_, fun hv hlong => ?_, fun hv hne hplain => ?_, fun hv hne => ?_⟩
  · have hout : s.params.outCap < (s.inText.map atbashChar).length := by simpa using hlong
    exact ⟨failsWith_of_oversize rfl hp hv rfl hout, failsWith_of_oversize rfl hp hv rfl hout⟩
  · have hlong : s.params.outCap < s.inText.length := by rwa [length_inText]
    refine ⟨fun ⟨off, hkey⟩ => ⟨?_, ?_⟩, fun hne hletters => ⟨?_, ?_⟩, fun hkeyLong hchars => ?_,
      fun ⟨r, hr, hkey⟩ => ⟨?_, ?_⟩⟩
    · exact failsWith_of_oversize rfl hp hv (shiftEncrypt_eq_ok _ hkey) (by rwa [List.length_map])
    · exact failsWith_of_oversize rfl hp hv (shiftDecrypt_eq_ok _ hkey) (by rwa [List.length_map])
    · exact failsWith_of_oversize rfl hp hv (vigenereEncrypt_eq_ok _ hne hletters) (by rwa [List.length_mapIdx])
    · exact failsWith_of_oversize rfl hp hv (vigenereDecrypt_eq_ok _ hne hletters) (by rwa [List.length_mapIdx])
    · have hne : s.keyText ≠ [] := List.ne_nil_of_length_pos (by omega)
      have hbody := oneTimePad_eq_ok hne hkeyLong hchars
      exact ⟨failsWith_of_oversize rfl hp hv hbody (by rwa [List.length_mapIdx]),
        failsWith_of_oversize rfl hp hv hbody (by rwa [List.length_mapIdx])⟩
    · refine failsWith_of_oversize rfl hp hv (railEncrypt_eq_ok _ hr hkey) ?_
      rwa [← railWrite_eq_zigzagWrite hr, length_railWrite hr]
    · exact failsWith_of_oversize rfl hp hv (railDecrypt_eq_ok _ hr hkey) (by rwa [length_railRead])
  · exact ⟨fun hkey hready hlong => runBlockEncrypt_oversize hv (blockEncryptKey_blockCipherA hne hkey) hready hp
        (lawful_blockCipherA _) ((lawful_blockCipherA _).key _) hplain hlong,
      fun hkey hready hlong => runBlockEncrypt_oversize hv (blockEncryptKey_blockCipherB rfl hne hkey) hready hp
        (lawful_blockCipherB _) ((lawful_blockCipherB _).key _) hplain hlong⟩
  · intro i b n dec d pb t hrow hkey hd hlen hmod hpad ht hlong
    obtain ⟨c, hc, rfl, hpadded, hexec, haccepted⟩ := exists_cipher_of_row hrow
    rw [hpadded] at hpad
    have hbody := blockDecrypt_eq_utf8Decode hc hne hd (haccepted hkey) hlen hmod hpad
    exact failsWith_of_oversize hexec hp hv (hbody.trans ht) hlong

end Sys2Proof.Machine
end
